-- ==== Sys2Proof/Word.lean ====
section
/-!
DEFINITION. The word types of the core (10_state.md rules R22 to R34, 30_encoding.md rules R71, R75 and R79),
and the plain data that holds an exact real number (00_scope.md rule R8).
-/

namespace Sys2Proof

/-- A 16-bit command or response word: CMD_W = RSP_W = 16 (R6, R71, R75). -/
abbrev Word := BitVec 16

/-- The 19-bit dispatch key, the state code above the command word (R78). -/
abbrev Key := BitVec 19

/-- A raw sample, u11: SAMPLE_W = 11 (R6). The baseline and the extremes have the same width (R24 to R26). -/
abbrev Sample := BitVec 11

/-- A u16 counter: CNT_W = 16 (R6); sample_count, skip and acc.i (R27, R28, R33). -/
abbrev Count := BitVec 16

/-- An s17 phase in two's complement: PHASE_W = 17 (R6, R30 to R32). -/
abbrev Phase := BitVec 17

/-- The 9-bit symbol word B (R34, R79). -/
abbrev SymbolWord := BitVec 9

/-- A data byte (R13). -/
abbrev Byte := BitVec 8

/-- One term of an exact real: `coef · cos (2π · turn)`. -/
structure TrigTerm where
  turn : Rat
  coef : Rat
deriving DecidableEq, Repr

/-- An exact real number as a finite sum of terms (DESIGN CHOICE, log 1). Every value the correlator accumulates is
one: a rational sample times a sine or a cosine of a rational turn (R8, R171). -/
abbrev TrigSum := List TrigTerm

/-- An exact real number as a sum of products of two sums: the power of a pair and the cross products that compare
an angle with a threshold are of this shape (R137, R173). -/
abbrev TrigQuad := List (TrigSum × TrigSum)

end Sys2Proof
end

