-- ==== Sys2Proof/Syntax.lean ====
section
/-!
DEFINITION. The commands as terms: one constructor of `Instr` per row of opcode_table.json (43_commands.md rules R201
to R208), the decoder states that the dispatch key names, the result codes, the reserved words, and the textual
command form of 30_encoding.md rule R81.
-/

namespace Sys2Proof

/-- The seven values of the decoder state register (R22), in D0's order. Code 7 has no value (R22, R77, I7). -/
inductive DecState where
  | init
  | detectPolarity
  | detectWaveFirstHalf
  | detectWaveSecondHalf
  | detectCalibrate
  | decodeData
  | eof
deriving DecidableEq, Repr

/-- The commands as the opcode table lists them: a FEED is one row for each state that it finds the core in (R78),
RESET is one row. The operand is the raw sample, u11, so that no ill-formed term exists (R72). -/
inductive Instr where
  | feedInit (x : Sample)
  | feedDetectPolarity (x : Sample)
  | feedDetectWaveFirstHalf (x : Sample)
  | feedDetectWaveSecondHalf (x : Sample)
  | feedDetectCalibrate (x : Sample)
  | feedDecodeData (x : Sample)
  | feedEof (x : Sample)
  | reset
deriving DecidableEq, Repr

/-- The result code of a command (R13). -/
inductive Result where
  | noData
  | eof
  | data (b : Byte)
deriving DecidableEq, Repr

/-- Why a word or a key is no command (R74, R77). -/
inductive ReservedWord where
  /-- CMD is 10 or 11: 0x8000 to 0xFFFF. -/
  | command
  /-- CMD is 00 and RSV is not 000: 0x0800 to 0x3FFF. -/
  | feedBits
  /-- CMD is 01 and bits 13 to 0 are not all 0: 0x4001 to 0x7FFF. -/
  | resetBits
  /-- A FEED key whose state code is 7, which names no state. -/
  | stateCode
deriving DecidableEq, Repr

/-- What the decoder answers: a command, or a reserved word by its name. -/
inductive Decoded where
  | instr (i : Instr)
  | reserved (why : ReservedWord)
deriving DecidableEq, Repr

/-- A line of the textual form of a command sequence (R81): `FEED n`, `RESET`, `.word w` and the pseudo-instruction
`FEED n × k`. -/
inductive AsmLine where
  | feed (n : Nat)
  | reset
  | word (w : Nat)
  | feedTimes (n k : Nat)
deriving DecidableEq, Repr

end Sys2Proof
end

