-- ==== Sys2Proof/WellFormed.lean ====
section
/-!
DEFINITION. Which lines of the textual form are well formed (30_encoding.md rule R81): a sample is 0 to 2047, a raw
word has 16 bits. Every term of `Instr` is well formed, since its operand is a u11 by its type (R72).
-/

namespace Sys2Proof

/-- The check of a line (R81). -/
def AsmLine.wellFormed : AsmLine → Bool
  | .feed n => decide (n ≤ 2047)
  | .reset => true
  | .word w => decide (w ≤ 65535)
  | .feedTimes n _ => decide (n ≤ 2047)

end Sys2Proof
end

