-- ==== Sys2Proof/Decode.lean ====
section
/-!
DEFINITION. The encodings of 30_encoding.md: decoding a command word and a dispatch key (rules R71 to R74, R77,
R78), encoding them, and the response word (rules R75, R76). Decoding is total: what is no command is rejected by
the name of the reserved range it lies in.
-/

namespace Sys2Proof

/-- The state codes (R77). -/
def DecState.code : DecState → BitVec 3
  | .init => 0b000#3
  | .detectPolarity => 0b001#3
  | .detectWaveFirstHalf => 0b010#3
  | .detectWaveSecondHalf => 0b011#3
  | .detectCalibrate => 0b100#3
  | .decodeData => 0b101#3
  | .eof => 0b110#3

/-- The state of a code; 0b111 names none (R77). -/
def DecState.ofCode (c : BitVec 3) : Option DecState :=
  if c = 0b000#3 then some .init
  else if c = 0b001#3 then some .detectPolarity
  else if c = 0b010#3 then some .detectWaveFirstHalf
  else if c = 0b011#3 then some .detectWaveSecondHalf
  else if c = 0b100#3 then some .detectCalibrate
  else if c = 0b101#3 then some .decodeData
  else if c = 0b110#3 then some .eof
  else none

/-! ## The command word (R71) -/

/-- The field CMD, bits 15:14. -/
def cmdField (w : Word) : BitVec 2 := w.extractLsb' 14 2

/-- The field RSV, bits 13:11. -/
def rsvField (w : Word) : BitVec 3 := w.extractLsb' 11 3

/-- The field SAMPLE, bits 10:0. -/
def sampleField (w : Word) : Sample := w.extractLsb' 0 11

/-- Bits 13:0, all 0 in RESET (R73). -/
def lowField (w : Word) : BitVec 14 := w.extractLsb' 0 14

/-- The FEED row of a state (R78). -/
def feedIn (d : DecState) (x : Sample) : Instr :=
  match d with
  | .init => .feedInit x
  | .detectPolarity => .feedDetectPolarity x
  | .detectWaveFirstHalf => .feedDetectWaveFirstHalf x
  | .detectWaveSecondHalf => .feedDetectWaveSecondHalf x
  | .detectCalibrate => .feedDetectCalibrate x
  | .decodeData => .feedDecodeData x
  | .eof => .feedEof x

/-- Decode a command word in a state (R72 to R74, R78). -/
def decodeCommand (d : DecState) (w : Word) : Decoded :=
  if cmdField w = 0b00#2 then
    if rsvField w = 0b000#3 then .instr (feedIn d (sampleField w)) else .reserved .feedBits
  else if cmdField w = 0b01#2 then
    if lowField w = 0#14 then .instr .reset else .reserved .resetBits
  else .reserved .command

/-! ## The dispatch key (R78) -/

/-- The state field of a key, bits 18:16. -/
def keyState (k : Key) : BitVec 3 := k.extractLsb' 16 3

/-- The command field of a key, bits 15:0. -/
def keyCommand (k : Key) : Word := k.extractLsb' 0 16

/-- The key of a state and a command word. -/
def dispatchKey (d : DecState) (w : Word) : Key := d.code ++ w

/-- Decode a dispatch key. RESET ignores the state field; a FEED with the unused state code selects no row (R77). -/
def decodeKey (k : Key) : Decoded :=
  match DecState.ofCode (keyState k) with
  | some d => decodeCommand d (keyCommand k)
  | none =>
    match decodeCommand .init (keyCommand k) with
    | .instr .reset => .instr .reset
    | .instr _ => .reserved .stateCode
    | .reserved e => .reserved e

/-- The instruction that the decoder reads from a table row's bits: the key, bit 0 the least significant bit of the
command word, the state field above it. No key has a bit above bit 18. DEDUCED (log 15). -/
def decodeTableWord (_nbits w : Nat) : Option Instr :=
  if w < 2 ^ 19 then
    match decodeKey (BitVec.ofNat 19 w) with
    | .instr i => some i
    | .reserved _ => none
  else none

/-! ## Encoding -/

/-- The state whose FEED row an instruction is; RESET has none. -/
def Instr.state : Instr → Option DecState
  | .feedInit _ => some .init
  | .feedDetectPolarity _ => some .detectPolarity
  | .feedDetectWaveFirstHalf _ => some .detectWaveFirstHalf
  | .feedDetectWaveSecondHalf _ => some .detectWaveSecondHalf
  | .feedDetectCalibrate _ => some .detectCalibrate
  | .feedDecodeData _ => some .decodeData
  | .feedEof _ => some .eof
  | .reset => none

/-- FEED: `00 000 sssssssssss` (R72). -/
def encodeFeed (x : Sample) : Word := 0b00000#5 ++ x

/-- The command word of an instruction (R72, R73). -/
def encodeCommand : Instr → Word
  | .feedInit x => encodeFeed x
  | .feedDetectPolarity x => encodeFeed x
  | .feedDetectWaveFirstHalf x => encodeFeed x
  | .feedDetectWaveSecondHalf x => encodeFeed x
  | .feedDetectCalibrate x => encodeFeed x
  | .feedDecodeData x => encodeFeed x
  | .feedEof x => encodeFeed x
  | .reset => 0x4000#16

/-- The dispatch key of an instruction; RESET's ignored state bits are given as `any` (R78). -/
def encodeKeyWith (any : BitVec 3) (i : Instr) : Key :=
  (match i.state with
    | some d => d.code
    | none => any) ++ encodeCommand i

/-- The dispatch key of an instruction, RESET's ignored state bits 0. -/
def encodeKey (i : Instr) : Key := encodeKeyWith 0b000#3 i

/-- The mask of an instruction's row of the table (R78). -/
def Instr.mask : Instr → Key
  | .reset => 0x0FFFF#19
  | _ => 0x7F800#19

/-- The bits that an instruction's row requires under its mask (R78). -/
def Instr.pattern : Instr → Key
  | .feedInit _ => 0x00000#19
  | .feedDetectPolarity _ => 0x10000#19
  | .feedDetectWaveFirstHalf _ => 0x20000#19
  | .feedDetectWaveSecondHalf _ => 0x30000#19
  | .feedDetectCalibrate _ => 0x40000#19
  | .feedDecodeData _ => 0x50000#19
  | .feedEof _ => 0x60000#19
  | .reset => 0x04000#19

/-- The command words of a line of the textual form, none where the line is ill formed (R81). -/
def assemble (a : AsmLine) : Option (List Word) :=
  if a.wellFormed then
    match a with
    | .feed n => some [encodeFeed (BitVec.ofNat 11 n)]
    | .reset => some [0x4000#16]
    | .word w => some [BitVec.ofNat 16 w]
    | .feedTimes n k => some (List.replicate k (encodeFeed (BitVec.ofNat 11 n)))
  else none

/-! ## The textual form (R81) -/

/-- The value of a digit in a base up to 16, none where the character is no digit of it. -/
def digitValue (base : Nat) (c : Char) : Option Nat :=
  let n := c.toNat
  let v :=
    if 48 ≤ n ∧ n ≤ 57 then n - 48
    else if 65 ≤ n ∧ n ≤ 70 then n - 55
    else if 97 ≤ n ∧ n ≤ 102 then n - 87
    else base
  if v < base then some v else none

/-- The number that a nonempty list of digits stands for, with what stands before it. -/
def digitsValue (base : Nat) : Nat → List Char → Option Nat
  | acc, [] => some acc
  | acc, c :: l =>
    match digitValue base c with
    | some v => digitsValue base (acc * base + v) l
    | none => none

/-- A decimal number, or a hexadecimal one after 0x. -/
def readNumber : List Char → Option Nat
  | [] => none
  | '0' :: 'x' :: [] => none
  | '0' :: 'x' :: l => digitsValue 16 0 l
  | l => digitsValue 10 0 l

/-- The words of a line, without the spaces and without the comment. -/
def lineWords : List Char → List Char → List (List Char)
  | cur, [] => if cur = [] then [] else [cur]
  | cur, c :: l =>
    if c = ';' then (if cur = [] then [] else [cur])
    else if c = ' ' then (if cur = [] then lineWords [] l else cur :: lineWords [] l)
    else lineWords (cur ++ [c]) l

/-- The words FEED, RESET and .word, and the sign of a repetition, as characters. -/
def feedName : List Char := ['F', 'E', 'E', 'D']
def resetName : List Char := ['R', 'E', 'S', 'E', 'T']
def wordName : List Char := ['.', 'w', 'o', 'r', 'd']
def timesName : List Char := ['×']

/-- Read a line of text: `some none` for a line with no command, `none` where the text is no line. DESIGN CHOICE
(log 22). -/
def readLine (text : List Char) : Option (Option AsmLine) :=
  match lineWords [] text with
  | [] => some none
  | [a] => if a = resetName then some (some .reset) else none
  | [a, n] =>
    if a = feedName then (readNumber n).map fun v => some (.feed v)
    else if a = wordName then (readNumber n).map fun v => some (.word v)
    else none
  | [a, n, t, k] =>
    if a = feedName ∧ t = timesName then
      match readNumber n, readNumber k with
      | some v, some m => some (some (.feedTimes v m))
      | _, _ => none
    else none
  | _ => none

/-- The command words of a program text, one command a line, none where some line is no line or ill formed. -/
def assembleText : List (List Char) → Option (List Word)
  | [] => some []
  | line :: rest =>
    match readLine line, assembleText rest with
    | some none, some ws => some ws
    | some (some a), some ws => (assemble a).map fun vs => vs ++ ws
    | _, _ => none

/-! ## The response word -/

/-- The response word, the code as a two's-complement s16 (R75). -/
def responseWord : Result → Word
  | .noData => 0xFFFE#16
  | .eof => 0xFFFF#16
  | .data b => b.setWidth 16

/-- How a host tells the responses apart: by bits 15:8, and NODATA from EOF by bit 0 (R76). -/
def readResponse (w : Word) : Option Result :=
  if w.extractLsb' 8 8 = 0x00#8 then some (.data (w.extractLsb' 0 8))
  else if w.extractLsb' 8 8 = 0xFF#8 then some (if w.getLsbD 0 then .eof else .noData)
  else none

end Sys2Proof
end

