-- ==== Sys2Proof/Config.lean ====
section
/-!
DEFINITION. The constants of 00_scope.md rule R5, the implementation parameter NUMERICS of rule R6, the buffering of
70_reset_and_hazards.md rule R265, and the free values the spec leaves open (93_implementation_defined.md, entries I1
and I3). A free value has no body: nothing can be proved about which value it is.
-/

namespace Sys2Proof.Config

/-- FREQ_COUNT (R5): target frequencies 1 to 9. -/
def freqCount : Nat := 9

/-- MIN_N (R5): the lower clamp of sample_count. -/
def minN : Nat := 19

/-- POL_THRESH (R5): the polarity-commit threshold. -/
def polThresh : Int := 64

/-- SMOOTH_DIV (R5): the baseline smoothing divisor. -/
def smoothDiv : Int := 8

/-- ACC_SCALE (R5, R178): the correlator scale factor. -/
def accScale : Rat := 25

/-- BIT_THRESH (R5, R178): the bit-present threshold on p_f, strict. -/
def bitThresh : Rat := 1/4

/-- SYNC_BIT (R5): bit 8 of the symbol word. -/
def syncBit : SymbolWord := 0x100#9

/-- MARKER (R5): the byte of `'>'`, 0x3E (the spec's G1). -/
def marker : Byte := 0x3E#8

/-- The start-of-data marker word, SYNC | 0x3E (R79). -/
def markerWord : SymbolWord := 0x13E#9

/-- NOMINAL_SAMPLE_RANGE (R5): the reference sample scale. No rule of the core tests it (D7, I8). -/
def nominalSampleRange : Nat × Nat := (0, 1024)

/-- The largest u16, where sample_count saturates (R12, R131, R142). -/
def countMax : Nat := 65535

/-- The error bounds of a finite number format (R8, 93 entry I1): on a power p_f, and on the scaled phase φ·N0.
Each is read as its absolute value. DESIGN CHOICE (log 3). -/
structure ErrorBound where
  power : Rat
  phase : Rat
deriving DecidableEq, Repr

/-- The parameter NUMERICS (R6, R8, D10). `exact` is the normative reference, exact real arithmetic. `bounded b` is
a block of finite precision that is not modelled bit by bit: within `b` of a boundary its decisions are free
(93 entry I1). DESIGN CHOICE (log 2 and 3). -/
inductive Numerics where
  | exact
  | bounded (b : ErrorBound)
deriving DecidableEq, Repr

/-- The free fsample of a window with no dynamic range, for each draw (R110, I3): the pair (a, b) stands for
a/(a+b), and every rational of [0, 1] is such a pair. DESIGN CHOICE (log 5). -/
opaque freeUnit : Nat → Nat × Nat

/-- The free decision of bit f of a symbol word, for each draw, at a power within the error bound of the threshold
(I1 (a)). DESIGN CHOICE (log 3). -/
opaque freeBit : Nat → Nat → Bool

/-- The free choice among the phases that I1 (b) and (c) allow, for each draw. DESIGN CHOICE (log 3). -/
opaque freeChoice : Nat → Nat

/-- The free increments of the sine and of the cosine accumulator of frequency f, for each draw, where the formula of
R171 divides by a sample_count of 0. No run from reset comes there (R40). DESIGN CHOICE (log 6). -/
opaque freeIncrement : Nat → Nat → Rat × Rat

/-- How many response words the host may leave untaken before the core accepts no further command, beside the first one:
R265 lets the core hold its command port not-ready while a response has not been taken, and leaves the buffering to the
implementation. DESIGN CHOICE (log 23). -/
opaque commandBuffer : Nat

end Sys2Proof.Config
end

