-- ==== Sys2Proof/Machine/Exact.lean ====
section
/-!
DEFINITION. Exact real arithmetic (00_scope.md rule R8) on plain data: building the sums of cosines the correlator
accumulates, and deciding the sign of a sum of products of two such sums.

How a sign is decided. Bring every turn to the form k/(4m) with one m, and every coefficient to an integer over one
denominator. Find a dyadic c just above cos(2π/(4m)), read cos(2πk/(4m)) as the Chebyshev value T_k(c), and compare
the integer estimate with its error bound. The precisions tried end with one at which a number of this shape that
is not 0 cannot hide below the error bound (a nonzero algebraic integer has a norm of at least 1), so an estimate
still within the bound there means 0. Laws/ExactSign.lean proves the decision exact.
-/

namespace Sys2Proof

/-! ## Building sums -/

/-- A turn moved into [0, 1/2], where its cosine is the same. -/
def halfTurn (t : Rat) : Rat :=
  let u := t - t.floor
  if 1/2 < u then 1 - u else u

/-- A turn moved into [0, 1/4] by the symmetries of the cosine, and whether its cosine changes sign. -/
def foldTurn (t : Rat) : Rat × Bool :=
  let v := halfTurn t
  if 1/4 < v then (1/2 - v, true) else (v, false)

/-- Add a term to a sum kept sorted by turn: terms of one turn are merged, and a coefficient of 0 is dropped. -/
def TrigSum.insert (t c : Rat) : TrigSum → TrigSum
  | [] => [⟨t, c⟩]
  | x :: l =>
    if t = x.turn then (if c + x.coef = 0 then l else ⟨t, c + x.coef⟩ :: l)
    else if t < x.turn then ⟨t, c⟩ :: x :: l
    else x :: TrigSum.insert t c l

/-- `l + c · cos (2π t)`. -/
def TrigSum.addCos (l : TrigSum) (t c : Rat) : TrigSum :=
  let v := foldTurn t
  if c = 0 ∨ v.1 = 1/4 then l else TrigSum.insert v.1 (if v.2 then -c else c) l

/-- `l + c · sin (2π t)`, since `sin x = cos (x - π/2)`. -/
def TrigSum.addSin (l : TrigSum) (t c : Rat) : TrigSum :=
  TrigSum.addCos l (t - 1/4) c

/-- The rational number c. -/
def TrigSum.const (c : Rat) : TrigSum := TrigSum.addCos [] 0 c

/-- The negated sum. -/
def TrigSum.neg (l : TrigSum) : TrigSum := l.map fun x => ⟨x.turn, -x.coef⟩

/-! ## The Chebyshev estimate of the cosines -/

/-- Starting from `prev = T_j · s^(j/2)` and `cur = T_{j+1} · …` at the point `a / √s`, whether each of the next
`m` Chebyshev values is positive. -/
def chebyshevAllPositive (a s : Nat) : Nat → Nat → Nat → Bool
  | 0, _, _ => true
  | m + 1, prev, cur =>
    decide (s * prev < 2 * a * cur) && chebyshevAllPositive a s m cur (2 * a * cur - s * prev)

/-- The least `a` with `cos (2π/(4m)) < a / 2^p`: a point lies above that cosine when T_1 to T_m are positive there. -/
def cosStepAbove (m : Nat) : Nat → Nat
  | 0 => 1
  | p + 1 =>
    let a := 2 * cosStepAbove m p - 1
    if chebyshevAllPositive a (4 ^ (p + 1)) (m - 1) 1 a then a else a + 1

/-- T_j to T_{j+m} at `a / q`, where `s = q²`, brought to one scale. -/
def chebyshevTable (a s q : Nat) : Nat → Nat → Nat → List Nat
  | 0, prev, _ => [prev]
  | m + 1, prev, cur =>
    prev * q ^ (m + 1) :: chebyshevTable a s q m cur (2 * a * cur - s * prev)

/-! ## Reading a sum as integers over one denominator -/

/-- A common denominator of 1/4 and the turns. -/
def TrigSum.order : TrigSum → Nat
  | [] => 4
  | x :: l => Nat.lcm x.turn.den (TrigSum.order l)

/-- A common denominator of the coefficients. -/
def TrigSum.den : TrigSum → Nat
  | [] => 1
  | x :: l => Nat.lcm x.coef.den (TrigSum.den l)

/-- A common denominator of 1/4 and the turns of all factors. -/
def TrigQuad.order : TrigQuad → Nat
  | [] => 4
  | x :: q => Nat.lcm (Nat.lcm (TrigSum.order x.1) (TrigSum.order x.2)) (TrigQuad.order q)

/-- A common denominator of the coefficients of all factors. -/
def TrigQuad.den : TrigQuad → Nat
  | [] => 1
  | x :: q => Nat.lcm (Nat.lcm (TrigSum.den x.1) (TrigSum.den x.2)) (TrigQuad.den q)

/-- The k in [0, 4m) with t = k/(4m), up to whole turns. -/
def turnIndex (m : Nat) (t : Rat) : Nat :=
  ((t.num * (4 * m / t.den : Nat)) % (4 * m : Nat)).toNat

/-- The index k of 4m moved into the first half turn, where its cosine is the same. -/
def halfIndex (m k : Nat) : Nat := if 2 * m < k then 4 * m - k else k

/-- The cosine at index k of 4m read in the first quarter: the index there, and whether the sign changes. -/
def quarterIndex (m k : Nat) : Nat × Bool :=
  let k' := halfIndex m k
  if m < k' then (2 * m - k', true) else (k', false)

/-- A term over the denominators 4m and d: the quarter index and the integer coefficient. -/
def readTerm (m d : Nat) (x : TrigTerm) : Nat × Int :=
  let k := quarterIndex m (turnIndex m x.turn)
  let a := x.coef.num * (d / x.coef.den : Nat)
  (k.1, if k.2 then -a else a)

/-- The terms of a sum over the denominators 4m and d. -/
def readSum (m d : Nat) (l : TrigSum) : List (Nat × Int) := l.map (readTerm m d)

/-- The factors of a sum of products over the denominators 4m and d. -/
def readQuad (m d : Nat) (q : TrigQuad) : List (List (Nat × Int) × List (Nat × Int)) :=
  q.map fun x => (readSum m d x.1, readSum m d x.2)

/-- The sum of the absolute values of the coefficients. -/
def sumWeight : List (Nat × Int) → Nat
  | [] => 0
  | x :: l => x.2.natAbs + sumWeight l

/-- The sum of the products of the factors' weights. -/
def quadWeight : List (List (Nat × Int) × List (Nat × Int)) → Nat
  | [] => 0
  | x :: v => sumWeight x.1 * sumWeight x.2 + quadWeight v

/-- The estimate of a sum with the cosines of a table. -/
def sumEstimate (tab : List Nat) : List (Nat × Int) → Int
  | [] => 0
  | x :: l => x.2 * (tab.getD x.1 0 : Nat) + sumEstimate tab l

/-- The estimate of a sum of products with the cosines of a table. -/
def quadEstimate (tab : List Nat) : List (List (Nat × Int) × List (Nat × Int)) → Int
  | [] => 0
  | x :: v => sumEstimate tab x.1 * sumEstimate tab x.2 + quadEstimate tab v

/-! ## The sign -/

/-- The sign where p bits of the cosines decide it, none where the estimate is within its error bound. -/
def signAtPrecision (m : Nat) (v : List (List (Nat × Int) × List (Nat × Int))) (p : Nat) : Option SignType :=
  let a := cosStepAbove m p
  let e := quadEstimate (chebyshevTable a (4 ^ p) (2 ^ p) m 1 a) v
  let err : Nat := 2 * quadWeight v * m ^ 2 * 2 ^ (p * (2 * m - 1))
  if (err : Int) < e then some .pos else if e < -(err : Int) then some .neg else none

/-- A number of bits at which a value that is not 0 shows its sign. -/
def separationPrecision (m w : Nat) : Nat :=
  Nat.log2 (16 * w * m ^ 2) + 1 + 2 * m * (Nat.log2 (4 * w) + 1)

/-- The sign of a sum of products, exact. -/
def TrigQuad.sign (q : TrigQuad) : SignType :=
  let m := TrigQuad.order q / 4
  let v := readQuad m (TrigQuad.den q) q
  (([32, 64, 128, 256] ++ [separationPrecision m (quadWeight v)]).findSome? (signAtPrecision m v)).getD .zero

/-- The sign of a sum, exact. -/
def TrigSum.sign (l : TrigSum) : SignType := TrigQuad.sign [(l, TrigSum.const 1)]

/-! ## Powers and angles -/

/-- The squared magnitude of a pair, exact and with no square root: `sn² + cs²` (42_correlator.md rule R173). -/
def power (sn cs : TrigSum) : TrigQuad := [(sn, sn), (cs, cs)]

/-- The sign of `q - t`. -/
def TrigQuad.compare (q : TrigQuad) (t : Rat) : SignType :=
  TrigQuad.sign ((TrigSum.const (-t), TrigSum.const 1) :: q)

/-- `r · sin (θ - 2π t)` for the point `sn = r cos θ`, `cs = r sin θ`. -/
def crossing (sn cs : TrigSum) (t : Rat) : TrigQuad :=
  [(cs, TrigSum.addCos [] t 1), (sn, TrigSum.addSin [] t (-1))]

/-- The sign of `θ - 2π t`, where θ in (-π, π] is `atan2 (cs, sn)`, the angle with `sn = r cos θ` and `cs = r sin θ`
(00_scope.md rule R11: the first argument of atan2 is the cosine accumulator). At the origin, where R11 defines no
angle and needs none, the answer means nothing: DEDUCED (log 9). -/
def argCompare (sn cs : TrigSum) (t : Rat) : SignType :=
  if 1/2 < t then .neg
  else if t ≤ -1/2 then .pos
  else if 0 < t then
    match TrigQuad.sign (crossing sn cs t) with
    | .neg => .neg
    | .zero =>
      if TrigSum.sign cs = .neg ∨ (t = 1/2 ∧ TrigSum.sign sn = .pos) then .neg else .zero
    | .pos => if TrigSum.sign cs = .neg then .neg else .pos
  else
    match TrigQuad.sign (crossing sn cs t) with
    | .pos => .pos
    | x =>
      if TrigSum.sign cs = .neg then x
      else if t = 0 ∧ TrigSum.sign sn = .pos then .zero else .pos

/-- From k on, how many more of the thresholds `(k + 1/2)/n` the angle reaches. -/
def halfStepsReached (n : Nat) (sn cs : TrigSum) : Nat → Nat → Nat
  | 0, k => k
  | fuel + 1, k =>
    if argCompare sn cs ((2 * k + 1 : Nat) / (2 * n : Nat)) ≠ .neg then halfStepsReached n sn cs fuel (k + 1) else k

/-- `round (atan2 (cs, sn) / (2π) · n)`, an exact half rounded away from zero (R10, R137): count the half-integers
that the scaled angle reaches, above zero or, with the angle mirrored, below. -/
def roundedPhase (n : Nat) (sn cs : TrigSum) : Int :=
  let up := halfStepsReached n sn cs ((n + 1) / 2) 0
  if 0 < up then up else -(halfStepsReached n sn (TrigSum.neg cs) ((n + 1) / 2) 0 : Int)

end Sys2Proof
end

