-- ==== Sys2Proof/Machine/State.lean ====
section
/-!
DEFINITION. The state of the core as plain data: the registers of 10_state.md rules R22 to R34, the two ports of
30_encoding.md rule R70 with the reset input of 70_reset_and_hazards.md rule R260, and two fields of the model's own
(the parameter NUMERICS and the counter of free values). The core has no memory (R50), no program counter (R36) and
no host-accessible register (R35).
-/

namespace Sys2Proof.Machine

/-- One pair of accumulators, `acc.sin[f]` and `acc.cos[f]`: exact reals (R29, R8). -/
structure Pair where
  sin : TrigSum
  cos : TrigSum
deriving DecidableEq, Repr

/-- The nine pairs, f = 1 to 9 (R29). -/
structure Pairs where
  p1 : Pair
  p2 : Pair
  p3 : Pair
  p4 : Pair
  p5 : Pair
  p6 : Pair
  p7 : Pair
  p8 : Pair
  p9 : Pair
deriving DecidableEq, Repr

/-- The accumulator register file: the index (R28) and the pairs (R29). -/
structure Accumulator where
  i : Count
  pairs : Pairs
deriving DecidableEq, Repr

/-- What the host side of the block does next, as the core meets it (R70, R244, R260, R265). DESIGN CHOICE (log 10 to
12, 23). -/
inductive HostInput where
  /-- The host offers a command word at the command port, until the core accepts it (R265). -/
  | command (w : Word)
  /-- The host takes the oldest response word at the response port (R70, R265). -/
  | take
  /-- The reset input is asserted; `cut` are the accepted commands it cuts off before their response was sent. -/
  | resetInput (cut : List Word)
  /-- No word moves: the host offers and takes none, or the core is still at work (R265, R267). -/
  | idle
deriving DecidableEq, Repr

/-- The state of the core. -/
structure State where
  /-- The decoder state register (R22). -/
  state : DecState
  /-- True means a positive-going first half-wave (R23). -/
  polarity : Bool
  /-- The running estimate of the DC level (R24). -/
  baseline : Sample
  /-- The running observed minimum (R25). -/
  signalMin : Sample
  /-- The running observed maximum (R26). -/
  signalMax : Sample
  /-- sample_count, N: the estimate of samples per symbol and the window length (R27). -/
  sampleCount : Count
  /-- The accumulator register file (R28, R29). -/
  acc : Accumulator
  /-- The phase correction of the most recently completed symbol (R30). -/
  phase : Phase
  /-- The previous symbol's phase (R31). -/
  phase2 : Phase
  /-- The phase from two symbols back (R32). -/
  phase3 : Phase
  /-- The skip counter (R33). -/
  skip : Count
  /-- The symbol word of the most recently completed symbol (R34). -/
  word : SymbolWord
  /-- The port side: what the host does from here on, first first (R70, R56). Not a register (log 10). -/
  inputs : List HostInput
  /-- The response port: the response words sent that the host has not taken, oldest first (R70, R210, R265). Not a
  register (log 10). -/
  responses : List Word
  /-- The port side: the response words that the host has taken, first first (R70, R265). Not a register (log 10). -/
  taken : List Word
  /-- The model's own: the parameter NUMERICS (R6, R8; DESIGN CHOICE, log 2). -/
  numerics : Config.Numerics
  /-- The model's own: how many free values have been drawn (DESIGN CHOICE, log 4). -/
  draws : Nat
deriving DecidableEq, Repr

/-- Why a step stops with a fault: never. The core raises no exception and never faults (R230). -/
inductive Fault where
deriving DecidableEq, Repr

/-- Why a step has no meaning. -/
inductive Refusal where
  /-- Raised by exec's arm of an instruction that has no meaning yet; safe. No arm raises it. -/
  | notModelled (mnemonic : String)
deriving DecidableEq, Repr

/-- A pair at zero. -/
def Pair.zero : Pair := { sin := [], cos := [] }

/-- All eighteen accumulators at zero. -/
def Pairs.zero : Pairs :=
  { p1 := .zero, p2 := .zero, p3 := .zero, p4 := .zero, p5 := .zero, p6 := .zero, p7 := .zero, p8 := .zero,
    p9 := .zero }

/-- The accumulator after reset: the index and all pairs zero (R28, R29). -/
def Accumulator.zero : Accumulator := { i := 0#16, pairs := .zero }

/-- The machine after reset: every register at the value of R44, the ports empty, exact numerics (the normative
reference, R8; log 2), no free value drawn (log 4). -/
def State.reset : State :=
  { state := .init
    polarity := false
    baseline := 0#11
    signalMin := 0#11
    signalMax := 0#11
    sampleCount := 0#16
    acc := .zero
    phase := 0#17
    phase2 := 0#17
    phase3 := 0#17
    skip := 0#16
    word := 0#9
    inputs := []
    responses := []
    taken := []
    numerics := .exact
    draws := 0 }

end Sys2Proof.Machine
end

