-- ==== Sys2Proof/Machine/Operands.lean ====
section
/-!
DEFINITION. Operand forms: how a rule's integers are read from registers and stored into them (00_scope.md rules R7 and
R12). All integer arithmetic is exact before the result is stored.
-/

namespace Sys2Proof.Machine

/-- The integer of a u11 value: `zext` (R7, R72). -/
def sampleInt (x : Sample) : Int := x.toNat

/-- An integer stored as u11. -/
def toSample (v : Int) : Sample := BitVec.ofInt 11 v

/-- The integer of a u16 value (R7). -/
def countInt (n : Count) : Int := n.toNat

/-- `sat_u16` (R12): the integer saturated to a u16. -/
def satU16 (v : Int) : Count := BitVec.ofInt 16 (min (max v 0) Config.countMax)

/-- `clamp_lo` (R12): at least 19. -/
def clampLo (v : Int) : Int := max v Config.minN

/-- An integer stored as s17 (R30). -/
def toPhase (v : Int) : Phase := BitVec.ofInt 17 v

/-- The larger of two samples. -/
def maxSample (a b : Sample) : Sample := if a.toNat ≤ b.toNat then b else a

/-- The smaller of two samples. -/
def minSample (a b : Sample) : Sample := if a.toNat ≤ b.toNat then a else b

/-- `trunc_div` (R9): the quotient rounded toward zero. -/
def truncDiv (a b : Int) : Int := Int.tdiv a b

/-- `floor_div` (R9): the quotient rounded toward −∞. -/
def floorDiv (a b : Int) : Int := Int.fdiv a b

/-- `round` of a rational (R10): the nearest integer, an exact half rounded away from zero. -/
def roundHalfAway (x : Rat) : Int := if 0 ≤ x then (x + 1/2).floor else -(-x + 1/2).floor

end Sys2Proof.Machine
end

