-- ==== Sys2Proof/Machine/Flags.lean ====
section
/-!
DEFINITION. The flags (10_state.md rule R37): polarity, and the sync bit of the symbol word. There are no condition
codes.
-/

namespace Sys2Proof.Machine

/-- The polarity that a difference commits (R103): positive-going when `diff > 0`. -/
def polarityOf (diff : Int) : Bool := decide (0 < diff)

/-- Whether a symbol word carries the sync bit, bit 8 (R37, R79). -/
def syncSet (w : SymbolWord) : Bool := decide (w &&& Config.syncBit ≠ 0#9)

/-- The data byte of a symbol word, `word & 0xFF` (R79, R140). -/
def dataByte (w : SymbolWord) : Byte := w.extractLsb' 0 8

end Sys2Proof.Machine
end

