-- ==== Sys2Proof/Machine/Ops.lean ====
section
/-!
DEFINITION. The named operations over the registers and the ports: reading and updating the accumulator file, sending a
response, drawing a free value, and the reset of all registers. The core takes no exception and returns from none
(60_exceptions.md rules R230 and R238), so no operation here does either.
-/

namespace Sys2Proof.Machine

/-- Read the pair of a frequency; index 0 is f = 1. -/
def Pairs.get (p : Pairs) : Fin 9 → Pair
  | 0 => p.p1
  | 1 => p.p2
  | 2 => p.p3
  | 3 => p.p4
  | 4 => p.p5
  | 5 => p.p6
  | 6 => p.p7
  | 7 => p.p8
  | 8 => p.p9

/-- `for f in 1..9`: update every pair by its frequency. -/
def Pairs.update (p : Pairs) (g : Nat → Pair → Pair) : Pairs :=
  { p1 := g 1 p.p1, p2 := g 2 p.p2, p3 := g 3 p.p3, p4 := g 4 p.p4, p5 := g 5 p.p5, p6 := g 6 p.p6, p7 := g 7 p.p7,
    p8 := g 8 p.p8, p9 := g 9 p.p9 }

/-- `respond` (R12): send the response word of a result (R75), after all earlier responses (R56, R210). -/
def State.respond (s : State) (r : Result) : State := { s with responses := s.responses ++ [responseWord r] }

/-- Whether the core accepts a command word (R265): it does while no response waits to be taken, and stops at a number of
untaken responses that the implementation fixes. DESIGN CHOICE (log 23). -/
def State.ready (s : State) : Bool :=
  match s.responses with
  | [] => true
  | _ :: more => decide (more.length < Config.commandBuffer)

/-- The host takes the oldest response word, where one is there (R70, R265). -/
def State.takeResponse (s : State) : State :=
  match s.responses with
  | [] => s
  | w :: more => { s with responses := more, taken := s.taken ++ [w] }

/-- A free value has been drawn. -/
def State.drawn (s : State) : State := { s with draws := s.draws + 1 }

/-- Reset of the registers (R44, R260): every register takes its reset value. The ports are no registers, and the
model's own fields stay: DEDUCED (log 17). -/
def State.resetRegisters (s : State) : State :=
  { State.reset with inputs := s.inputs, responses := s.responses, taken := s.taken, numerics := s.numerics, draws := s.draws }

end Sys2Proof.Machine
end

