-- ==== Sys2Proof/Machine/Conditioner.lean ====
section
/-!
DEFINITION. The signal conditioner (40_conditioner.md rules R100 to R111). Each operation follows the pseudocode of its
rule; `x` is the raw sample of the FEED.
-/

namespace Sys2Proof.Machine

/-- COND_INIT (R101). -/
def condInit (x : Sample) (s : State) : State :=
  { s with baseline := x, sampleCount := 0#16, state := .detectPolarity }

/-- COND_DIFF (R102): `diff <- s − baseline`. -/
def condDiff (x : Sample) (s : State) : Int := sampleInt x - sampleInt s.baseline

/-- The commit test of R103, strict: `abs(diff) > 64`. -/
def condCommits (diff : Int) : Bool := decide (Config.polThresh < (diff.natAbs : Int))

/-- COND_POLARITY_COMMIT (R103), up to the jump into the first-half handler. -/
def condPolarityCommit (diff : Int) (s : State) : State :=
  { s with polarity := polarityOf diff, signalMin := s.baseline, signalMax := s.baseline
           state := .detectWaveFirstHalf }

/-- COND_BASELINE_SMOOTH (R104). -/
def condBaselineSmooth (diff : Int) (s : State) : State :=
  { s with baseline := toSample (sampleInt s.baseline + truncDiv diff Config.smoothDiv) }

/-- COND_TRACK_EXTREMES (R106). -/
def condTrackExtremes (x : Sample) (s : State) : State :=
  { s with signalMax := maxSample s.signalMax x, signalMin := minSample s.signalMin x }

/-- COND_WIDEN (R107). -/
def condWiden (x : Sample) (s : State) : State :=
  { s with signalMax := maxSample s.signalMax x, signalMin := minSample s.signalMin x }

/-- The fraction that a free pair stands for: in [0, 1], and any rational there (R110, I3). -/
def freeFraction (p : Nat × Nat) : Rat := (p.1 : Rat) / ((p.1 + p.2 : Nat) : Rat)

/-- COND_NORMALIZE (R108), with the free value of R110 where the window has no dynamic range. The second part is the
state after the draw, if there was one. -/
def condNormalize (x : Sample) (s : State) : Rat × State :=
  if s.signalMax = s.signalMin then (freeFraction (Config.freeUnit s.draws), s.drawn)
  else
    (((sampleInt x - sampleInt s.signalMin : Int) : Rat) / ((sampleInt s.signalMax - sampleInt s.signalMin : Int) : Rat), s)

/-- COND_POLARITY_FIX (R109). -/
def condPolarityFix (polarity : Bool) (fsample : Rat) : Rat := if polarity then fsample else 1 - fsample

end Sys2Proof.Machine
end

