-- ==== Sys2Proof/Machine/Phase.lean ====
section
/-!
DEFINITION. The phase of a completed symbol (41_synchronizer.md rules R137 and R138), read from the pair of f = 1.
-/

namespace Sys2Proof.Machine

/-- Whether a finite number format with the bound `e` on the scaled angle y = φ·n may answer the phase v (93 entry I1).
(b) y is within the bound of a half-integer beside v, or rounds to v: v - 1/2 - e ≤ y ≤ v + 1/2 + e. (c) y is within the
bound of n/2, and the angle answered lies beyond it, so that it starts again above -n/2 and is rounded from there: v + n
then stands for v; and the mirror image at -n/2. DESIGN CHOICE (log 3). -/
def phaseWithin (e : Rat) (n : Nat) (sn cs : TrigSum) (v : Int) : Bool :=
  (argCompare sn cs ((v - 1/2 - e) / n) ≠ .neg ∧ argCompare sn cs ((v + 1/2 + e) / n) ≠ .pos)
    ∨ (argCompare sn cs ((n/2 - e) / n) ≠ .neg ∧ argCompare sn cs ((v + n - 1/2 - e) / n) ≠ .neg)
    ∨ (argCompare sn cs ((-(n/2) + e) / n) ≠ .pos ∧ argCompare sn cs ((v - n + 1/2 + e) / n) ≠ .pos)

/-- The phases that a finite number format may answer where the exact phase is k: k itself and every phase within the
bound (93 entry I1). They lie at most one more than the bound away from k or, past ±π, from the other end of the window,
and none lies beyond the rounded half window (R137). DESIGN CHOICE (log 3). -/
def phaseCandidates (b : Config.ErrorBound) (n : Nat) (sn cs : TrigSum) (k : Int) : List Int :=
  let e := |b.phase|
  let h : Int := ((n + 1) / 2 : Nat)
  let reach := min (e.floor.toNat + 1) (n + 1)
  ((List.range (reach + 1)).flatMap fun (d : Nat) => [k + d, k - d, h - d, d - h]).filter
    fun v => decide (|v| ≤ h) && (decide (v = k) || phaseWithin e n sn cs v)

/-- A free phase of at most half the window, for an accumulator pair at the origin, which has no angle (R11).
DESIGN CHOICE (log 3). -/
def freePhase (draw n : Nat) : Int :=
  let h : Int := ((n + 1) / 2 : Nat)
  (Config.freeChoice draw % (2 * ((n + 1) / 2) + 1) : Nat) - h

/-- `round(phi × N0)` with `phi = atan2(acc.cos[1], acc.sin[1]) / (2π)` (R137): the exact one, or the free choice
among a finite format's candidates. With exact numerics the pair is not at the origin where the phase is used (R11). -/
def measuredPhase (nm : Config.Numerics) (draw n : Nat) (p : Pair) : Int :=
  match nm with
  | .exact => roundedPhase n p.sin p.cos
  | .bounded b =>
    if p.sin.sign = .zero ∧ p.cos.sign = .zero then freePhase draw n
    else
      let k := roundedPhase n p.sin p.cos
      let l := phaseCandidates b n p.sin p.cos k
      l.getD (Config.freeChoice draw % l.length) k

/-- PHASE_MEASURE (R137): N0 is the window length of the completed symbol. -/
def phaseMeasure (s : State) : State :=
  { s with phase := toPhase (measuredPhase s.numerics s.draws s.sampleCount.toNat s.acc.pairs.p1) }

/-- PHASE_SYNC_GATE (R138): a symbol without the sync bit has phase 0. -/
def phaseSyncGate (s : State) : State := { s with phase := if syncSet s.word then s.phase else 0#17 }

end Sys2Proof.Machine
end

