-- ==== Sys2Proof/Machine/Correlator.lean ====
section
/-!
DEFINITION. The sparse 9-point DFT correlator (42_correlator.md rules R170 to R181). It evaluates nine bins over a block
window of sample_count samples.
-/

namespace Sys2Proof.Machine

/-- One lane of ADD_SAMPLE (R171): the pair of f gains `sin(2π·f·i/N)·x·25/N` and `cos(2π·f·i/N)·x·25/N`. -/
def accumulate (n i : Nat) (x : Rat) (f : Nat) (p : Pair) : Pair :=
  { sin := TrigSum.addSin p.sin ((f * i : Nat) / (n : Nat)) (x * Config.accScale / n)
    cos := TrigSum.addCos p.cos ((f * i : Nat) / (n : Nat)) (x * Config.accScale / n) }

/-- The lane where N is 0 and the formula of R171 has no value: the increments are free. No run from reset comes here
(R40). DESIGN CHOICE (log 6). -/
def accumulateFree (draw f : Nat) (p : Pair) : Pair :=
  { sin := TrigSum.addCos p.sin 0 (Config.freeIncrement draw f).1
    cos := TrigSum.addCos p.cos 0 (Config.freeIncrement draw f).2 }

/-- ADD_SAMPLE (R171): the nine lanes at the pre-increment index, then the increment. An index that R39 excludes wraps at
its 16 bits: DESIGN CHOICE (log 7). -/
def addSample (x : Rat) (s : State) : State :=
  if s.sampleCount = 0#16 then
    { s with acc := { i := s.acc.i + 1#16, pairs := s.acc.pairs.update (accumulateFree s.draws) }
             draws := s.draws + 1 }
  else
    { s with acc :=
        { i := s.acc.i + 1#16
          pairs := s.acc.pairs.update (accumulate s.sampleCount.toNat s.acc.i.toNat x) } }

/-- Ready after the increment (R172): `acc.i = N`. -/
def accReady (s : State) : Bool := decide (s.acc.i = s.sampleCount)

/-- Whether a power exceeds the threshold 0.25, strictly (R174). With a finite number format the answer is free within
the bound of the threshold (93 entry I1 (a)). -/
def bitPresent (nm : Config.Numerics) (free : Bool) (p : TrigQuad) : Bool :=
  match nm with
  | .exact => decide (p.compare Config.bitThresh = .pos)
  | .bounded b =>
    if p.compare (Config.bitThresh + |b.power|) = .pos then true
    else if p.compare (Config.bitThresh - |b.power|) = .neg then false
    else free

/-- TO_FREQUENCIES (R173): p_f of a frequency, index 0 is f = 1. -/
def toFrequencies (p : Pairs) (f : Fin 9) : TrigQuad := power (p.get f).sin (p.get f).cos

/-- WORD_FORM (R174): bit 9 − f is set when p_f is present. -/
def wordOf (nm : Config.Numerics) (draw : Nat) (p : Pairs) : SymbolWord :=
  ([0, 1, 2, 3, 4, 5, 6, 7, 8] : List (Fin 9)).foldl
    (fun w f =>
      if bitPresent nm (Config.freeBit draw (f.val + 1)) (toFrequencies p f) then w ||| (1#9 <<< (9 - (f.val + 1)))
      else w)
    0#9

/-- WORD_FORM into the register `word` (R174). -/
def wordForm (s : State) : State := { s with word := wordOf s.numerics s.draws s.acc.pairs }

/-- The free values of a completed symbol count as one draw; exact numerics draws none. DESIGN CHOICE (log 4). -/
def symbolDrawn (s : State) : State :=
  match s.numerics with
  | .exact => s
  | .bounded _ => s.drawn

/-- ACC_RESET (R175). -/
def accReset (s : State) : State := { s with acc := .zero }

/-- What DECODE_BYTE returns for a completed word (R176): the internal −1 for the all-zero word, else the low byte. -/
def byteResult (w : SymbolWord) : Result := if w = 0#9 then .eof else .data (dataByte w)

/-- DECODE_BYTE (R176). -/
def decodeByte (x : Rat) (s : State) : Result × State :=
  let s1 := addSample x s
  if accReady s1 then
    let s2 := accReset (symbolDrawn (phaseSyncGate (phaseMeasure (wordForm s1))))
    (byteResult s2.word, s2)
  else (.noData, s1)

end Sys2Proof.Machine
end

