-- ==== Sys2Proof/Machine/Synchronizer.lean ====
section
/-!
DEFINITION. The symbol clock and synchronizer (41_synchronizer.md rules R130 to R150). Each operation follows the
pseudocode of its rule; a rule with several steps composes the operations in the order the spec gives.
-/

namespace Sys2Proof.Machine

/-- SEED_COUNT (R131). -/
def seedCount (s : State) : State := { s with sampleCount := satU16 (countInt s.sampleCount + 1) }

/-- FIRST_HALF_EXIT (R132), on the extremes before this FEED's update. -/
def firstHalfExit (x : Sample) (s : State) : Bool :=
  let range := sampleInt s.signalMax - sampleInt s.signalMin
  let dist := if s.polarity then sampleInt s.signalMax - sampleInt x else sampleInt x - sampleInt s.signalMin
  decide (range < dist)

/-- SECOND_HALF_EXIT (R133), on the extremes before this FEED's update. -/
def secondHalfExit (x : Sample) (s : State) : Bool :=
  let mid := floorDiv (sampleInt s.signalMin + sampleInt s.signalMax) 2
  if s.polarity then decide (mid < sampleInt x) else decide (sampleInt x < mid)

/-- ENTER_CALIBRATE (R134). -/
def enterCalibrate (s : State) : State :=
  { s with sampleCount := satU16 (clampLo (countInt s.sampleCount)), acc := .zero, skip := 0#16
           state := .detectCalibrate }

/-- CAL_DECIDE (R139). -/
def calDecide (s : State) : Result × State :=
  if s.word = 0x000#9 then (.noData, { s with state := .init })
  else if s.word = Config.markerWord then (.noData, { s with state := .decodeData })
  else (.noData, s)

/-- DATA_DECIDE (R140). -/
def dataDecide (s : State) : Result × State :=
  if s.word = 0x000#9 then (.eof, { s with state := .eof }) else (.data (dataByte s.word), s)

/-- DRIFT_CHECK (R141): the three phases are nonzero and share a sign. -/
def driftCheck (s : State) : Bool :=
  decide (s.phase.toInt ≠ 0 ∧ s.phase2.toInt ≠ 0 ∧ s.phase3.toInt ≠ 0
    ∧ s.phase.toInt.sign = s.phase2.toInt.sign ∧ s.phase2.toInt.sign = s.phase3.toInt.sign)

/-- The bulk correction of R142: `round((phase + phase2 + phase3) / 3)`. -/
def driftMean (s : State) : Int :=
  roundHalfAway (((s.phase.toInt + s.phase2.toInt + s.phase3.toInt : Int) : Rat) / 3)

/-- DRIFT_CORRECT (R142). -/
def driftCorrect (s : State) : State :=
  { s with sampleCount := satU16 (clampLo (countInt s.sampleCount - driftMean s)) }

/-- DRIFT_SUPPRESS (R143). -/
def driftSuppress (s : State) : State := { s with phase2 := 0#17 }

/-- PHASE_SHIFT (R144). -/
def phaseShift (s : State) : State := { s with phase3 := s.phase2, phase2 := s.phase }

/-- The drift rule, step 3 of R136: R141 to R144. -/
def driftRule (s : State) : State := phaseShift (if driftCheck s then driftSuppress (driftCorrect s) else s)

/-- REALIGN_LATE (R145). -/
def realignLate (s : State) : State := { s with skip := BitVec.ofInt 16 (-s.phase.toInt) }

/-- REALIGN_EARLY (R146): the same fsample once more; its result is discarded. -/
def realignEarly (x : Rat) (s : State) : State := (decodeByte x s).2

/-- Re-alignment, step 4 of R136. -/
def realign (x : Rat) (s : State) : State :=
  if s.phase.toInt < 0 then realignLate s else if 0 < s.phase.toInt then realignEarly x s else s

/-- SYMBOL_DONE (R136), after DECODE_BYTE: decide, correct the drift, re-align. -/
def symbolDone (verdict : State → Result × State) (x : Rat) (s : State) : Result × State :=
  let d := verdict s
  (d.1, realign x (driftRule d.2))

/-- SKIP_GATE (R135). -/
def skipGate (verdict : State → Result × State) (x : Rat) (s : State) : Result × State :=
  if s.skip ≠ 0#16 then (.noData, { s with skip := s.skip - 1#16 })
  else
    let r := decodeByte x s
    match r.1 with
    | .noData => (.noData, r.2)
    | _ => symbolDone verdict x r.2

/-- The conditioner of a FEED in DetectCalibrate and DecodeData (R100, R107 to R109): fsample, and the state. -/
def conditioned (x : Sample) (s : State) : Rat × State :=
  let n := condNormalize x (condWiden x s)
  (condPolarityFix s.polarity n.1, n.2)

/-- The common body of H_CAL and H_DATA: the conditioner, then the gate (R205, R206). -/
def gatedFeed (verdict : State → Result × State) (x : Sample) (s : State) : Result × State :=
  let c := conditioned x s
  skipGate verdict c.1 c.2

/-- The body of H_FH (R203), also the tail of a committing H_POL (R105). -/
def firstHalfFeed (x : Sample) (s : State) : State :=
  let s' := seedCount (condTrackExtremes x s)
  if firstHalfExit x s then { s' with state := .detectWaveSecondHalf } else s'

/-- The body of H_SH (R204). -/
def secondHalfFeed (x : Sample) (s : State) : State :=
  let s' := seedCount (condTrackExtremes x s)
  if secondHalfExit x s then enterCalibrate s' else s'

/-- The body of H_POL (R202). -/
def polarityFeed (x : Sample) (s : State) : State :=
  let diff := condDiff x s
  if condCommits diff then firstHalfFeed x (condPolarityCommit diff s) else condBaselineSmooth diff s

end Sys2Proof.Machine
end

