-- ==== Sys2Proof/Machine/Feed.lean ====
section
/-!
DEFINITION. The meanings of the seven FEED rows (43_commands.md rules R200 to R207). A FEED is one atomic transaction
that ends with exactly one response (R200, R210). The dispatch key selects the handler (R78), so a handler does not
look at the state register.
-/

namespace Sys2Proof.Machine

/-- H_INIT (R201). -/
def execFeedInit (x : Sample) (s : State) : Host.Outcome State Fault Refusal := .next ((condInit x s).respond .noData)

/-- H_POL (R202). -/
def execFeedDetectPolarity (x : Sample) (s : State) : Host.Outcome State Fault Refusal :=
  .next ((polarityFeed x s).respond .noData)

/-- H_FH (R203). -/
def execFeedDetectWaveFirstHalf (x : Sample) (s : State) : Host.Outcome State Fault Refusal :=
  .next ((firstHalfFeed x s).respond .noData)

/-- H_SH (R204). -/
def execFeedDetectWaveSecondHalf (x : Sample) (s : State) : Host.Outcome State Fault Refusal :=
  .next ((secondHalfFeed x s).respond .noData)

/-- H_CAL (R205): the response is NODATA whatever the gate answers (R139). -/
def execFeedDetectCalibrate (x : Sample) (s : State) : Host.Outcome State Fault Refusal :=
  .next ((gatedFeed calDecide x s).2.respond .noData)

/-- H_DATA (R206): the response is NODATA, or what DATA_DECIDE gave at a boundary. -/
def execFeedDecodeData (x : Sample) (s : State) : Host.Outcome State Fault Refusal :=
  let r := gatedFeed dataDecide x s
  .next (r.2.respond r.1)

/-- H_EOF (R207): no register is written and the sample is not looked at. -/
def execFeedEof (_x : Sample) (s : State) : Host.Outcome State Fault Refusal := .next (s.respond .eof)

end Sys2Proof.Machine
end

