-- ==== Sys2Proof/Machine/Commands.lean ====
section
/-!
DEFINITION. The other commands: RESET (43_commands.md rule R208), a reserved command word (rule R209), the reset input
(70_reset_and_hazards.md rule R260), and which of the host's acts a step takes.
-/

namespace Sys2Proof.Machine

/-- RESET (R208): every register takes its reset value, then the response NODATA. -/
def execReset (s : State) : Host.Outcome State Fault Refusal := .next (s.resetRegisters.respond .noData)

/-- A reserved command word (R209): no register is written, then the response NODATA, in Eof too. -/
def execReserved (s : State) : Host.Outcome State Fault Refusal := .next (s.respond .noData)

/-- The reset input (R260): every register takes its reset value. It produces no response, and the commands it cuts off
have no effect and no response. DESIGN CHOICE (log 12). -/
def execResetInput (_cut : List Word) (s : State) : Host.Outcome State Fault Refusal := .next s.resetRegisters

/-- What a command word is in the state it finds the core in (R78). -/
def commandAt (s : State) (w : Word) : Decoded := decodeKey (dispatchKey s.state w)

/-- What the host side does next, and what is left for later: the first of its list while the core accepts commands. While
it does not, the command words wait at the command port, in their order, and the host's next act at another port goes
ahead of them (R70, R265). None where nothing can happen: the core has stopped accepting commands. DESIGN CHOICE (log
23). -/
def nextInput (ready : Bool) : List HostInput → Option (HostInput × List HostInput)
  | [] => none
  | .command w :: rest =>
    if ready then some (.command w, rest)
    else (nextInput ready rest).map fun p => (p.1, .command w :: p.2)
  | .take :: rest => some (.take, rest)
  | .resetInput cut :: rest => some (.resetInput cut, rest)
  | .idle :: rest => some (.idle, rest)

/-- Place a table row's word where the next step takes it: the command word first at the command port, the responses
before it taken, so that the core accepts it, and for a FEED the core in the state that the row's key names (R78). RESET
ignores the state, and a reserved word does too. DESIGN CHOICE (log 14). -/
def placeWord (s : State) (w : Nat) : State :=
  let k := BitVec.ofNat 19 w
  let d := match decodeKey k with
    | .instr i => i.state.getD s.state
    | .reserved _ => s.state
  { s with
    state := d, inputs := .command (keyCommand k) :: s.inputs
    responses := [], taken := s.taken ++ s.responses }

end Sys2Proof.Machine
end

