-- ==== Sys2Proof/Machine/Dispatch.lean ====
section
/-! DEFINITION. The dispatch (43_commands.md rule R200): one arm per row of the opcode table. -/

namespace Sys2Proof.Machine

def exec (i : Instr) (s : State) : Host.Outcome State Fault Refusal :=
  match i with
  | .feedInit x => Sys2Proof.Machine.execFeedInit x s
  | .feedDetectPolarity x => Sys2Proof.Machine.execFeedDetectPolarity x s
  | .feedDetectWaveFirstHalf x => Sys2Proof.Machine.execFeedDetectWaveFirstHalf x s
  | .feedDetectWaveSecondHalf x => Sys2Proof.Machine.execFeedDetectWaveSecondHalf x s
  | .feedDetectCalibrate x => Sys2Proof.Machine.execFeedDetectCalibrate x s
  | .feedDecodeData x => Sys2Proof.Machine.execFeedDecodeData x s
  | .feedEof x => Sys2Proof.Machine.execFeedEof x s
  | .reset => Sys2Proof.Machine.execReset s

end Sys2Proof.Machine
end

