-- ==== Sys2Proof/Machine/Step.lean ====
section
/-!
DEFINITION. One step of the block: take what the host side does next and process it whole (20_memory.md rules R54 and
R56, 70_reset_and_hazards.md rules R265 and R267). With nothing to take, the core waits and keeps all state (R244).
-/

namespace Sys2Proof.Machine

/-- One step: an accepted command word is decoded in the state it finds the core in and runs whole (R200); a reserved word
is a no-op (R209); the host takes a response (R265); the reset input resets (R260); with nothing that can happen the core
waits (R244, R265). -/
def step (s : State) : Host.Outcome State Fault Refusal :=
  match nextInput s.ready s.inputs with
  | none => .next s
  | some (.idle, rest) => .next { s with inputs := rest }
  | some (.take, rest) => .next (State.takeResponse { s with inputs := rest })
  | some (.resetInput cut, rest) => execResetInput cut { s with inputs := rest }
  | some (.command w, rest) =>
    match commandAt s w with
    | .instr i => exec i { s with inputs := rest }
    | .reserved _ => execReserved { s with inputs := rest }

/-- The state with a table row's word where the next step takes it. -/
def State.withFetchWord (s : State) (_nbits w : Nat) : State := placeWord s w

end Sys2Proof.Machine
end

