-- ==== Sys2Proof/Safety/Value.lean ====
section
/-!
DEFINITION. The real numbers that the model's exact data stands for, for the use of claims (00_scope.md rules R8 to
R11). The machine itself never evaluates these: it decides with the functions of Machine/Exact.lean.
-/

namespace Sys2Proof

/-- The real number a term stands for. -/
noncomputable def TrigTerm.value (x : TrigTerm) : ℝ := x.coef * Real.cos (2 * Real.pi * x.turn)

/-- The real number a sum stands for. -/
noncomputable def TrigSum.value : TrigSum → ℝ
  | [] => 0
  | x :: l => x.value + TrigSum.value l

/-- The real number a sum of products stands for. -/
noncomputable def TrigQuad.value : TrigQuad → ℝ
  | [] => 0
  | x :: q => TrigSum.value x.1 * TrigSum.value x.2 + TrigQuad.value q

/-- `round` (R10): the nearest integer, an exact half rounded away from zero. -/
noncomputable def roundReal (x : ℝ) : ℤ := if 0 ≤ x then ⌊x + 1/2⌋ else -⌊-x + 1/2⌋

/-- `atan2 (y, x)` (R11): the angle in (-π, π] of the point (x, y). -/
noncomputable def atan2 (y x : ℝ) : ℝ := Complex.arg ⟨x, y⟩

end Sys2Proof
end

