-- ==== Sys2Proof/Safety.lean ====
section
/-!
DEFINITION. The terms that claims use: the invariant of 10_state.md rules R39 to R42 and what the other rules add to it,
runs of the machine, and the quantities that a FEED computes in rules R107 to R109, R137, R171 and R173, written here
with the plain arithmetic of the integers, the rationals and the reals.
-/

namespace Sys2Proof.Machine

/-! ## The invariant -/

/-- The states whose FEEDs the skip gate and the correlator see: DetectCalibrate and DecodeData. -/
def State.calibrated (s : State) : Prop := s.state = .detectCalibrate ∨ s.state = .decodeData

/-- The states after the polarity commit in which the extremes are live. -/
def State.committed (s : State) : Prop :=
  s.state = .detectWaveFirstHalf ∨ s.state = .detectWaveSecondHalf ∨ s.calibrated

/-- The invariant that every command keeps, between commands. -/
structure State.Inv (s : State) : Prop where
  /-- R39: the accumulator index. -/
  index : s.calibrated → s.acc.i.toNat < s.sampleCount.toNat
  /-- R39 and 90_conflicts.md entry C1, with R175: outside the calibrated states the accumulator is at zero. -/
  rest : ¬ s.calibrated → s.acc = .zero
  /-- R40: the period floor. -/
  floor : s.calibrated → 19 ≤ s.sampleCount.toNat
  /-- R41: the extremes. -/
  extremes : s.signalMin.toNat ≤ s.signalMax.toNat
  /-- R42: the range, from the polarity commit on. -/
  range : s.committed → s.signalMin.toNat + 65 ≤ s.signalMax.toNat
  /-- R135: samples are skipped only before the first sample of a window. -/
  skipping : s.skip ≠ 0#16 → s.acc = .zero
  /-- R137 and I10: a phase is at most half the longest period. -/
  phases : s.phase.toInt.natAbs ≤ 32768 ∧ s.phase2.toInt.natAbs ≤ 32768 ∧ s.phase3.toInt.natAbs ≤ 32768
  /-- I10: the skip counter is at most half the longest period. -/
  skipBound : s.skip.toNat ≤ 32768
  /-- R138: a symbol without the sync bit leaves the phase 0. -/
  syncless : s.word &&& Config.syncBit = 0#9 → s.phase = 0#17
  /-- R101 and R131: the seed count starts at 0. -/
  seed : s.state = .detectPolarity → s.sampleCount = 0#16
  /-- R140: the terminator was the all-zero word. -/
  terminal : s.state = .eof → s.word = 0#9

/-! ## Runs -/

/-- The machine after reset with what the host does from there on (R56, R263). -/
def State.start (nm : Config.Numerics) (host : List HostInput) : State :=
  { State.reset with numerics := nm, inputs := host }

/-- The command words that the host has still to get accepted, in their order. -/
def commandWords : List HostInput → List Word
  | [] => []
  | .command w :: l => w :: commandWords l
  | .take :: l => commandWords l
  | .resetInput _ :: l => commandWords l
  | .idle :: l => commandWords l

/-- The responses sent so far, first first: those taken and those still at the response port. -/
def State.sent (s : State) : List Word := s.taken ++ s.responses

/-- A host that takes each response before it offers the next command word. -/
def takingEach (ws : List Word) : List HostInput := ws.flatMap fun w => [.command w, .take]

/-- `k` steps. -/
def steps : Nat → State → Host.Outcome State Fault Refusal
  | 0, s => .next s
  | k + 1, s =>
    match step s with
    | .next t => steps k t
    | .fault f => .fault f
    | .refused r => .refused r

/-- ADD_SAMPLE over a list of samples in order. -/
def addSamples (xs : List Rat) (s : State) : State := xs.foldl (fun t x => addSample x t) s

/-! ## What a FEED in a calibrated state computes -/

/-- signal_min after a FEED of `x` widened it (R107). -/
def widenedMin (x : Sample) (s : State) : Nat := min s.signalMin.toNat x.toNat

/-- signal_max after a FEED of `x` widened it (R107). -/
def widenedMax (x : Sample) (s : State) : Nat := max s.signalMax.toNat x.toNat

/-- fsample of a FEED of `x` (R107 to R109). Where the widened extremes are equal it means nothing (R110). -/
def expectedFsample (x : Sample) (s : State) : Rat :=
  let q : Rat := ((x.toNat : Rat) - (widenedMin x s : Rat)) / ((widenedMax x s : Rat) - (widenedMin x s : Rat))
  if s.polarity then q else 1 - q

/-- A FEED that completes a symbol: it is not skipped and brings acc.i to sample_count (R172). -/
def State.boundary (s : State) : Prop := s.skip = 0#16 ∧ s.acc.i.toNat + 1 = s.sampleCount.toNat

/-- A FEED that is accumulated and does not complete a symbol. -/
def State.inside (s : State) : Prop := s.skip = 0#16 ∧ s.acc.i.toNat + 1 < s.sampleCount.toNat

/-- The turn 2π·f·i/N of the next sample (R171); index 0 is f = 1. -/
noncomputable def State.angle (s : State) (f : Fin 9) : ℝ :=
  2 * Real.pi * ((f.val + 1 : ℕ) : ℝ) * (s.acc.i.toNat : ℝ) / (s.sampleCount.toNat : ℝ)

/-- acc.sin of a frequency once the sample `y` has been added (R171). -/
noncomputable def State.sinAfter (s : State) (y : Rat) (f : Fin 9) : ℝ :=
  (s.acc.pairs.get f).sin.value + Real.sin (s.angle f) * (y : ℝ) * 25 / (s.sampleCount.toNat : ℝ)

/-- acc.cos of a frequency once the sample `y` has been added (R171). -/
noncomputable def State.cosAfter (s : State) (y : Rat) (f : Fin 9) : ℝ :=
  (s.acc.pairs.get f).cos.value + Real.cos (s.angle f) * (y : ℝ) * 25 / (s.sampleCount.toNat : ℝ)

/-- p_f once the sample `y` has been added (R173). -/
noncomputable def State.powerAfter (s : State) (y : Rat) (f : Fin 9) : ℝ :=
  s.sinAfter y f ^ 2 + s.cosAfter y f ^ 2

/-- φ · N0 once the sample `y` has been added (R137): atan2 takes the cosine accumulator first (R11). -/
noncomputable def State.scaledPhaseAfter (s : State) (y : Rat) : ℝ :=
  atan2 (s.cosAfter y 0) (s.sinAfter y 0) / (2 * Real.pi) * (s.sampleCount.toNat : ℝ)

/-- Three phases are nonzero and of one sign (R141). -/
def sameSign (a b c : Int) : Prop := (0 < a ∧ 0 < b ∧ 0 < c) ∨ (a < 0 ∧ b < 0 ∧ c < 0)

end Sys2Proof.Machine
end

