-- ==== Sys2Proof/Certificates/Slice0/Obligations.lean ====
section
/-!
DEFINITION. The statements for the provers. Each docstring names the rule of the spec that the statement formalises.
-/

section

open Sys2Proof Sys2Proof.Machine

/-! ## Reset and the invariant -/

/-- R44: the reset value of every register. -/
def Obligations.ResetLeavesStatedValues : Prop :=
  State.reset.state = .init ∧ State.reset.polarity = false ∧ State.reset.baseline = 0#11
    ∧ State.reset.signalMin = 0#11 ∧ State.reset.signalMax = 0#11 ∧ State.reset.sampleCount = 0#16
    ∧ State.reset.acc.i = 0#16
    ∧ (∀ f, (State.reset.acc.pairs.get f).sin.value = 0 ∧ (State.reset.acc.pairs.get f).cos.value = 0)
    ∧ State.reset.phase = 0#17 ∧ State.reset.phase2 = 0#17 ∧ State.reset.phase3 = 0#17
    ∧ State.reset.skip = 0#16 ∧ State.reset.word = 0#9

/-- The invariant holds after reset, whatever the host does from there on and whatever the number format. -/
def Obligations.InvariantHoldsAtReset : Prop :=
  ∀ (nm : Config.Numerics) (host : List HostInput), (State.start nm host).Inv

/-- Every step keeps the invariant, from every state that meets it. -/
def Obligations.EveryStepKeepsInvariant : Prop :=
  ∀ s t : State, s.Inv → step s = .next t → t.Inv

/-- R39 and R40: the accumulator index and the period floor on every run from reset, for every host. -/
def Obligations.RunsKeepIndexAndPeriod : Prop :=
  ∀ (nm : Config.Numerics) (host : List HostInput) (k : Nat) (t : State),
    steps k (State.start nm host) = .next t →
      (t.calibrated → t.acc.i.toNat < t.sampleCount.toNat ∧ 19 ≤ t.sampleCount.toNat)
      ∧ (¬ t.calibrated → t.acc.i = 0#16)

/-- R42, and the first sentence of R41: the extremes on every run from reset. In the calibrated states the zero range of
R110 does not arise, whatever sample comes next. -/
def Obligations.RunsKeepRange : Prop :=
  ∀ (nm : Config.Numerics) (host : List HostInput) (k : Nat) (t : State),
    steps k (State.start nm host) = .next t →
      t.signalMin.toNat ≤ t.signalMax.toNat
      ∧ (t.calibrated → 65 ≤ (t.signalMax.toNat : Int) - t.signalMin.toNat ∧ ∀ x, widenedMin x t < widenedMax x t)

/-- R41, second sentence: a FEED that does not commit a polarity never raises signal_min and never lowers
signal_max. -/
def Obligations.ExtremesNeverNarrow : Prop :=
  ∀ (i : Instr) (s t : State), exec i s = .next t → i ≠ .reset →
    (∀ x, i = .feedDetectPolarity x → ((x.toNat : Int) - s.baseline.toNat).natAbs ≤ 64) →
      t.signalMin.toNat ≤ s.signalMin.toNat ∧ s.signalMax.toNat ≤ t.signalMax.toNat

/-- R43 and R207: a FEED in Eof responds EOF and writes no register, and only a reset leaves Eof. -/
def Obligations.EofIsTerminal : Prop :=
  (∀ (s : State) (x : Sample), s.state = .eof →
      commandAt s (x.setWidth 16) = .instr (.feedEof x)
      ∧ exec (.feedEof x) s = .next { s with responses := s.responses ++ [0xFFFF#16] })
  ∧ ∀ s t : State, s.state = .eof → step s = .next t → t.state ≠ .eof →
      (s.ready = true ∧ ∃ rest, s.inputs = .command 0x4000#16 :: rest)
        ∨ (∃ cut rest, nextInput s.ready s.inputs = some (.resetInput cut, rest))

/-! ## Commands, dispatch, responses -/

/-- R72 and R73: in every state a word with bits 15:11 zero is FEED of its low 11 bits, and 0x4000 is RESET. Every other
word is reserved. -/
def Obligations.CommandWordsDecode : Prop :=
  ∀ (d : DecState) (w : Word),
    (w &&& 0xF800#16 = 0x0000#16 → decodeKey (dispatchKey d w) = .instr (feedIn d (w.setWidth 11)))
    ∧ (w = 0x4000#16 → decodeKey (dispatchKey d w) = .instr .reset)
    ∧ (w &&& 0xF800#16 ≠ 0x0000#16 → w ≠ 0x4000#16 → ∃ why, decodeKey (dispatchKey d w) = .reserved why)

/-- R74 and R209: the three reserved ranges are the words that are neither FEED nor RESET, and such a word, once accepted
(R265), writes no register and gets the response NODATA, in every state. -/
def Obligations.ReservedWordChangesNothing : Prop :=
  (∀ w : Word,
    (0x8000 ≤ w.toNat ∨ (0x0800 ≤ w.toNat ∧ w.toNat ≤ 0x3FFF) ∨ (0x4001 ≤ w.toNat ∧ w.toNat ≤ 0x7FFF))
      ↔ (w &&& 0xF800#16 ≠ 0x0000#16 ∧ w ≠ 0x4000#16))
  ∧ ∀ (s : State) (w : Word) (rest : List HostInput), s.ready = true → s.inputs = .command w :: rest →
      w &&& 0xF800#16 ≠ 0x0000#16 → w ≠ 0x4000#16 →
        step s = .next { s with inputs := rest, responses := s.responses ++ [0xFFFE#16] }

/-- The rows of the opcode table as masks and matches over the 19-bit key (R78). -/
def Obligations.KeysMatchTableRows : Prop :=
  ∀ k : Key,
    (k &&& 0x7F800#19 = 0x00000#19 ↔ decodeKey k = .instr (.feedInit (k.setWidth 11)))
    ∧ (k &&& 0x7F800#19 = 0x10000#19 ↔ decodeKey k = .instr (.feedDetectPolarity (k.setWidth 11)))
    ∧ (k &&& 0x7F800#19 = 0x20000#19 ↔ decodeKey k = .instr (.feedDetectWaveFirstHalf (k.setWidth 11)))
    ∧ (k &&& 0x7F800#19 = 0x30000#19 ↔ decodeKey k = .instr (.feedDetectWaveSecondHalf (k.setWidth 11)))
    ∧ (k &&& 0x7F800#19 = 0x40000#19 ↔ decodeKey k = .instr (.feedDetectCalibrate (k.setWidth 11)))
    ∧ (k &&& 0x7F800#19 = 0x50000#19 ↔ decodeKey k = .instr (.feedDecodeData (k.setWidth 11)))
    ∧ (k &&& 0x7F800#19 = 0x60000#19 ↔ decodeKey k = .instr (.feedEof (k.setWidth 11)))
    ∧ (k &&& 0x0FFFF#19 = 0x04000#19 ↔ decodeKey k = .instr .reset)

/-- Every instruction, with every sample and with every value of the state bits that RESET ignores, decodes from its own
key. -/
def Obligations.DecodeOfEncodeIsIdentity : Prop :=
  ∀ (i : Instr) (any : BitVec 3), decodeKey (encodeKeyWith any i) = .instr i

/-- A key that decodes to an instruction is that instruction's encoding: no bit of a command is dropped. -/
def Obligations.EncodeOfDecodeIsIdentity : Prop :=
  ∀ (k : Key) (i : Instr), decodeKey k = .instr i → encodeKeyWith (keyState k) i = k

/-- Words written out from 30_encoding.md and from the vectors CMD-1 to CMD-6 decode to the commands they stand for. -/
def Obligations.KnownWordsDecode : Prop :=
  decodeKey 0b000_0000_0001_1111_0100#19 = .instr (.feedInit 500#11)
  ∧ decodeKey 0b001_0000_0110_0000_0000#19 = .instr (.feedDetectPolarity 1536#11)
  ∧ decodeKey 0b101_0000_0000_0100_0001#19 = .instr (.feedDecodeData 65#11)
  ∧ decodeKey 0b110_0000_0010_0000_0000#19 = .instr (.feedEof 512#11)
  ∧ decodeKey 0b110_0100_0000_0000_0000#19 = .instr .reset
  ∧ decodeKey 0b100_1000_0000_0000_0000#19 = .reserved .command
  ∧ decodeKey 0b000_0000_1000_0000_0000#19 = .reserved .feedBits
  ∧ decodeKey 0b000_0100_0000_0000_0001#19 = .reserved .resetBits

/-- R75: the response words, and the host reads each code back from its word. -/
def Obligations.ResponseWordsAreReadBack : Prop :=
  responseWord .noData = 0xFFFE#16 ∧ responseWord .eof = 0xFFFF#16
  ∧ (∀ b : Byte, (responseWord (.data b)).toNat = b.toNat)
  ∧ ∀ r : Result, readResponse (responseWord r) = some r

/-- A step runs the decoded instruction: where the core accepts commands (R265), the command leaves the port, and step is
exec at the state it finds. -/
def Obligations.StepRunsDecodedCommand : Prop :=
  ∀ (s : State) (w : Word) (rest : List HostInput) (i : Instr),
    s.ready = true → s.inputs = .command w :: rest → decodeKey (s.state.code ++ w) = .instr i →
      step s = exec i { s with inputs := rest }

/-- A table row's key placed where the next step takes it runs as that row's instruction. -/
def Obligations.PlacedWordRuns : Prop :=
  ∀ (s : State) (i : Instr) (any : BitVec 3),
    step (s.withFetchWord 19 (encodeKeyWith any i).toNat) = exec i { s with
      state := i.state.getD s.state, responses := [], taken := s.taken ++ s.responses }

/-- R208: RESET puts every register into its reset value and responds NODATA, in every state. Log 17 says what it leaves
alone: the words still to come, the responses already sent (taken or not), the number format and the counter of draws. -/
def Obligations.ResetRestoresEveryRegister : Prop :=
  ∀ s : State, exec .reset s = .next { State.reset with
    inputs := s.inputs, responses := s.responses ++ [0xFFFE#16], taken := s.taken, numerics := s.numerics, draws := s.draws }

/-- R260, over the model's own event for the reset input (log 12): it puts every register into its reset value, responds
nothing, and the commands it cuts off leave no trace. -/
def Obligations.ResetInputRestoresEveryRegister : Prop :=
  ∀ (s : State) (cut : List Word) (rest : List HostInput), s.inputs = .resetInput cut :: rest →
    step s = .next { State.reset with
      inputs := rest, responses := s.responses, taken := s.taken, numerics := s.numerics, draws := s.draws }

/-- R244: between commands the core waits and keeps all state. -/
def Obligations.CoreWaitsBetweenCommands : Prop :=
  (∀ s : State, s.inputs = [] → step s = .next s)
  ∧ ∀ (s : State) (rest : List HostInput), s.inputs = .idle :: rest → step s = .next { s with inputs := rest }

/-- R230 and R210: every command completes with exactly one response, in every state; no command faults. The second
clause is about every word that the core accepts (R265). -/
def Obligations.EveryCommandCompletes : Prop :=
  (∀ (i : Instr) (s : State), ∃ (t : State) (r : Result),
      exec i s = .next t ∧ t.responses = s.responses ++ [responseWord r] ∧ t.taken = s.taken ∧ t.inputs = s.inputs)
  ∧ ∀ (s : State) (w : Word) (rest : List HostInput), s.ready = true → s.inputs = .command w :: rest →
      ∃ (t : State) (r : Result),
        step s = .next t ∧ t.responses = s.responses ++ [responseWord r] ∧ t.taken = s.taken ∧ t.inputs = rest

/-- R56, R70 and R265: on every run, whatever the host does, the words accepted are the first ones offered, each has one
response, and the responses are sent in that order; with a host that takes each response, k commands get k responses. -/
def Obligations.CommandsAndResponsesMatch : Prop :=
  (∀ (k : Nat) (s t : State), steps k s = .next t →
    ∃ (ws : List Word) (rs : List Result), commandWords s.inputs = ws ++ commandWords t.inputs
      ∧ rs.length = ws.length ∧ t.sent = s.sent ++ rs.map responseWord)
  ∧ ∀ (ws : List Word) (s : State) (rest : List HostInput), s.responses = [] → s.inputs = takingEach ws ++ rest →
      ∃ (t : State) (rs : List Result), steps (2 * ws.length) s = .next t ∧ t.inputs = rest ∧ t.responses = []
        ∧ rs.length = ws.length ∧ t.taken = s.taken ++ rs.map responseWord

/-- R265, over the model's form of the buffering (log 23): the core accepts commands exactly while at most its buffer's
count of responses waits to be taken. While it does not, no command is accepted and no response is sent, and with nothing
but commands from the host it waits. -/
def Obligations.CoreStopsWithoutRoom : Prop :=
  (∀ s : State, s.ready = true ↔ s.responses.length ≤ Config.commandBuffer)
  ∧ (∀ s t : State, s.ready = false → step s = .next t →
      commandWords t.inputs = commandWords s.inputs ∧ t.sent = s.sent)
  ∧ ∀ (s : State) (ws : List Word), s.ready = false → s.inputs = ws.map .command → step s = .next s

/-- R265: the host takes the oldest response, and while the core does not accept commands this goes ahead of the command
words that wait (log 23). A core whose responses have all been taken accepts commands. -/
def Obligations.TakingResponsesReopensPort : Prop :=
  (∀ (s : State) (ws : List Word) (rest : List HostInput) (w : Word) (more : List Word),
    s.ready = false → s.inputs = ws.map .command ++ .take :: rest → s.responses = w :: more →
      step s = .next { s with inputs := ws.map .command ++ rest, responses := more, taken := s.taken ++ [w] })
  ∧ (∀ (s : State) (rest : List HostInput), s.inputs = .take :: rest → s.responses = [] →
      step s = .next { s with inputs := rest })
  ∧ ∀ s : State, s.responses = [] → s.ready = true

/-- R265: the responses that the host has not taken never go beyond the buffer by more than one (log 23). -/
def Obligations.UntakenResponsesStayBounded : Prop :=
  ∀ s t : State, s.responses.length ≤ Config.commandBuffer + 1 → step s = .next t →
    t.responses.length ≤ Config.commandBuffer + 1

/-- After a RESET the responses do not depend on anything before it (R208, R242, R56): with exact numerics, two machines
in any two states whose responses have been taken send the same responses to a host that does the same, whatever it does
and for as long as it does it. -/
def Obligations.ResetForgetsThePast : Prop :=
  ∀ (s u : State) (host : List HostInput) (k : Nat), s.numerics = .exact → u.numerics = .exact →
    s.responses = [] → u.responses = [] →
    s.inputs = .command 0x4000#16 :: host → u.inputs = .command 0x4000#16 :: host →
      ∃ (s' u' : State) (rs : List Word), steps (k + 1) s = .next s' ∧ steps (k + 1) u = .next u'
        ∧ s'.sent = s.taken ++ rs ∧ u'.sent = u.taken ++ rs ∧ s'.inputs = u'.inputs

/-- The textual form (R81): a well-formed line gives its words, and an ill-formed one gives none. -/
def Obligations.LinesAssemble : Prop :=
  (∀ (n : Nat) (d : DecState), n ≤ 2047 →
      ∃ w, assemble (.feed n) = some [w] ∧ w.toNat = n
        ∧ decodeKey (dispatchKey d w) = .instr (feedIn d (BitVec.ofNat 11 n))
        ∧ ∀ k, assemble (.feedTimes n k) = some (List.replicate k w))
  ∧ assemble .reset = some [0x4000#16]
  ∧ (∀ n : Nat, n ≤ 65535 → ∃ w, assemble (.word n) = some [w] ∧ w.toNat = n)
  ∧ (∀ n k : Nat, 2047 < n → assemble (.feed n) = none ∧ assemble (.feedTimes n k) = none)
  ∧ ∀ n : Nat, 65535 < n → assemble (.word n) = none

/-! ## The state machine -/

/-- R130: the transition table, for a FEED in every state, with the conditions read on the extremes before the FEED and
on the word that a completed symbol leaves. -/
def Obligations.FeedFollowsTransitionTable : Prop :=
  ∀ (s t : State) (x : Sample) (rest : List HostInput), s.Inv → s.ready = true →
    s.inputs = .command (x.setWidth 16) :: rest → step s = .next t →
      t.state =
        match s.state with
        | .init => .detectPolarity
        | .detectPolarity =>
          if 64 < ((x.toNat : Int) - s.baseline.toNat).natAbs then .detectWaveFirstHalf else .detectPolarity
        | .detectWaveFirstHalf =>
          if (s.polarity = true ∧ x.toNat < s.signalMin.toNat) ∨ (s.polarity = false ∧ s.signalMax.toNat < x.toNat)
          then .detectWaveSecondHalf else .detectWaveFirstHalf
        | .detectWaveSecondHalf =>
          if (s.polarity = true ∧ (s.signalMin.toNat + s.signalMax.toNat) / 2 < x.toNat)
              ∨ (s.polarity = false ∧ x.toNat < (s.signalMin.toNat + s.signalMax.toNat) / 2)
          then .detectCalibrate else .detectWaveSecondHalf
        | .detectCalibrate =>
          if s.skip = 0#16 ∧ s.acc.i.toNat + 1 = s.sampleCount.toNat then
            (if t.word = 0x13E#9 then .decodeData else if t.word = 0x000#9 then .init else .detectCalibrate)
          else .detectCalibrate
        | .decodeData =>
          if s.skip = 0#16 ∧ s.acc.i.toNat + 1 = s.sampleCount.toNat ∧ t.word = 0x000#9 then .eof else .decodeData
        | .eof => .eof

/-- R101 and R201: FEED in Init takes the sample as the baseline. -/
def Obligations.FeedInInit : Prop :=
  ∀ (x : Sample) (s : State), exec (.feedInit x) s = .next { s with
    baseline := x, sampleCount := 0#16, state := .detectPolarity, responses := s.responses ++ [0xFFFE#16] }

/-- R104: FEED in DetectPolarity within the threshold smooths the baseline, with truncation toward zero, and the new
baseline lies between the old one and the sample. -/
def Obligations.FeedSmoothsBaseline : Prop :=
  ∀ (x : Sample) (s : State), ((x.toNat : Int) - s.baseline.toNat).natAbs ≤ 64 →
    ∃ t, exec (.feedDetectPolarity x) s = .next t
      ∧ (t.baseline.toNat : Int) = s.baseline.toNat + Int.tdiv ((x.toNat : Int) - s.baseline.toNat) 8
      ∧ min s.baseline.toNat x.toNat ≤ t.baseline.toNat ∧ t.baseline.toNat ≤ max s.baseline.toNat x.toNat
      ∧ t = { s with baseline := t.baseline, responses := s.responses ++ [0xFFFE#16] }

/-- R103 and R105: FEED in DetectPolarity beyond the threshold commits the polarity and falls through into the
first-half handler with the same sample, which moves one extreme to it, counts it, and never exits. -/
def Obligations.FeedCommitsPolarity : Prop :=
  ∀ (x : Sample) (s : State), 64 < ((x.toNat : Int) - s.baseline.toNat).natAbs →
    ∃ t, exec (.feedDetectPolarity x) s = .next t
      ∧ (t.polarity = true ↔ s.baseline.toNat < x.toNat)
      ∧ t.signalMin.toNat = min s.baseline.toNat x.toNat ∧ t.signalMax.toNat = max s.baseline.toNat x.toNat
      ∧ t.sampleCount.toNat = min (s.sampleCount.toNat + 1) 65535
      ∧ t = { s with
          polarity := t.polarity, signalMin := t.signalMin, signalMax := t.signalMax, sampleCount := t.sampleCount
          state := .detectWaveFirstHalf, responses := s.responses ++ [0xFFFE#16] }

/-- R203, with R106, R131 and R132: FEED in DetectWaveFirstHalf. -/
def Obligations.FeedInFirstHalf : Prop :=
  ∀ (x : Sample) (s : State),
    ∃ t, exec (.feedDetectWaveFirstHalf x) s = .next t
      ∧ t.signalMin.toNat = min s.signalMin.toNat x.toNat ∧ t.signalMax.toNat = max s.signalMax.toNat x.toNat
      ∧ t.sampleCount.toNat = min (s.sampleCount.toNat + 1) 65535
      ∧ t.state = (if (if s.polarity then
                          (s.signalMax.toNat : Int) - s.signalMin.toNat < (s.signalMax.toNat : Int) - x.toNat
                        else (s.signalMax.toNat : Int) - s.signalMin.toNat < (x.toNat : Int) - s.signalMin.toNat)
                    then .detectWaveSecondHalf else s.state)
      ∧ t = { s with
          signalMin := t.signalMin, signalMax := t.signalMax, sampleCount := t.sampleCount, state := t.state
          responses := s.responses ++ [0xFFFE#16] }

/-- R204, with R106, R131, R133 and R134: FEED in DetectWaveSecondHalf. -/
def Obligations.FeedInSecondHalf : Prop :=
  ∀ (x : Sample) (s : State),
    ∃ t, exec (.feedDetectWaveSecondHalf x) s = .next t
      ∧ t.signalMin.toNat = min s.signalMin.toNat x.toNat ∧ t.signalMax.toNat = max s.signalMax.toNat x.toNat
      ∧ (if (if s.polarity then (s.signalMin.toNat + s.signalMax.toNat) / 2 < x.toNat
              else x.toNat < (s.signalMin.toNat + s.signalMax.toNat) / 2)
          then t.state = .detectCalibrate ∧ t.sampleCount.toNat = max (min (s.sampleCount.toNat + 1) 65535) 19
            ∧ t.acc.i = 0#16 ∧ (∀ f, (t.acc.pairs.get f).sin.value = 0 ∧ (t.acc.pairs.get f).cos.value = 0)
            ∧ t.skip = 0#16
          else t.state = s.state ∧ t.sampleCount.toNat = min (s.sampleCount.toNat + 1) 65535
            ∧ t.acc = s.acc ∧ t.skip = s.skip)
      ∧ t = { s with
          signalMin := t.signalMin, signalMax := t.signalMax, sampleCount := t.sampleCount, state := t.state
          acc := t.acc, skip := t.skip, responses := s.responses ++ [0xFFFE#16] }

/-! ## The conditioner in the calibrated states -/

/-- R107, R108 and R109: the widened extremes, and fsample by the quotient and the polarity fix. -/
def Obligations.FsampleIsNormalized : Prop :=
  ∀ (x : Sample) (s : State), widenedMin x s < widenedMax x s →
    (conditioned x s).1 =
        (if s.polarity then
          ((x.toNat : Rat) - (min s.signalMin.toNat x.toNat : Nat))
            / ((max s.signalMax.toNat x.toNat : Nat) - (min s.signalMin.toNat x.toNat : Nat))
        else 1 - ((x.toNat : Rat) - (min s.signalMin.toNat x.toNat : Nat))
            / ((max s.signalMax.toNat x.toNat : Nat) - (min s.signalMin.toNat x.toNat : Nat)))
    ∧ (conditioned x s).2.signalMin.toNat = min s.signalMin.toNat x.toNat
    ∧ (conditioned x s).2.signalMax.toNat = max s.signalMax.toNat x.toNat
    ∧ (conditioned x s).2 = { s with
        signalMin := (conditioned x s).2.signalMin, signalMax := (conditioned x s).2.signalMax }

/-- fsample lies in [0, 1] for every sample and every state, in the zero range of R110 too, whatever the free value. -/
def Obligations.FsampleInUnitInterval : Prop :=
  ∀ (x : Sample) (s : State), 0 ≤ (conditioned x s).1 ∧ (conditioned x s).1 ≤ 1

/-! ## A FEED in DetectCalibrate or DecodeData -/

/-- R135: with skip > 0 the FEED widens the extremes, counts skip down and leaves the accumulator alone. -/
def Obligations.SkippedFeed : Prop :=
  ∀ (x : Sample) (s : State) (i : Instr), i = .feedDetectCalibrate x ∨ i = .feedDecodeData x → s.skip ≠ 0#16 →
    ∃ t, exec i s = .next t
      ∧ t.skip.toNat + 1 = s.skip.toNat
      ∧ t.signalMin.toNat = widenedMin x s ∧ t.signalMax.toNat = widenedMax x s
      ∧ (widenedMin x s < widenedMax x s → t.draws = s.draws)
      ∧ t = { s with
          signalMin := t.signalMin, signalMax := t.signalMax, skip := t.skip, draws := t.draws
          responses := s.responses ++ [0xFFFE#16] }

/-- R171: a FEED inside a window adds its fsample to the nine pairs, at the index before the increment, and responds
NODATA. -/
def Obligations.FeedAccumulatesSample : Prop :=
  ∀ (x : Sample) (s : State) (i : Instr), i = .feedDetectCalibrate x ∨ i = .feedDecodeData x →
    s.inside → widenedMin x s < widenedMax x s →
    ∃ t, exec i s = .next t
      ∧ t.acc.i.toNat = s.acc.i.toNat + 1
      ∧ (∀ f, (t.acc.pairs.get f).sin.value = s.sinAfter (expectedFsample x s) f
          ∧ (t.acc.pairs.get f).cos.value = s.cosAfter (expectedFsample x s) f)
      ∧ t.signalMin.toNat = widenedMin x s ∧ t.signalMax.toNat = widenedMax x s
      ∧ t = { s with
          signalMin := t.signalMin, signalMax := t.signalMax, acc := t.acc, responses := s.responses ++ [0xFFFE#16] }

/-- R173 and R174: with exact numerics a completed symbol has bit 9 − f exactly when p_f > 0.25, with p_f the sum of the
squares of the real accumulators. -/
def Obligations.CompletedWordIsExact : Prop :=
  ∀ (x : Sample) (s : State) (i : Instr), i = .feedDetectCalibrate x ∨ i = .feedDecodeData x →
    s.boundary → 19 ≤ s.sampleCount.toNat → widenedMin x s < widenedMax x s → s.numerics = .exact →
    ∃ t, exec i s = .next t
      ∧ ∀ f : Fin 9, t.word.getLsbD (9 - (f.val + 1)) = true ↔ (1 / 4 : ℝ) < s.powerAfter (expectedFsample x s) f

/-- R137 and R138: with exact numerics the phase of a completed symbol is round(atan2(cos, sin)/(2π)·N) of the pair of
f = 1, and 0 without the sync bit; it is at most half the window, rounded up. -/
def Obligations.CompletedPhaseIsExact : Prop :=
  ∀ (x : Sample) (s : State) (i : Instr), i = .feedDetectCalibrate x ∨ i = .feedDecodeData x →
    s.boundary → 19 ≤ s.sampleCount.toNat → widenedMin x s < widenedMax x s → s.numerics = .exact →
    ∃ t, exec i s = .next t
      ∧ t.phase.toInt =
          (if t.word &&& 0x100#9 = 0#9 then 0 else roundReal (s.scaledPhaseAfter (expectedFsample x s)))
      ∧ t.phase.toInt.natAbs ≤ (s.sampleCount.toNat + 1) / 2

/-- R139: what a completed symbol does in DetectCalibrate. -/
def Obligations.CalibrateDecidesByWord : Prop :=
  ∀ (x : Sample) (s : State), s.state = .detectCalibrate → s.boundary → 19 ≤ s.sampleCount.toNat →
    ∃ t, exec (.feedDetectCalibrate x) s = .next t
      ∧ t.state = (if t.word = 0x000#9 then .init else if t.word = 0x13E#9 then .decodeData else .detectCalibrate)
      ∧ t.responses = s.responses ++ [0xFFFE#16]
      ∧ t.signalMin.toNat = widenedMin x s ∧ t.signalMax.toNat = widenedMax x s
      ∧ t = { s with
          state := t.state, signalMin := t.signalMin, signalMax := t.signalMax, sampleCount := t.sampleCount
          acc := t.acc, phase := t.phase, phase2 := t.phase2, phase3 := t.phase3, skip := t.skip, word := t.word
          responses := t.responses, draws := t.draws }

/-- R140: what a completed symbol does in DecodeData. -/
def Obligations.DataDecidesByWord : Prop :=
  ∀ (x : Sample) (s : State), s.state = .decodeData → s.boundary → 19 ≤ s.sampleCount.toNat →
    ∃ t, exec (.feedDecodeData x) s = .next t
      ∧ t.state = (if t.word = 0x000#9 then .eof else .decodeData)
      ∧ t.responses = s.responses ++
          [if t.word = 0x000#9 then 0xFFFF#16 else (t.word &&& 0x0FF#9).setWidth 16]
      ∧ t.signalMin.toNat = widenedMin x s ∧ t.signalMax.toNat = widenedMax x s
      ∧ t = { s with
          state := t.state, signalMin := t.signalMin, signalMax := t.signalMax, sampleCount := t.sampleCount
          acc := t.acc, phase := t.phase, phase2 := t.phase2, phase3 := t.phase3, skip := t.skip, word := t.word
          responses := t.responses, draws := t.draws }

/-- R141 to R144: the drift rule at a completed symbol. -/
def Obligations.DriftRuleAtBoundary : Prop :=
  ∀ (x : Sample) (s : State) (i : Instr), i = .feedDetectCalibrate x ∨ i = .feedDecodeData x →
    s.boundary → 19 ≤ s.sampleCount.toNat →
    ∃ t, exec i s = .next t
      ∧ t.phase2 = t.phase
      ∧ (sameSign t.phase.toInt s.phase2.toInt s.phase3.toInt →
          t.phase3 = 0#17
          ∧ (t.sampleCount.toNat : Int) = min (max ((s.sampleCount.toNat : Int)
              - roundReal (((t.phase.toInt + s.phase2.toInt + s.phase3.toInt : Int) : ℝ) / 3)) 19) 65535)
      ∧ (¬ sameSign t.phase.toInt s.phase2.toInt s.phase3.toInt →
          t.phase3 = s.phase2 ∧ t.sampleCount = s.sampleCount)

/-- After a correction the next completed symbol cannot correct, and the one after it is checked against the phase that
triggered (the second half of R143). `u` is the state at which the next symbol completes: no FEED inside a window writes
the phase history. -/
def Obligations.CorrectionNeedsTwoMoreSymbols : Prop :=
  ∀ (x y : Sample) (i j : Instr) (s t u v : State),
    i = .feedDetectCalibrate x ∨ i = .feedDecodeData x → j = .feedDetectCalibrate y ∨ j = .feedDecodeData y →
    s.boundary → 19 ≤ s.sampleCount.toNat → exec i s = .next t →
    sameSign t.phase.toInt s.phase2.toInt s.phase3.toInt →
    u.boundary → 19 ≤ u.sampleCount.toNat → u.phase2 = t.phase2 → u.phase3 = t.phase3 → exec j u = .next v →
      v.sampleCount = u.sampleCount ∧ v.phase2 = v.phase ∧ v.phase3 = t.phase

/-- R145 and R146: the re-alignment at a completed symbol. A negative phase sets skip, a positive one feeds the same
fsample once more at index 0 with the corrected period, and the accumulator is otherwise left reset. -/
def Obligations.RealignAtBoundary : Prop :=
  ∀ (x : Sample) (s : State) (i : Instr), i = .feedDetectCalibrate x ∨ i = .feedDecodeData x →
    s.boundary → 19 ≤ s.sampleCount.toNat → widenedMin x s < widenedMax x s →
    ∃ t, exec i s = .next t
      ∧ (t.phase.toInt < 0 → (t.skip.toNat : Int) = -t.phase.toInt)
      ∧ (0 ≤ t.phase.toInt → t.skip = 0#16)
      ∧ (t.phase.toInt ≤ 0 → t.acc.i = 0#16
          ∧ ∀ f, (t.acc.pairs.get f).sin.value = 0 ∧ (t.acc.pairs.get f).cos.value = 0)
      ∧ (0 < t.phase.toInt → t.acc.i = 1#16
          ∧ ∀ f, (t.acc.pairs.get f).sin.value = 0
            ∧ (t.acc.pairs.get f).cos.value = (expectedFsample x s : ℝ) * 25 / (t.sampleCount.toNat : ℝ))

/-- A symbol without the sync bit, with any number format, has phase 0 and touches neither the period nor skip, and
starts the next window at index 0 (R138 with R141, R145 and R146). -/
def Obligations.SynclessSymbolLeavesClock : Prop :=
  ∀ (x : Sample) (s : State) (i : Instr), i = .feedDetectCalibrate x ∨ i = .feedDecodeData x →
    s.boundary → 19 ≤ s.sampleCount.toNat →
    ∃ t, exec i s = .next t
      ∧ (t.word &&& 0x100#9 = 0#9 →
          t.phase = 0#17 ∧ t.sampleCount = s.sampleCount ∧ t.skip = 0#16 ∧ t.acc.i = 0#16 ∧ t.phase2 = 0#17
          ∧ t.phase3 = s.phase2)

/-- R147: away from a boundary a FEED in a calibrated state changes neither the period nor the phases nor the word nor
the state, sets no skip and gets NODATA. -/
def Obligations.CorrectionsOnlyAtBoundaries : Prop :=
  ∀ (x : Sample) (s : State) (i : Instr), i = .feedDetectCalibrate x ∨ i = .feedDecodeData x →
    ¬ s.boundary → s.acc.i.toNat < s.sampleCount.toNat →
    ∃ t, exec i s = .next t
      ∧ t.sampleCount = s.sampleCount ∧ t.phase = s.phase ∧ t.phase2 = s.phase2 ∧ t.phase3 = s.phase3
      ∧ t.word = s.word ∧ t.state = s.state
      ∧ t.skip.toNat = s.skip.toNat - 1
      ∧ t.acc.i.toNat = (if s.skip = 0#16 then s.acc.i.toNat + 1 else s.acc.i.toNat)
      ∧ t.responses = s.responses ++ [0xFFFE#16]

/-! ## The correlator over a window -/

/-- The accumulators hold the partial sums of the transform: after samples x_0 to x_{k−1} the pair of f is
Σ sin(2πfi/N)·x_i·25/N and Σ cos(2πfi/N)·x_i·25/N (R171 over a window, R170). -/
def Obligations.WindowIsTransform : Prop :=
  ∀ (s : State) (xs : List Rat) (f : Fin 9), s.acc = .zero → 19 ≤ s.sampleCount.toNat →
    xs.length ≤ s.sampleCount.toNat →
      (addSamples xs s).acc.i.toNat = xs.length
      ∧ ((addSamples xs s).acc.pairs.get f).sin.value
          = ∑ k : Fin xs.length, Real.sin (2 * Real.pi * ((f.val + 1 : ℕ) : ℝ) * (k.val : ℝ) / (s.sampleCount.toNat : ℝ))
              * (xs[k] : ℝ) * 25 / (s.sampleCount.toNat : ℝ)
      ∧ ((addSamples xs s).acc.pairs.get f).cos.value
          = ∑ k : Fin xs.length, Real.cos (2 * Real.pi * ((f.val + 1 : ℕ) : ℝ) * (k.val : ℝ) / (s.sampleCount.toNat : ℝ))
              * (xs[k] : ℝ) * 25 / (s.sampleCount.toNat : ℝ)

/-- R181, last sentence: over a full window with exact arithmetic a constant fsample leaves every accumulator at 0, so the
word is 0x000. -/
def Obligations.ConstantWindowGivesZeroWord : Prop :=
  ∀ (s : State) (y : Rat), s.acc = .zero → 19 ≤ s.sampleCount.toNat → s.numerics = .exact →
    (∀ f, ((addSamples (List.replicate s.sampleCount.toNat y) s).acc.pairs.get f).sin.value = 0
      ∧ ((addSamples (List.replicate s.sampleCount.toNat y) s).acc.pairs.get f).cos.value = 0)
    ∧ (wordForm (addSamples (List.replicate s.sampleCount.toNat y) s)).word = 0x000#9

/-! ## Rounding and the number format -/

/-- R9: trunc_div rounds the quotient toward zero and floor_div toward −∞. -/
def Obligations.DivisionsRoundAsStated : Prop :=
  (∀ a b : Int, truncDiv a b = if 0 ≤ (a : Rat) / b then ⌊(a : Rat) / b⌋ else ⌈(a : Rat) / b⌉)
  ∧ (∀ a b : Int, 0 < b → floorDiv a b = ⌊(a : Rat) / b⌋)
  ∧ ∀ a b : Int, 0 ≤ a → 0 < b → truncDiv a b = floorDiv a b

/-- R10: round gives the nearest integer, an exact half goes away from zero, and the mean of three integers never
ties. -/
def Obligations.RoundIsNearestHalfAway : Prop :=
  (∀ x : Rat, |x - roundHalfAway x| ≤ 1 / 2 ∧ (|x - roundHalfAway x| = 1 / 2 → |x| < |(roundHalfAway x : Rat)|))
  ∧ ∀ n : Int, |(n : Rat) / 3 - roundHalfAway ((n : Rat) / 3)| < 1 / 2

/-- From a state that meets the invariant, with exact numerics, a step leaves the counter of draws (the model's own, log 4)
and the number format as they were. It says nothing of a free constant that is read without counting: commandBuffer (log
23) enters a step through State.ready. -/
def Obligations.ExactNumericsDrawsNothing : Prop :=
  ∀ s t : State, s.Inv → s.numerics = .exact → step s = .next t → t.draws = s.draws ∧ t.numerics = .exact

/-- 93 entry I1, last sentence, for the word: where every power is farther from 0.25 than the bound, a finite number
format forms the exact word. -/
def Obligations.BoundedWordAgreesAwayFromThreshold : Prop :=
  ∀ (b : Config.ErrorBound) (d d' : Nat) (p : Pairs),
    (∀ f, |(b.power : ℝ)| < |(p.get f).sin.value ^ 2 + (p.get f).cos.value ^ 2 - 1 / 4|) →
      wordOf (.bounded b) d p = wordOf .exact d' p

/-- 93 entry I1 (b) and (c): the phases that a finite number format may answer are, within the rounded half window of
R137, the exact one, both neighbours of every half-integer within the bound of the scaled angle, and, where the scaled
angle is within the bound of ±N/2, those of a scaled angle that went on at the other end. Log 3 says how far. -/
def Obligations.BoundedPhaseIsAnyWithinBound : Prop :=
  ∀ (b : Config.ErrorBound) (n : Nat) (p : Pair), 1 ≤ n → (p.sin.value ≠ 0 ∨ p.cos.value ≠ 0) →
    ∀ y : ℝ, y = atan2 p.cos.value p.sin.value / (2 * Real.pi) * n →
      (∀ v : Int, v ∈ phaseCandidates b n p.sin p.cos (roundedPhase n p.sin p.cos) ↔
        v.natAbs ≤ (n + 1) / 2
          ∧ (v = roundReal y
            ∨ (∃ m : Int, |y - (m + 1 / 2)| ≤ |(b.phase : ℝ)| ∧ (v = m ∨ v = m + 1))
            ∨ ((n : ℝ) / 2 - y ≤ |(b.phase : ℝ)| ∧ (v : ℝ) ≤ y - n + |(b.phase : ℝ)| + 1 / 2)
            ∨ (y + (n : ℝ) / 2 ≤ |(b.phase : ℝ)| ∧ y + n - |(b.phase : ℝ)| - 1 / 2 ≤ (v : ℝ))))
      ∧ ∀ d : Nat, measuredPhase (.bounded b) d n p ∈ phaseCandidates b n p.sin p.cos (roundedPhase n p.sin p.cos)

/-- 93 entry I1, last sentence, for the phase: where φ·N is farther than the bound from every half-integer, and from
±N/2, a finite number format measures the exact phase. -/
def Obligations.BoundedPhaseAgreesAwayFromTies : Prop :=
  ∀ (b : Config.ErrorBound) (d d' n : Nat) (p : Pair), 1 ≤ n → (p.sin.value ≠ 0 ∨ p.cos.value ≠ 0) →
    (∀ k : Int, |(b.phase : ℝ)| < |atan2 p.cos.value p.sin.value / (2 * Real.pi) * n - (k + 1 / 2)|) →
    |(b.phase : ℝ)| < n / 2 - |atan2 p.cos.value p.sin.value / (2 * Real.pi) * n| →
      measuredPhase (.bounded b) d n p = measuredPhase .exact d' n p

end
end

