-- ==== Sys2Proof/Laws/Chebyshev.lean ====
section
/-!
SUPPORT. The Chebyshev estimate of the cosines: the dyadic point found by `cosStepAbove` lies just above
`cos (2π/(4m))`, and the table read at that point is within `m² / 2^p` of every cosine `cos (2πk/(4m))`.
-/

namespace Sys2Proof

open Real

theorem cos_step (φ : ℝ) (j : ℕ) :
    Real.cos ((j + 2 : ℕ) * φ) = 2 * Real.cos φ * Real.cos ((j + 1 : ℕ) * φ) - Real.cos (j * φ) := by
  have h1 : ((j + 2 : ℕ) : ℝ) * φ = (j + 1 : ℕ) * φ + φ := by push_cast; ring
  have h2 : (j : ℝ) * φ = (j + 1 : ℕ) * φ - φ := by push_cast; ring
  rw [h1, h2, Real.cos_add, Real.cos_sub]; ring

/-- The integer recurrence computes `q^j · cos (jφ)` at the point `cos φ = a/q`. -/
theorem chebyshev_next {a q j prev cur : ℕ} {φ : ℝ} (hq : 0 < q) (hx : Real.cos φ = a / q)
    (hp : (prev : ℝ) = q ^ j * Real.cos (j * φ)) (hc : (cur : ℝ) = q ^ (j + 1) * Real.cos ((j + 1 : ℕ) * φ)) :
    2 * (a : ℝ) * cur - q ^ 2 * prev = q ^ (j + 2) * Real.cos ((j + 2 : ℕ) * φ) := by
  have hq' : (q : ℝ) ≠ 0 := by positivity
  have ha : (a : ℝ) = q * Real.cos φ := by rw [hx]; field_simp
  rw [cos_step, hp, hc, ha]; ring

theorem chebyshev_sub {a q prev cur : ℕ} {y : ℝ} (h : q ^ 2 * prev < 2 * a * cur)
    (hn : 2 * (a : ℝ) * cur - q ^ 2 * prev = y) : ((2 * a * cur - q ^ 2 * prev : ℕ) : ℝ) = y := by
  rw [Nat.cast_sub h.le, ← hn]; push_cast; rfl

/-- The positivity test is right: it holds when the next m cosines are positive. -/
theorem chebyshevAllPositive_iff {a q : ℕ} {φ : ℝ} (hq : 0 < q) (hx : Real.cos φ = a / q) :
    ∀ (m j prev cur : ℕ), (prev : ℝ) = q ^ j * Real.cos (j * φ) →
      (cur : ℝ) = q ^ (j + 1) * Real.cos ((j + 1 : ℕ) * φ) →
      (chebyshevAllPositive a (q ^ 2) m prev cur = true ↔
        ∀ i, j + 2 ≤ i → i ≤ j + 1 + m → 0 < Real.cos (i * φ)) := by
  intro m
  induction m with
  | zero =>
    intro j prev cur _ _
    simp only [chebyshevAllPositive, true_iff]
    intro i h1 h2; omega
  | succ m ih =>
    intro j prev cur hp hc
    have hn := chebyshev_next hq hx hp hc
    have hqp : (0 : ℝ) < q ^ (j + 2) := by positivity
    simp only [chebyshevAllPositive, Bool.and_eq_true, decide_eq_true_eq]
    have hlt : q ^ 2 * prev < 2 * a * cur ↔ 0 < Real.cos ((j + 2 : ℕ) * φ) := by
      rw [← mul_pos_iff_of_pos_left hqp, ← hn, sub_pos]
      exact_mod_cast Iff.rfl
    constructor
    · rintro ⟨h1, h2⟩ i hi1 hi2
      rcases Nat.lt_or_ge (j + 2) i with h | h
      · have hcur : ((2 * a * cur - q ^ 2 * prev : ℕ) : ℝ) = q ^ (j + 1 + 1) * Real.cos ((j + 1 + 1 : ℕ) * φ) := by
          exact chebyshev_sub h1 hn
        exact ((ih (j + 1) _ _ hc hcur).1 h2) i (by omega) (by omega)
      · obtain rfl : i = j + 2 := by omega
        exact hlt.1 h1
    · intro h
      have h1 := hlt.2 (h (j + 2) (by omega) (by omega))
      refine ⟨h1, ?_⟩
      have hcur : ((2 * a * cur - q ^ 2 * prev : ℕ) : ℝ) = q ^ (j + 1 + 1) * Real.cos ((j + 1 + 1 : ℕ) * φ) := by
        exact chebyshev_sub h1 hn
      exact (ih (j + 1) _ _ hc hcur).2 fun i hi1 hi2 => h i (by omega) (by omega)

/-- The table holds the scaled cosines. -/
theorem chebyshevTable_getD {a q : ℕ} {φ : ℝ} (hq : 0 < q) (hx : Real.cos φ = a / q) :
    ∀ (m j prev cur : ℕ), (prev : ℝ) = q ^ j * Real.cos (j * φ) →
      (1 ≤ m → (cur : ℝ) = q ^ (j + 1) * Real.cos ((j + 1 : ℕ) * φ)) →
      (∀ i, j + 2 ≤ i → i ≤ j + m → 0 < Real.cos (i * φ)) →
      ∀ i, i ≤ m → (((chebyshevTable a (q ^ 2) q m prev cur).getD i 0 : ℕ) : ℝ)
        = q ^ (j + m) * Real.cos ((j + i : ℕ) * φ) := by
  intro m
  induction m with
  | zero =>
    intro j prev cur hp _ _ i hi
    obtain rfl : i = 0 := by omega
    simp [chebyshevTable, hp]
  | succ m ih =>
    intro j prev cur hp hc hpos i hi
    have hc := hc (by omega)
    cases i with
    | zero =>
      simp only [chebyshevTable, List.getD_cons_zero]
      push_cast; rw [hp]; simp; ring
    | succ i =>
      simp only [chebyshevTable, List.getD_cons_succ]
      have hcur : 1 ≤ m →
          ((2 * a * cur - q ^ 2 * prev : ℕ) : ℝ) = q ^ (j + 1 + 1) * Real.cos ((j + 1 + 1 : ℕ) * φ) := by
        intro hm
        have hn := chebyshev_next hq hx hp hc
        have hqp : (0 : ℝ) < q ^ (j + 2) := by positivity
        have h := hpos (j + 2) (by omega) (by omega)
        rw [← mul_pos_iff_of_pos_left hqp, ← hn, sub_pos] at h
        have h1 : q ^ 2 * prev < 2 * a * cur := by exact_mod_cast h
        exact chebyshev_sub h1 hn
      have := ih (j + 1) _ _ hc hcur (fun i h1 h2 => hpos i (by omega) (by omega)) i (by omega)
      rw [this]
      congr 2
      · ring
      · push_cast; ring

/-- A point x in (0, 1] lies above `cos (π/(2m))` exactly when the first m Chebyshev values are positive there. -/
theorem cosines_positive_iff {m : ℕ} (hm : 1 ≤ m) {x : ℝ} (hx0 : 0 < x) (hx1 : x ≤ 1) :
    (∀ i : ℕ, 2 ≤ i → i ≤ m → 0 < Real.cos (i * Real.arccos x)) ↔ Real.cos (2 * π / (4 * m : ℕ)) < x := by
  set φ := Real.arccos x with hφ
  have hm' : (1 : ℝ) ≤ m := by exact_mod_cast hm
  have hφ0 : 0 ≤ φ := Real.arccos_nonneg x
  have hφ1 : φ < π / 2 := Real.arccos_lt_pi_div_two.2 hx0
  have hθ : 2 * π / (4 * m : ℕ) = π / 2 / m := by push_cast; field_simp; ring
  have hcos : Real.cos φ = x := Real.cos_arccos (by linarith) hx1
  have hθ0 : 0 < π / 2 / (m : ℝ) := by positivity
  have hθ1 : π / 2 / (m : ℝ) ≤ π := by
    rw [div_le_iff₀ (by positivity)]; nlinarith [pi_pos]
  rw [hθ]
  constructor
  · intro h
    by_contra hle
    push Not at hle
    have hge : π / 2 / m ≤ φ := by
      by_contra hlt
      push Not at hlt
      have := Real.cos_lt_cos_of_nonneg_of_le_pi hφ0 hθ1 hlt
      linarith
    have hmφ : π / 2 ≤ m * φ := by
      rw [div_le_iff₀ (by positivity)] at hge; linarith
    have hex : ∃ i : ℕ, π / 2 ≤ i * φ := ⟨m, hmφ⟩
    classical
    let i := Nat.find hex
    have hi : π / 2 ≤ (i : ℝ) * φ := Nat.find_spec hex
    have him : i ≤ m := Nat.find_min' hex hmφ
    have hi2 : 2 ≤ i := by
      by_contra hlt
      have hcases : i = 0 ∨ i = 1 := by omega
      rcases hcases with h0 | h0
      · rw [h0] at hi; simp at hi; linarith [pi_pos]
      · rw [h0] at hi; simp at hi; linarith
    have hprev : ((i - 1 : ℕ) : ℝ) * φ < π / 2 := by
      have := Nat.find_min hex (m := i - 1) (by show i - 1 < i; omega)
      exact not_le.1 this
    have hcast : ((i - 1 : ℕ) : ℝ) = i - 1 := by
      rw [Nat.cast_sub (by omega)]; simp
    rw [hcast] at hprev
    have := h i hi2 him
    have hnp := Real.cos_nonpos_of_pi_div_two_le_of_le hi (by nlinarith [pi_pos])
    linarith
  · intro h i _ him
    have hlt : φ < π / 2 / m := by
      by_contra hge
      push Not at hge
      have := Real.cos_le_cos_of_nonneg_of_le_pi hθ0.le (Real.arccos_le_pi x) hge
      linarith
    have him' : (i : ℝ) ≤ m := by exact_mod_cast him
    have h1 : (i : ℝ) * φ < π / 2 := by
      have : (m : ℝ) * φ < π / 2 := by rw [lt_div_iff₀ (by positivity)] at hlt; linarith
      nlinarith
    exact Real.cos_pos_of_mem_Ioo ⟨by nlinarith [pi_pos, (Nat.cast_nonneg i : (0 : ℝ) ≤ i)], h1⟩

/-- `cosStepAbove` finds the least p-bit number above the cosine. -/
theorem cosStepAbove_spec {m : ℕ} (hm : 1 ≤ m) (p : ℕ) :
    1 ≤ cosStepAbove m p ∧ cosStepAbove m p ≤ 2 ^ p ∧
      Real.cos (2 * π / (4 * m : ℕ)) < (cosStepAbove m p : ℝ) / 2 ^ p ∧
      (cosStepAbove m p : ℝ) / 2 ^ p ≤ Real.cos (2 * π / (4 * m : ℕ)) + 1 / 2 ^ p := by
  have hm' : (1 : ℝ) ≤ m := by exact_mod_cast hm
  have hθ0 : 0 < 2 * π / (4 * m : ℕ) := by push_cast; positivity
  have hθ1 : 2 * π / (4 * m : ℕ) ≤ π / 2 := by
    push_cast; rw [div_le_iff₀ (by positivity)]; nlinarith [pi_pos]
  induction p with
  | zero =>
    refine ⟨by simp [cosStepAbove], by simp [cosStepAbove], ?_, ?_⟩
    · simp only [cosStepAbove]
      have := Real.cos_lt_cos_of_nonneg_of_le_pi le_rfl (by linarith [pi_pos]) hθ0
      simpa using this
    · have := Real.cos_nonneg_of_neg_pi_div_two_le_of_le (by linarith [pi_pos]) hθ1
      simp only [cosStepAbove]; push_cast at this; simp; linarith
  | succ p ih =>
    obtain ⟨h1, h2, h3, h4⟩ := ih
    set A := cosStepAbove m p with hA
    have hcastA : ((2 * A - 1 : ℕ) : ℝ) = 2 * A - 1 := by
      rw [Nat.cast_sub (by omega)]; push_cast; ring
    have hpow : (2 : ℝ) ^ (p + 1) = 2 * 2 ^ p := by ring
    have hp0 : (0 : ℝ) < 2 ^ p := by positivity
    have hx : ((2 * A - 1 : ℕ) : ℝ) / ((2 ^ (p + 1) : ℕ) : ℝ) = A / 2 ^ p - 1 / 2 ^ (p + 1) := by
      rw [hcastA]; push_cast; rw [hpow]; field_simp
    have h2' : (A : ℝ) ≤ 2 ^ p := by exact_mod_cast h2
    have h1' : (1 : ℝ) ≤ A := by exact_mod_cast h1
    have hx0 : 0 < ((2 * A - 1 : ℕ) : ℝ) / ((2 ^ (p + 1) : ℕ) : ℝ) := by
      rw [hcastA]; apply div_pos (by linarith); positivity
    have hx1 : ((2 * A - 1 : ℕ) : ℝ) / ((2 ^ (p + 1) : ℕ) : ℝ) ≤ 1 := by
      rw [hcastA]; push_cast; rw [div_le_one (by positivity), hpow]; linarith
    have hcos : Real.cos (Real.arccos (((2 * A - 1 : ℕ) : ℝ) / ((2 ^ (p + 1) : ℕ) : ℝ)))
        = ((2 * A - 1 : ℕ) : ℝ) / ((2 ^ (p + 1) : ℕ) : ℝ) := Real.cos_arccos (by linarith) hx1
    have htest := chebyshevAllPositive_iff (q := 2 ^ (p + 1)) (by positivity) hcos (m - 1) 0 1 (2 * A - 1)
      (by simp) (by simp only [Nat.zero_add, Nat.cast_one, one_mul]; rw [hcos]; field_simp)
    have hsq : (2 ^ (p + 1)) ^ 2 = 4 ^ (p + 1) := by
      rw [← pow_mul, mul_comm, pow_mul]; norm_num
    rw [hsq] at htest
    have hbr := cosines_positive_iff hm hx0 hx1
    have key : chebyshevAllPositive (2 * A - 1) (4 ^ (p + 1)) (m - 1) 1 (2 * A - 1) = true ↔
        Real.cos (2 * π / (4 * m : ℕ)) < ((2 * A - 1 : ℕ) : ℝ) / ((2 ^ (p + 1) : ℕ) : ℝ) := by
      rw [htest, ← hbr]
      constructor
      · intro h i hi1 hi2; exact h i (by omega) (by omega)
      · intro h i hi1 hi2; exact h i (by omega) (by omega)
    simp only [cosStepAbove, ← hA]
    split_ifs with ht
    · rw [key] at ht
      refine ⟨by omega, ?_, ?_, ?_⟩
      · rw [pow_succ]; omega
      · simpa using ht
      · push_cast at hx
        rw [hx, hpow]
        have : (1 : ℝ) / 2 ^ p = 1 / (2 * 2 ^ p) + 1 / (2 * 2 ^ p) := by field_simp; norm_num
        linarith
    · rw [key] at ht
      push Not at ht
      have he : ((2 * A - 1 + 1 : ℕ) : ℝ) / 2 ^ (p + 1) = A / 2 ^ p := by
        rw [show 2 * A - 1 + 1 = 2 * A by omega, hpow]; push_cast; field_simp
      refine ⟨by omega, ?_, ?_, ?_⟩
      · rw [pow_succ]; omega
      · rw [he]; exact h3
      · rw [he]; rw [hx] at ht; linarith

theorem abs_sin_nat_mul_le (k : ℕ) (y : ℝ) : |Real.sin (k * y)| ≤ k * |Real.sin y| := by
  induction k with
  | zero => simp
  | succ k ih =>
    have h : ((k + 1 : ℕ) : ℝ) * y = k * y + y := by push_cast; ring
    rw [h, Real.sin_add]
    have h1 := abs_add_le (Real.sin (k * y) * Real.cos y) (Real.cos (k * y) * Real.sin y)
    rw [abs_mul, abs_mul] at h1
    have h2 := Real.abs_cos_le_one y
    have h3 := Real.abs_cos_le_one (k * y)
    have h4 := abs_nonneg (Real.sin (k * y))
    have h5 := abs_nonneg (Real.sin y)
    push_cast
    nlinarith [abs_nonneg (Real.cos y), abs_nonneg (Real.cos (k * y))]

/-- The k-th Chebyshev value moves at most k² times as fast as its point. -/
theorem abs_cos_nat_mul_sub_le (k : ℕ) (x y : ℝ) :
    |Real.cos (k * x) - Real.cos (k * y)| ≤ k ^ 2 * |Real.cos x - Real.cos y| := by
  rw [Real.cos_sub_cos, Real.cos_sub_cos]
  have h1 := abs_sin_nat_mul_le k ((x + y) / 2)
  have h2 := abs_sin_nat_mul_le k ((x - y) / 2)
  have e1 : ((k : ℝ) * x + k * y) / 2 = k * ((x + y) / 2) := by ring
  have e2 : ((k : ℝ) * x - k * y) / 2 = k * ((x - y) / 2) := by ring
  rw [e1, e2]
  simp only [abs_mul, abs_neg, abs_two]
  have := mul_le_mul h1 h2 (abs_nonneg _) (by positivity)
  nlinarith

/-- The table at precision p is within `m²/2^p` of each cosine of the first quarter, and holds no value above 1. -/
theorem chebyshevTable_close {m : ℕ} (hm : 1 ≤ m) (p : ℕ) {k : ℕ} (hk : k ≤ m) :
    ∃ c : ℝ, (((chebyshevTable (cosStepAbove m p) (4 ^ p) (2 ^ p) m 1 (cosStepAbove m p)).getD k 0 : ℕ) : ℝ)
        = 2 ^ (p * m) * c ∧ |c| ≤ 1 ∧
      |c - Real.cos (2 * π * k / (4 * m : ℕ))| ≤ m ^ 2 / 2 ^ p := by
  obtain ⟨h1, h2, h3, h4⟩ := cosStepAbove_spec hm p
  set A := cosStepAbove m p
  have h1' : (1 : ℝ) ≤ A := by exact_mod_cast h1
  have h2' : (A : ℝ) ≤ 2 ^ p := by exact_mod_cast h2
  set x : ℝ := (A : ℝ) / ((2 ^ p : ℕ) : ℝ) with hx
  have hx0 : 0 < x := by rw [hx]; apply div_pos (by linarith); positivity
  have hx1 : x ≤ 1 := by rw [hx]; push_cast; rw [div_le_one (by positivity)]; exact h2'
  have hcos : Real.cos (Real.arccos x) = A / ((2 ^ p : ℕ) : ℝ) := Real.cos_arccos (by linarith) hx1
  have hxp : x = A / 2 ^ p := by rw [hx]; push_cast; rfl
  have hpos := (cosines_positive_iff hm hx0 hx1).2 (by rw [hxp]; exact h3)
  have hsq : (2 ^ p) ^ 2 = 4 ^ p := by rw [← pow_mul, mul_comm, pow_mul]; norm_num
  have htab := chebyshevTable_getD (q := 2 ^ p) (by positivity) hcos m 0 1 A (by simp)
    (by intro _; simp only [Nat.zero_add, Nat.cast_one, one_mul]; rw [hcos]; field_simp)
    (fun i hi1 hi2 => hpos i (by omega) (by omega)) k hk
  rw [hsq] at htab
  refine ⟨Real.cos (k * Real.arccos x), ?_, Real.abs_cos_le_one _, ?_⟩
  · rw [htab]; push_cast; rw [← pow_mul]; simp
  · have hl := abs_cos_nat_mul_sub_le k (Real.arccos x) (2 * π / (4 * m : ℕ))
    have e : (k : ℝ) * (2 * π / (4 * m : ℕ)) = 2 * π * k / (4 * m : ℕ) := by ring
    rw [e] at hl
    have hd : |Real.cos (Real.arccos x) - Real.cos (2 * π / (4 * m : ℕ))| ≤ 1 / 2 ^ p := by
      rw [Real.cos_arccos (by linarith) hx1, hxp, abs_of_pos (by linarith)]; linarith
    have hkm : (k : ℝ) ^ 2 ≤ m ^ 2 := by
      have : (k : ℝ) ≤ m := by exact_mod_cast hk
      have h0 : (0 : ℝ) ≤ k := by positivity
      nlinarith
    calc _ ≤ (k : ℝ) ^ 2 * |Real.cos (Real.arccos x) - Real.cos (2 * π / (4 * m : ℕ))| := hl
      _ ≤ (m : ℝ) ^ 2 * (1 / 2 ^ p) := by
          apply mul_le_mul hkm hd (abs_nonneg _) (by positivity)
      _ = (m : ℝ) ^ 2 / 2 ^ p := by ring

end Sys2Proof
end

