-- ==== Sys2Proof/Laws/State.lean ====
section
/-!
SUPPORT. What each named update leaves in each field of the state. All hold by unfolding the one update, so that no
later proof unfolds a record update.
-/

namespace Sys2Proof.Machine

/-! ## `State.respond` -/

@[simp] theorem State.respond_state (s : State) (r : Result) : (s.respond r).state = s.state := by cases s; rfl
@[simp] theorem State.respond_polarity (s : State) (r : Result) :
    (s.respond r).polarity = s.polarity := by cases s; rfl
@[simp] theorem State.respond_baseline (s : State) (r : Result) :
    (s.respond r).baseline = s.baseline := by cases s; rfl
@[simp] theorem State.respond_signalMin (s : State) (r : Result) :
    (s.respond r).signalMin = s.signalMin := by cases s; rfl
@[simp] theorem State.respond_signalMax (s : State) (r : Result) :
    (s.respond r).signalMax = s.signalMax := by cases s; rfl
@[simp] theorem State.respond_sampleCount (s : State) (r : Result) :
    (s.respond r).sampleCount = s.sampleCount := by cases s; rfl
@[simp] theorem State.respond_acc (s : State) (r : Result) : (s.respond r).acc = s.acc := by cases s; rfl
@[simp] theorem State.respond_phase (s : State) (r : Result) : (s.respond r).phase = s.phase := by cases s; rfl
@[simp] theorem State.respond_phase2 (s : State) (r : Result) : (s.respond r).phase2 = s.phase2 := by cases s; rfl
@[simp] theorem State.respond_phase3 (s : State) (r : Result) : (s.respond r).phase3 = s.phase3 := by cases s; rfl
@[simp] theorem State.respond_skip (s : State) (r : Result) : (s.respond r).skip = s.skip := by cases s; rfl
@[simp] theorem State.respond_word (s : State) (r : Result) : (s.respond r).word = s.word := by cases s; rfl
@[simp] theorem State.respond_inputs (s : State) (r : Result) : (s.respond r).inputs = s.inputs := by cases s; rfl
@[simp] theorem State.respond_taken (s : State) (r : Result) : (s.respond r).taken = s.taken := by cases s; rfl
@[simp] theorem State.respond_responses (s : State) (r : Result) :
    (s.respond r).responses = s.responses ++ [responseWord r] := by
  dsimp only [State.respond]
@[simp] theorem State.respond_numerics (s : State) (r : Result) :
    (s.respond r).numerics = s.numerics := by cases s; rfl
@[simp] theorem State.respond_draws (s : State) (r : Result) : (s.respond r).draws = s.draws := by cases s; rfl

/-! ## `State.drawn` -/

@[simp] theorem State.drawn_state (s : State) : (s.drawn).state = s.state := by cases s; rfl
@[simp] theorem State.drawn_polarity (s : State) : (s.drawn).polarity = s.polarity := by cases s; rfl
@[simp] theorem State.drawn_baseline (s : State) : (s.drawn).baseline = s.baseline := by cases s; rfl
@[simp] theorem State.drawn_signalMin (s : State) : (s.drawn).signalMin = s.signalMin := by cases s; rfl
@[simp] theorem State.drawn_signalMax (s : State) : (s.drawn).signalMax = s.signalMax := by cases s; rfl
@[simp] theorem State.drawn_sampleCount (s : State) : (s.drawn).sampleCount = s.sampleCount := by cases s; rfl
@[simp] theorem State.drawn_acc (s : State) : (s.drawn).acc = s.acc := by cases s; rfl
@[simp] theorem State.drawn_phase (s : State) : (s.drawn).phase = s.phase := by cases s; rfl
@[simp] theorem State.drawn_phase2 (s : State) : (s.drawn).phase2 = s.phase2 := by cases s; rfl
@[simp] theorem State.drawn_phase3 (s : State) : (s.drawn).phase3 = s.phase3 := by cases s; rfl
@[simp] theorem State.drawn_skip (s : State) : (s.drawn).skip = s.skip := by cases s; rfl
@[simp] theorem State.drawn_word (s : State) : (s.drawn).word = s.word := by cases s; rfl
@[simp] theorem State.drawn_inputs (s : State) : (s.drawn).inputs = s.inputs := by cases s; rfl
@[simp] theorem State.drawn_taken (s : State) : (s.drawn).taken = s.taken := by cases s; rfl
@[simp] theorem State.drawn_responses (s : State) : (s.drawn).responses = s.responses := by cases s; rfl
@[simp] theorem State.drawn_numerics (s : State) : (s.drawn).numerics = s.numerics := by cases s; rfl
@[simp] theorem State.drawn_draws (s : State) : (s.drawn).draws = s.draws + 1 := by
  dsimp only [State.drawn]

/-! ## `condInit` -/

@[simp] theorem condInit_state (x : Sample) (s : State) :
    (condInit x s).state = .detectPolarity := by
  dsimp only [condInit]
@[simp] theorem condInit_polarity (x : Sample) (s : State) : (condInit x s).polarity = s.polarity := by cases s; rfl
@[simp] theorem condInit_baseline (x : Sample) (s : State) : (condInit x s).baseline = x := by
  dsimp only [condInit]
@[simp] theorem condInit_signalMin (x : Sample) (s : State) :
    (condInit x s).signalMin = s.signalMin := by cases s; rfl
@[simp] theorem condInit_signalMax (x : Sample) (s : State) :
    (condInit x s).signalMax = s.signalMax := by cases s; rfl
@[simp] theorem condInit_sampleCount (x : Sample) (s : State) :
    (condInit x s).sampleCount = 0#16 := by
  dsimp only [condInit]
@[simp] theorem condInit_acc (x : Sample) (s : State) : (condInit x s).acc = s.acc := by cases s; rfl
@[simp] theorem condInit_phase (x : Sample) (s : State) : (condInit x s).phase = s.phase := by cases s; rfl
@[simp] theorem condInit_phase2 (x : Sample) (s : State) : (condInit x s).phase2 = s.phase2 := by cases s; rfl
@[simp] theorem condInit_phase3 (x : Sample) (s : State) : (condInit x s).phase3 = s.phase3 := by cases s; rfl
@[simp] theorem condInit_skip (x : Sample) (s : State) : (condInit x s).skip = s.skip := by cases s; rfl
@[simp] theorem condInit_word (x : Sample) (s : State) : (condInit x s).word = s.word := by cases s; rfl
@[simp] theorem condInit_inputs (x : Sample) (s : State) : (condInit x s).inputs = s.inputs := by cases s; rfl
@[simp] theorem condInit_taken (x : Sample) (s : State) : (condInit x s).taken = s.taken := by cases s; rfl
@[simp] theorem condInit_responses (x : Sample) (s : State) :
    (condInit x s).responses = s.responses := by cases s; rfl
@[simp] theorem condInit_numerics (x : Sample) (s : State) : (condInit x s).numerics = s.numerics := by cases s; rfl
@[simp] theorem condInit_draws (x : Sample) (s : State) : (condInit x s).draws = s.draws := by cases s; rfl

/-! ## `condPolarityCommit` -/

@[simp] theorem condPolarityCommit_state (d : Int) (s : State) :
    (condPolarityCommit d s).state = .detectWaveFirstHalf := by
  dsimp only [condPolarityCommit]
@[simp] theorem condPolarityCommit_polarity (d : Int) (s : State) :
    (condPolarityCommit d s).polarity = polarityOf d := by
  dsimp only [condPolarityCommit]
@[simp] theorem condPolarityCommit_baseline (d : Int) (s : State) :
    (condPolarityCommit d s).baseline = s.baseline := by cases s; rfl
@[simp] theorem condPolarityCommit_signalMin (d : Int) (s : State) :
    (condPolarityCommit d s).signalMin = s.baseline := by
  dsimp only [condPolarityCommit]
@[simp] theorem condPolarityCommit_signalMax (d : Int) (s : State) :
    (condPolarityCommit d s).signalMax = s.baseline := by
  dsimp only [condPolarityCommit]
@[simp] theorem condPolarityCommit_sampleCount (d : Int) (s : State) :
    (condPolarityCommit d s).sampleCount = s.sampleCount := by cases s; rfl
@[simp] theorem condPolarityCommit_acc (d : Int) (s : State) : (condPolarityCommit d s).acc = s.acc := by cases s; rfl
@[simp] theorem condPolarityCommit_phase (d : Int) (s : State) :
    (condPolarityCommit d s).phase = s.phase := by cases s; rfl
@[simp] theorem condPolarityCommit_phase2 (d : Int) (s : State) :
    (condPolarityCommit d s).phase2 = s.phase2 := by cases s; rfl
@[simp] theorem condPolarityCommit_phase3 (d : Int) (s : State) :
    (condPolarityCommit d s).phase3 = s.phase3 := by cases s; rfl
@[simp] theorem condPolarityCommit_skip (d : Int) (s : State) :
    (condPolarityCommit d s).skip = s.skip := by cases s; rfl
@[simp] theorem condPolarityCommit_word (d : Int) (s : State) :
    (condPolarityCommit d s).word = s.word := by cases s; rfl
@[simp] theorem condPolarityCommit_inputs (d : Int) (s : State) :
    (condPolarityCommit d s).inputs = s.inputs := by cases s; rfl
@[simp] theorem condPolarityCommit_taken (d : Int) (s : State) :
    (condPolarityCommit d s).taken = s.taken := by cases s; rfl
@[simp] theorem condPolarityCommit_responses (d : Int) (s : State) :
    (condPolarityCommit d s).responses = s.responses := by cases s; rfl
@[simp] theorem condPolarityCommit_numerics (d : Int) (s : State) :
    (condPolarityCommit d s).numerics = s.numerics := by cases s; rfl
@[simp] theorem condPolarityCommit_draws (d : Int) (s : State) :
    (condPolarityCommit d s).draws = s.draws := by cases s; rfl

/-! ## `condBaselineSmooth` -/

@[simp] theorem condBaselineSmooth_state (d : Int) (s : State) :
    (condBaselineSmooth d s).state = s.state := by cases s; rfl
@[simp] theorem condBaselineSmooth_polarity (d : Int) (s : State) :
    (condBaselineSmooth d s).polarity = s.polarity := by cases s; rfl
@[simp] theorem condBaselineSmooth_baseline (d : Int) (s : State) :
    (condBaselineSmooth d s).baseline = toSample (sampleInt s.baseline + truncDiv d Config.smoothDiv) := by
  dsimp only [condBaselineSmooth]
@[simp] theorem condBaselineSmooth_signalMin (d : Int) (s : State) :
    (condBaselineSmooth d s).signalMin = s.signalMin := by cases s; rfl
@[simp] theorem condBaselineSmooth_signalMax (d : Int) (s : State) :
    (condBaselineSmooth d s).signalMax = s.signalMax := by cases s; rfl
@[simp] theorem condBaselineSmooth_sampleCount (d : Int) (s : State) :
    (condBaselineSmooth d s).sampleCount = s.sampleCount := by cases s; rfl
@[simp] theorem condBaselineSmooth_acc (d : Int) (s : State) : (condBaselineSmooth d s).acc = s.acc := by cases s; rfl
@[simp] theorem condBaselineSmooth_phase (d : Int) (s : State) :
    (condBaselineSmooth d s).phase = s.phase := by cases s; rfl
@[simp] theorem condBaselineSmooth_phase2 (d : Int) (s : State) :
    (condBaselineSmooth d s).phase2 = s.phase2 := by cases s; rfl
@[simp] theorem condBaselineSmooth_phase3 (d : Int) (s : State) :
    (condBaselineSmooth d s).phase3 = s.phase3 := by cases s; rfl
@[simp] theorem condBaselineSmooth_skip (d : Int) (s : State) :
    (condBaselineSmooth d s).skip = s.skip := by cases s; rfl
@[simp] theorem condBaselineSmooth_word (d : Int) (s : State) :
    (condBaselineSmooth d s).word = s.word := by cases s; rfl
@[simp] theorem condBaselineSmooth_inputs (d : Int) (s : State) :
    (condBaselineSmooth d s).inputs = s.inputs := by cases s; rfl
@[simp] theorem condBaselineSmooth_taken (d : Int) (s : State) :
    (condBaselineSmooth d s).taken = s.taken := by cases s; rfl
@[simp] theorem condBaselineSmooth_responses (d : Int) (s : State) :
    (condBaselineSmooth d s).responses = s.responses := by cases s; rfl
@[simp] theorem condBaselineSmooth_numerics (d : Int) (s : State) :
    (condBaselineSmooth d s).numerics = s.numerics := by cases s; rfl
@[simp] theorem condBaselineSmooth_draws (d : Int) (s : State) :
    (condBaselineSmooth d s).draws = s.draws := by cases s; rfl

/-! ## `condTrackExtremes` -/

@[simp] theorem condTrackExtremes_state (x : Sample) (s : State) :
    (condTrackExtremes x s).state = s.state := by cases s; rfl
@[simp] theorem condTrackExtremes_polarity (x : Sample) (s : State) :
    (condTrackExtremes x s).polarity = s.polarity := by cases s; rfl
@[simp] theorem condTrackExtremes_baseline (x : Sample) (s : State) :
    (condTrackExtremes x s).baseline = s.baseline := by cases s; rfl
@[simp] theorem condTrackExtremes_signalMin (x : Sample) (s : State) :
    (condTrackExtremes x s).signalMin = minSample s.signalMin x := by
  dsimp only [condTrackExtremes]
@[simp] theorem condTrackExtremes_signalMax (x : Sample) (s : State) :
    (condTrackExtremes x s).signalMax = maxSample s.signalMax x := by
  dsimp only [condTrackExtremes]
@[simp] theorem condTrackExtremes_sampleCount (x : Sample) (s : State) :
    (condTrackExtremes x s).sampleCount = s.sampleCount := by cases s; rfl
@[simp] theorem condTrackExtremes_acc (x : Sample) (s : State) :
    (condTrackExtremes x s).acc = s.acc := by cases s; rfl
@[simp] theorem condTrackExtremes_phase (x : Sample) (s : State) :
    (condTrackExtremes x s).phase = s.phase := by cases s; rfl
@[simp] theorem condTrackExtremes_phase2 (x : Sample) (s : State) :
    (condTrackExtremes x s).phase2 = s.phase2 := by cases s; rfl
@[simp] theorem condTrackExtremes_phase3 (x : Sample) (s : State) :
    (condTrackExtremes x s).phase3 = s.phase3 := by cases s; rfl
@[simp] theorem condTrackExtremes_skip (x : Sample) (s : State) :
    (condTrackExtremes x s).skip = s.skip := by cases s; rfl
@[simp] theorem condTrackExtremes_word (x : Sample) (s : State) :
    (condTrackExtremes x s).word = s.word := by cases s; rfl
@[simp] theorem condTrackExtremes_inputs (x : Sample) (s : State) :
    (condTrackExtremes x s).inputs = s.inputs := by cases s; rfl
@[simp] theorem condTrackExtremes_taken (x : Sample) (s : State) :
    (condTrackExtremes x s).taken = s.taken := by cases s; rfl
@[simp] theorem condTrackExtremes_responses (x : Sample) (s : State) :
    (condTrackExtremes x s).responses = s.responses := by cases s; rfl
@[simp] theorem condTrackExtremes_numerics (x : Sample) (s : State) :
    (condTrackExtremes x s).numerics = s.numerics := by cases s; rfl
@[simp] theorem condTrackExtremes_draws (x : Sample) (s : State) :
    (condTrackExtremes x s).draws = s.draws := by cases s; rfl

/-! ## `condWiden` -/

@[simp] theorem condWiden_state (x : Sample) (s : State) : (condWiden x s).state = s.state := by cases s; rfl
@[simp] theorem condWiden_polarity (x : Sample) (s : State) : (condWiden x s).polarity = s.polarity := by cases s; rfl
@[simp] theorem condWiden_baseline (x : Sample) (s : State) : (condWiden x s).baseline = s.baseline := by cases s; rfl
@[simp] theorem condWiden_signalMin (x : Sample) (s : State) :
    (condWiden x s).signalMin = minSample s.signalMin x := by
  dsimp only [condWiden]
@[simp] theorem condWiden_signalMax (x : Sample) (s : State) :
    (condWiden x s).signalMax = maxSample s.signalMax x := by
  dsimp only [condWiden]
@[simp] theorem condWiden_sampleCount (x : Sample) (s : State) :
    (condWiden x s).sampleCount = s.sampleCount := by cases s; rfl
@[simp] theorem condWiden_acc (x : Sample) (s : State) : (condWiden x s).acc = s.acc := by cases s; rfl
@[simp] theorem condWiden_phase (x : Sample) (s : State) : (condWiden x s).phase = s.phase := by cases s; rfl
@[simp] theorem condWiden_phase2 (x : Sample) (s : State) : (condWiden x s).phase2 = s.phase2 := by cases s; rfl
@[simp] theorem condWiden_phase3 (x : Sample) (s : State) : (condWiden x s).phase3 = s.phase3 := by cases s; rfl
@[simp] theorem condWiden_skip (x : Sample) (s : State) : (condWiden x s).skip = s.skip := by cases s; rfl
@[simp] theorem condWiden_word (x : Sample) (s : State) : (condWiden x s).word = s.word := by cases s; rfl
@[simp] theorem condWiden_inputs (x : Sample) (s : State) : (condWiden x s).inputs = s.inputs := by cases s; rfl
@[simp] theorem condWiden_taken (x : Sample) (s : State) : (condWiden x s).taken = s.taken := by cases s; rfl
@[simp] theorem condWiden_responses (x : Sample) (s : State) :
    (condWiden x s).responses = s.responses := by cases s; rfl
@[simp] theorem condWiden_numerics (x : Sample) (s : State) : (condWiden x s).numerics = s.numerics := by cases s; rfl
@[simp] theorem condWiden_draws (x : Sample) (s : State) : (condWiden x s).draws = s.draws := by cases s; rfl

/-! ## `seedCount` -/

@[simp] theorem seedCount_state (s : State) : (seedCount s).state = s.state := by cases s; rfl
@[simp] theorem seedCount_polarity (s : State) : (seedCount s).polarity = s.polarity := by cases s; rfl
@[simp] theorem seedCount_baseline (s : State) : (seedCount s).baseline = s.baseline := by cases s; rfl
@[simp] theorem seedCount_signalMin (s : State) : (seedCount s).signalMin = s.signalMin := by cases s; rfl
@[simp] theorem seedCount_signalMax (s : State) : (seedCount s).signalMax = s.signalMax := by cases s; rfl
@[simp] theorem seedCount_sampleCount (s : State) :
    (seedCount s).sampleCount = satU16 (countInt s.sampleCount + 1) := by
  dsimp only [seedCount]
@[simp] theorem seedCount_acc (s : State) : (seedCount s).acc = s.acc := by cases s; rfl
@[simp] theorem seedCount_phase (s : State) : (seedCount s).phase = s.phase := by cases s; rfl
@[simp] theorem seedCount_phase2 (s : State) : (seedCount s).phase2 = s.phase2 := by cases s; rfl
@[simp] theorem seedCount_phase3 (s : State) : (seedCount s).phase3 = s.phase3 := by cases s; rfl
@[simp] theorem seedCount_skip (s : State) : (seedCount s).skip = s.skip := by cases s; rfl
@[simp] theorem seedCount_word (s : State) : (seedCount s).word = s.word := by cases s; rfl
@[simp] theorem seedCount_inputs (s : State) : (seedCount s).inputs = s.inputs := by cases s; rfl
@[simp] theorem seedCount_taken (s : State) : (seedCount s).taken = s.taken := by cases s; rfl
@[simp] theorem seedCount_responses (s : State) : (seedCount s).responses = s.responses := by cases s; rfl
@[simp] theorem seedCount_numerics (s : State) : (seedCount s).numerics = s.numerics := by cases s; rfl
@[simp] theorem seedCount_draws (s : State) : (seedCount s).draws = s.draws := by cases s; rfl

/-! ## `enterCalibrate` -/

@[simp] theorem enterCalibrate_state (s : State) :
    (enterCalibrate s).state = .detectCalibrate := by
  dsimp only [enterCalibrate]
@[simp] theorem enterCalibrate_polarity (s : State) : (enterCalibrate s).polarity = s.polarity := by cases s; rfl
@[simp] theorem enterCalibrate_baseline (s : State) : (enterCalibrate s).baseline = s.baseline := by cases s; rfl
@[simp] theorem enterCalibrate_signalMin (s : State) : (enterCalibrate s).signalMin = s.signalMin := by cases s; rfl
@[simp] theorem enterCalibrate_signalMax (s : State) : (enterCalibrate s).signalMax = s.signalMax := by cases s; rfl
@[simp] theorem enterCalibrate_sampleCount (s : State) :
    (enterCalibrate s).sampleCount = satU16 (clampLo (countInt s.sampleCount)) := by
  dsimp only [enterCalibrate]
@[simp] theorem enterCalibrate_acc (s : State) : (enterCalibrate s).acc = .zero := by
  dsimp only [enterCalibrate]
@[simp] theorem enterCalibrate_phase (s : State) : (enterCalibrate s).phase = s.phase := by cases s; rfl
@[simp] theorem enterCalibrate_phase2 (s : State) : (enterCalibrate s).phase2 = s.phase2 := by cases s; rfl
@[simp] theorem enterCalibrate_phase3 (s : State) : (enterCalibrate s).phase3 = s.phase3 := by cases s; rfl
@[simp] theorem enterCalibrate_skip (s : State) : (enterCalibrate s).skip = 0#16 := by
  dsimp only [enterCalibrate]
@[simp] theorem enterCalibrate_word (s : State) : (enterCalibrate s).word = s.word := by cases s; rfl
@[simp] theorem enterCalibrate_inputs (s : State) : (enterCalibrate s).inputs = s.inputs := by cases s; rfl
@[simp] theorem enterCalibrate_taken (s : State) : (enterCalibrate s).taken = s.taken := by cases s; rfl
@[simp] theorem enterCalibrate_responses (s : State) : (enterCalibrate s).responses = s.responses := by cases s; rfl
@[simp] theorem enterCalibrate_numerics (s : State) : (enterCalibrate s).numerics = s.numerics := by cases s; rfl
@[simp] theorem enterCalibrate_draws (s : State) : (enterCalibrate s).draws = s.draws := by cases s; rfl

/-! ## `driftCorrect` -/

@[simp] theorem driftCorrect_state (s : State) : (driftCorrect s).state = s.state := by cases s; rfl
@[simp] theorem driftCorrect_polarity (s : State) : (driftCorrect s).polarity = s.polarity := by cases s; rfl
@[simp] theorem driftCorrect_baseline (s : State) : (driftCorrect s).baseline = s.baseline := by cases s; rfl
@[simp] theorem driftCorrect_signalMin (s : State) : (driftCorrect s).signalMin = s.signalMin := by cases s; rfl
@[simp] theorem driftCorrect_signalMax (s : State) : (driftCorrect s).signalMax = s.signalMax := by cases s; rfl
@[simp] theorem driftCorrect_sampleCount (s : State) :
    (driftCorrect s).sampleCount = satU16 (clampLo (countInt s.sampleCount - driftMean s)) := by
  dsimp only [driftCorrect]
@[simp] theorem driftCorrect_acc (s : State) : (driftCorrect s).acc = s.acc := by cases s; rfl
@[simp] theorem driftCorrect_phase (s : State) : (driftCorrect s).phase = s.phase := by cases s; rfl
@[simp] theorem driftCorrect_phase2 (s : State) : (driftCorrect s).phase2 = s.phase2 := by cases s; rfl
@[simp] theorem driftCorrect_phase3 (s : State) : (driftCorrect s).phase3 = s.phase3 := by cases s; rfl
@[simp] theorem driftCorrect_skip (s : State) : (driftCorrect s).skip = s.skip := by cases s; rfl
@[simp] theorem driftCorrect_word (s : State) : (driftCorrect s).word = s.word := by cases s; rfl
@[simp] theorem driftCorrect_inputs (s : State) : (driftCorrect s).inputs = s.inputs := by cases s; rfl
@[simp] theorem driftCorrect_taken (s : State) : (driftCorrect s).taken = s.taken := by cases s; rfl
@[simp] theorem driftCorrect_responses (s : State) : (driftCorrect s).responses = s.responses := by cases s; rfl
@[simp] theorem driftCorrect_numerics (s : State) : (driftCorrect s).numerics = s.numerics := by cases s; rfl
@[simp] theorem driftCorrect_draws (s : State) : (driftCorrect s).draws = s.draws := by cases s; rfl

/-! ## `driftSuppress` -/

@[simp] theorem driftSuppress_state (s : State) : (driftSuppress s).state = s.state := by cases s; rfl
@[simp] theorem driftSuppress_polarity (s : State) : (driftSuppress s).polarity = s.polarity := by cases s; rfl
@[simp] theorem driftSuppress_baseline (s : State) : (driftSuppress s).baseline = s.baseline := by cases s; rfl
@[simp] theorem driftSuppress_signalMin (s : State) : (driftSuppress s).signalMin = s.signalMin := by cases s; rfl
@[simp] theorem driftSuppress_signalMax (s : State) : (driftSuppress s).signalMax = s.signalMax := by cases s; rfl
@[simp] theorem driftSuppress_sampleCount (s : State) :
    (driftSuppress s).sampleCount = s.sampleCount := by cases s; rfl
@[simp] theorem driftSuppress_acc (s : State) : (driftSuppress s).acc = s.acc := by cases s; rfl
@[simp] theorem driftSuppress_phase (s : State) : (driftSuppress s).phase = s.phase := by cases s; rfl
@[simp] theorem driftSuppress_phase2 (s : State) : (driftSuppress s).phase2 = 0#17 := by
  dsimp only [driftSuppress]
@[simp] theorem driftSuppress_phase3 (s : State) : (driftSuppress s).phase3 = s.phase3 := by cases s; rfl
@[simp] theorem driftSuppress_skip (s : State) : (driftSuppress s).skip = s.skip := by cases s; rfl
@[simp] theorem driftSuppress_word (s : State) : (driftSuppress s).word = s.word := by cases s; rfl
@[simp] theorem driftSuppress_inputs (s : State) : (driftSuppress s).inputs = s.inputs := by cases s; rfl
@[simp] theorem driftSuppress_taken (s : State) : (driftSuppress s).taken = s.taken := by cases s; rfl
@[simp] theorem driftSuppress_responses (s : State) : (driftSuppress s).responses = s.responses := by cases s; rfl
@[simp] theorem driftSuppress_numerics (s : State) : (driftSuppress s).numerics = s.numerics := by cases s; rfl
@[simp] theorem driftSuppress_draws (s : State) : (driftSuppress s).draws = s.draws := by cases s; rfl

/-! ## `phaseShift` -/

@[simp] theorem phaseShift_state (s : State) : (phaseShift s).state = s.state := by cases s; rfl
@[simp] theorem phaseShift_polarity (s : State) : (phaseShift s).polarity = s.polarity := by cases s; rfl
@[simp] theorem phaseShift_baseline (s : State) : (phaseShift s).baseline = s.baseline := by cases s; rfl
@[simp] theorem phaseShift_signalMin (s : State) : (phaseShift s).signalMin = s.signalMin := by cases s; rfl
@[simp] theorem phaseShift_signalMax (s : State) : (phaseShift s).signalMax = s.signalMax := by cases s; rfl
@[simp] theorem phaseShift_sampleCount (s : State) : (phaseShift s).sampleCount = s.sampleCount := by cases s; rfl
@[simp] theorem phaseShift_acc (s : State) : (phaseShift s).acc = s.acc := by cases s; rfl
@[simp] theorem phaseShift_phase (s : State) : (phaseShift s).phase = s.phase := by cases s; rfl
@[simp] theorem phaseShift_phase2 (s : State) : (phaseShift s).phase2 = s.phase := by
  dsimp only [phaseShift]
@[simp] theorem phaseShift_phase3 (s : State) : (phaseShift s).phase3 = s.phase2 := by
  dsimp only [phaseShift]
@[simp] theorem phaseShift_skip (s : State) : (phaseShift s).skip = s.skip := by cases s; rfl
@[simp] theorem phaseShift_word (s : State) : (phaseShift s).word = s.word := by cases s; rfl
@[simp] theorem phaseShift_inputs (s : State) : (phaseShift s).inputs = s.inputs := by cases s; rfl
@[simp] theorem phaseShift_taken (s : State) : (phaseShift s).taken = s.taken := by cases s; rfl
@[simp] theorem phaseShift_responses (s : State) : (phaseShift s).responses = s.responses := by cases s; rfl
@[simp] theorem phaseShift_numerics (s : State) : (phaseShift s).numerics = s.numerics := by cases s; rfl
@[simp] theorem phaseShift_draws (s : State) : (phaseShift s).draws = s.draws := by cases s; rfl

/-! ## `realignLate` -/

@[simp] theorem realignLate_state (s : State) : (realignLate s).state = s.state := by cases s; rfl
@[simp] theorem realignLate_polarity (s : State) : (realignLate s).polarity = s.polarity := by cases s; rfl
@[simp] theorem realignLate_baseline (s : State) : (realignLate s).baseline = s.baseline := by cases s; rfl
@[simp] theorem realignLate_signalMin (s : State) : (realignLate s).signalMin = s.signalMin := by cases s; rfl
@[simp] theorem realignLate_signalMax (s : State) : (realignLate s).signalMax = s.signalMax := by cases s; rfl
@[simp] theorem realignLate_sampleCount (s : State) : (realignLate s).sampleCount = s.sampleCount := by cases s; rfl
@[simp] theorem realignLate_acc (s : State) : (realignLate s).acc = s.acc := by cases s; rfl
@[simp] theorem realignLate_phase (s : State) : (realignLate s).phase = s.phase := by cases s; rfl
@[simp] theorem realignLate_phase2 (s : State) : (realignLate s).phase2 = s.phase2 := by cases s; rfl
@[simp] theorem realignLate_phase3 (s : State) : (realignLate s).phase3 = s.phase3 := by cases s; rfl
@[simp] theorem realignLate_skip (s : State) :
    (realignLate s).skip = BitVec.ofInt 16 (-s.phase.toInt) := by
  dsimp only [realignLate]
@[simp] theorem realignLate_word (s : State) : (realignLate s).word = s.word := by cases s; rfl
@[simp] theorem realignLate_inputs (s : State) : (realignLate s).inputs = s.inputs := by cases s; rfl
@[simp] theorem realignLate_taken (s : State) : (realignLate s).taken = s.taken := by cases s; rfl
@[simp] theorem realignLate_responses (s : State) : (realignLate s).responses = s.responses := by cases s; rfl
@[simp] theorem realignLate_numerics (s : State) : (realignLate s).numerics = s.numerics := by cases s; rfl
@[simp] theorem realignLate_draws (s : State) : (realignLate s).draws = s.draws := by cases s; rfl

/-! ## `phaseMeasure` -/

@[simp] theorem phaseMeasure_state (s : State) : (phaseMeasure s).state = s.state := by cases s; rfl
@[simp] theorem phaseMeasure_polarity (s : State) : (phaseMeasure s).polarity = s.polarity := by cases s; rfl
@[simp] theorem phaseMeasure_baseline (s : State) : (phaseMeasure s).baseline = s.baseline := by cases s; rfl
@[simp] theorem phaseMeasure_signalMin (s : State) : (phaseMeasure s).signalMin = s.signalMin := by cases s; rfl
@[simp] theorem phaseMeasure_signalMax (s : State) : (phaseMeasure s).signalMax = s.signalMax := by cases s; rfl
@[simp] theorem phaseMeasure_sampleCount (s : State) : (phaseMeasure s).sampleCount = s.sampleCount := by cases s; rfl
@[simp] theorem phaseMeasure_acc (s : State) : (phaseMeasure s).acc = s.acc := by cases s; rfl
@[simp] theorem phaseMeasure_phase (s : State) :
    (phaseMeasure s).phase = toPhase (measuredPhase s.numerics s.draws s.sampleCount.toNat s.acc.pairs.p1) := by
  dsimp only [phaseMeasure]
@[simp] theorem phaseMeasure_phase2 (s : State) : (phaseMeasure s).phase2 = s.phase2 := by cases s; rfl
@[simp] theorem phaseMeasure_phase3 (s : State) : (phaseMeasure s).phase3 = s.phase3 := by cases s; rfl
@[simp] theorem phaseMeasure_skip (s : State) : (phaseMeasure s).skip = s.skip := by cases s; rfl
@[simp] theorem phaseMeasure_word (s : State) : (phaseMeasure s).word = s.word := by cases s; rfl
@[simp] theorem phaseMeasure_inputs (s : State) : (phaseMeasure s).inputs = s.inputs := by cases s; rfl
@[simp] theorem phaseMeasure_taken (s : State) : (phaseMeasure s).taken = s.taken := by cases s; rfl
@[simp] theorem phaseMeasure_responses (s : State) : (phaseMeasure s).responses = s.responses := by cases s; rfl
@[simp] theorem phaseMeasure_numerics (s : State) : (phaseMeasure s).numerics = s.numerics := by cases s; rfl
@[simp] theorem phaseMeasure_draws (s : State) : (phaseMeasure s).draws = s.draws := by cases s; rfl

/-! ## `phaseSyncGate` -/

@[simp] theorem phaseSyncGate_state (s : State) : (phaseSyncGate s).state = s.state := by cases s; rfl
@[simp] theorem phaseSyncGate_polarity (s : State) : (phaseSyncGate s).polarity = s.polarity := by cases s; rfl
@[simp] theorem phaseSyncGate_baseline (s : State) : (phaseSyncGate s).baseline = s.baseline := by cases s; rfl
@[simp] theorem phaseSyncGate_signalMin (s : State) : (phaseSyncGate s).signalMin = s.signalMin := by cases s; rfl
@[simp] theorem phaseSyncGate_signalMax (s : State) : (phaseSyncGate s).signalMax = s.signalMax := by cases s; rfl
@[simp] theorem phaseSyncGate_sampleCount (s : State) :
    (phaseSyncGate s).sampleCount = s.sampleCount := by cases s; rfl
@[simp] theorem phaseSyncGate_acc (s : State) : (phaseSyncGate s).acc = s.acc := by cases s; rfl
@[simp] theorem phaseSyncGate_phase (s : State) :
    (phaseSyncGate s).phase = if syncSet s.word then s.phase else 0#17 := by
  dsimp only [phaseSyncGate]
@[simp] theorem phaseSyncGate_phase2 (s : State) : (phaseSyncGate s).phase2 = s.phase2 := by cases s; rfl
@[simp] theorem phaseSyncGate_phase3 (s : State) : (phaseSyncGate s).phase3 = s.phase3 := by cases s; rfl
@[simp] theorem phaseSyncGate_skip (s : State) : (phaseSyncGate s).skip = s.skip := by cases s; rfl
@[simp] theorem phaseSyncGate_word (s : State) : (phaseSyncGate s).word = s.word := by cases s; rfl
@[simp] theorem phaseSyncGate_inputs (s : State) : (phaseSyncGate s).inputs = s.inputs := by cases s; rfl
@[simp] theorem phaseSyncGate_taken (s : State) : (phaseSyncGate s).taken = s.taken := by cases s; rfl
@[simp] theorem phaseSyncGate_responses (s : State) : (phaseSyncGate s).responses = s.responses := by cases s; rfl
@[simp] theorem phaseSyncGate_numerics (s : State) : (phaseSyncGate s).numerics = s.numerics := by cases s; rfl
@[simp] theorem phaseSyncGate_draws (s : State) : (phaseSyncGate s).draws = s.draws := by cases s; rfl

/-! ## `wordForm` -/

@[simp] theorem wordForm_state (s : State) : (wordForm s).state = s.state := by cases s; rfl
@[simp] theorem wordForm_polarity (s : State) : (wordForm s).polarity = s.polarity := by cases s; rfl
@[simp] theorem wordForm_baseline (s : State) : (wordForm s).baseline = s.baseline := by cases s; rfl
@[simp] theorem wordForm_signalMin (s : State) : (wordForm s).signalMin = s.signalMin := by cases s; rfl
@[simp] theorem wordForm_signalMax (s : State) : (wordForm s).signalMax = s.signalMax := by cases s; rfl
@[simp] theorem wordForm_sampleCount (s : State) : (wordForm s).sampleCount = s.sampleCount := by cases s; rfl
@[simp] theorem wordForm_acc (s : State) : (wordForm s).acc = s.acc := by cases s; rfl
@[simp] theorem wordForm_phase (s : State) : (wordForm s).phase = s.phase := by cases s; rfl
@[simp] theorem wordForm_phase2 (s : State) : (wordForm s).phase2 = s.phase2 := by cases s; rfl
@[simp] theorem wordForm_phase3 (s : State) : (wordForm s).phase3 = s.phase3 := by cases s; rfl
@[simp] theorem wordForm_skip (s : State) : (wordForm s).skip = s.skip := by cases s; rfl
@[simp] theorem wordForm_word (s : State) :
    (wordForm s).word = wordOf s.numerics s.draws s.acc.pairs := by
  dsimp only [wordForm]
@[simp] theorem wordForm_inputs (s : State) : (wordForm s).inputs = s.inputs := by cases s; rfl
@[simp] theorem wordForm_taken (s : State) : (wordForm s).taken = s.taken := by cases s; rfl
@[simp] theorem wordForm_responses (s : State) : (wordForm s).responses = s.responses := by cases s; rfl
@[simp] theorem wordForm_numerics (s : State) : (wordForm s).numerics = s.numerics := by cases s; rfl
@[simp] theorem wordForm_draws (s : State) : (wordForm s).draws = s.draws := by cases s; rfl

/-! ## `accReset` -/

@[simp] theorem accReset_state (s : State) : (accReset s).state = s.state := by cases s; rfl
@[simp] theorem accReset_polarity (s : State) : (accReset s).polarity = s.polarity := by cases s; rfl
@[simp] theorem accReset_baseline (s : State) : (accReset s).baseline = s.baseline := by cases s; rfl
@[simp] theorem accReset_signalMin (s : State) : (accReset s).signalMin = s.signalMin := by cases s; rfl
@[simp] theorem accReset_signalMax (s : State) : (accReset s).signalMax = s.signalMax := by cases s; rfl
@[simp] theorem accReset_sampleCount (s : State) : (accReset s).sampleCount = s.sampleCount := by cases s; rfl
@[simp] theorem accReset_acc (s : State) : (accReset s).acc = .zero := by
  dsimp only [accReset]
@[simp] theorem accReset_phase (s : State) : (accReset s).phase = s.phase := by cases s; rfl
@[simp] theorem accReset_phase2 (s : State) : (accReset s).phase2 = s.phase2 := by cases s; rfl
@[simp] theorem accReset_phase3 (s : State) : (accReset s).phase3 = s.phase3 := by cases s; rfl
@[simp] theorem accReset_skip (s : State) : (accReset s).skip = s.skip := by cases s; rfl
@[simp] theorem accReset_word (s : State) : (accReset s).word = s.word := by cases s; rfl
@[simp] theorem accReset_inputs (s : State) : (accReset s).inputs = s.inputs := by cases s; rfl
@[simp] theorem accReset_taken (s : State) : (accReset s).taken = s.taken := by cases s; rfl
@[simp] theorem accReset_responses (s : State) : (accReset s).responses = s.responses := by cases s; rfl
@[simp] theorem accReset_numerics (s : State) : (accReset s).numerics = s.numerics := by cases s; rfl
@[simp] theorem accReset_draws (s : State) : (accReset s).draws = s.draws := by cases s; rfl

/-! ## `State.resetRegisters` -/

@[simp] theorem State.resetRegisters_state (s : State) : s.resetRegisters.state = State.reset.state := by
  simp only [State.resetRegisters]
@[simp] theorem State.resetRegisters_polarity (s : State) : s.resetRegisters.polarity = State.reset.polarity := by
  simp only [State.resetRegisters]
@[simp] theorem State.resetRegisters_baseline (s : State) : s.resetRegisters.baseline = State.reset.baseline := by
  simp only [State.resetRegisters]
@[simp] theorem State.resetRegisters_signalMin (s : State) : s.resetRegisters.signalMin = State.reset.signalMin := by
  simp only [State.resetRegisters]
@[simp] theorem State.resetRegisters_signalMax (s : State) : s.resetRegisters.signalMax = State.reset.signalMax := by
  simp only [State.resetRegisters]
@[simp] theorem State.resetRegisters_sampleCount (s : State) : s.resetRegisters.sampleCount = State.reset.sampleCount := by
  simp only [State.resetRegisters]
@[simp] theorem State.resetRegisters_acc (s : State) : s.resetRegisters.acc = State.reset.acc := by
  simp only [State.resetRegisters]
@[simp] theorem State.resetRegisters_phase (s : State) : s.resetRegisters.phase = State.reset.phase := by
  simp only [State.resetRegisters]
@[simp] theorem State.resetRegisters_phase2 (s : State) : s.resetRegisters.phase2 = State.reset.phase2 := by
  simp only [State.resetRegisters]
@[simp] theorem State.resetRegisters_phase3 (s : State) : s.resetRegisters.phase3 = State.reset.phase3 := by
  simp only [State.resetRegisters]
@[simp] theorem State.resetRegisters_skip (s : State) : s.resetRegisters.skip = State.reset.skip := by
  simp only [State.resetRegisters]
@[simp] theorem State.resetRegisters_word (s : State) : s.resetRegisters.word = State.reset.word := by
  simp only [State.resetRegisters]
@[simp] theorem State.resetRegisters_inputs (s : State) : s.resetRegisters.inputs = s.inputs := by
  simp only [State.resetRegisters]
@[simp] theorem State.resetRegisters_taken (s : State) : s.resetRegisters.taken = s.taken := by
  simp only [State.resetRegisters]
@[simp] theorem State.resetRegisters_responses (s : State) : s.resetRegisters.responses = s.responses := by
  simp only [State.resetRegisters]
@[simp] theorem State.resetRegisters_numerics (s : State) : s.resetRegisters.numerics = s.numerics := by
  simp only [State.resetRegisters]
@[simp] theorem State.resetRegisters_draws (s : State) : s.resetRegisters.draws = s.draws := by
  simp only [State.resetRegisters]

/-! ## `State.takeResponse` -/

@[simp] theorem State.takeResponse_state (s : State) : s.takeResponse.state = s.state := by
  unfold State.takeResponse; split <;> rfl
@[simp] theorem State.takeResponse_polarity (s : State) : s.takeResponse.polarity = s.polarity := by
  unfold State.takeResponse; split <;> rfl
@[simp] theorem State.takeResponse_baseline (s : State) : s.takeResponse.baseline = s.baseline := by
  unfold State.takeResponse; split <;> rfl
@[simp] theorem State.takeResponse_signalMin (s : State) : s.takeResponse.signalMin = s.signalMin := by
  unfold State.takeResponse; split <;> rfl
@[simp] theorem State.takeResponse_signalMax (s : State) : s.takeResponse.signalMax = s.signalMax := by
  unfold State.takeResponse; split <;> rfl
@[simp] theorem State.takeResponse_sampleCount (s : State) : s.takeResponse.sampleCount = s.sampleCount := by
  unfold State.takeResponse; split <;> rfl
@[simp] theorem State.takeResponse_acc (s : State) : s.takeResponse.acc = s.acc := by
  unfold State.takeResponse; split <;> rfl
@[simp] theorem State.takeResponse_phase (s : State) : s.takeResponse.phase = s.phase := by
  unfold State.takeResponse; split <;> rfl
@[simp] theorem State.takeResponse_phase2 (s : State) : s.takeResponse.phase2 = s.phase2 := by
  unfold State.takeResponse; split <;> rfl
@[simp] theorem State.takeResponse_phase3 (s : State) : s.takeResponse.phase3 = s.phase3 := by
  unfold State.takeResponse; split <;> rfl
@[simp] theorem State.takeResponse_skip (s : State) : s.takeResponse.skip = s.skip := by
  unfold State.takeResponse; split <;> rfl
@[simp] theorem State.takeResponse_word (s : State) : s.takeResponse.word = s.word := by
  unfold State.takeResponse; split <;> rfl
@[simp] theorem State.takeResponse_inputs (s : State) : s.takeResponse.inputs = s.inputs := by
  unfold State.takeResponse; split <;> rfl
@[simp] theorem State.takeResponse_numerics (s : State) : s.takeResponse.numerics = s.numerics := by
  unfold State.takeResponse; split <;> rfl
@[simp] theorem State.takeResponse_draws (s : State) : s.takeResponse.draws = s.draws := by
  unfold State.takeResponse; split <;> rfl

/-- A response taken is the oldest one: the responses in all stay the same, in the same order. -/
theorem State.takeResponse_sent (s : State) :
    s.takeResponse.taken ++ s.takeResponse.responses = s.taken ++ s.responses := by
  unfold State.takeResponse
  split
  · rfl
  · rename_i h; simp [h]

/-! ## `addSample` -/

@[simp] theorem addSample_state (x : Rat) (s : State) : (addSample x s).state = s.state := by
  simp only [addSample]; split <;> rfl
@[simp] theorem addSample_polarity (x : Rat) (s : State) : (addSample x s).polarity = s.polarity := by
  simp only [addSample]; split <;> rfl
@[simp] theorem addSample_baseline (x : Rat) (s : State) : (addSample x s).baseline = s.baseline := by
  simp only [addSample]; split <;> rfl
@[simp] theorem addSample_signalMin (x : Rat) (s : State) : (addSample x s).signalMin = s.signalMin := by
  simp only [addSample]; split <;> rfl
@[simp] theorem addSample_signalMax (x : Rat) (s : State) : (addSample x s).signalMax = s.signalMax := by
  simp only [addSample]; split <;> rfl
@[simp] theorem addSample_sampleCount (x : Rat) (s : State) : (addSample x s).sampleCount = s.sampleCount := by
  simp only [addSample]; split <;> rfl
@[simp] theorem addSample_phase (x : Rat) (s : State) : (addSample x s).phase = s.phase := by
  simp only [addSample]; split <;> rfl
@[simp] theorem addSample_phase2 (x : Rat) (s : State) : (addSample x s).phase2 = s.phase2 := by
  simp only [addSample]; split <;> rfl
@[simp] theorem addSample_phase3 (x : Rat) (s : State) : (addSample x s).phase3 = s.phase3 := by
  simp only [addSample]; split <;> rfl
@[simp] theorem addSample_skip (x : Rat) (s : State) : (addSample x s).skip = s.skip := by
  simp only [addSample]; split <;> rfl
@[simp] theorem addSample_word (x : Rat) (s : State) : (addSample x s).word = s.word := by
  simp only [addSample]; split <;> rfl
@[simp] theorem addSample_inputs (x : Rat) (s : State) : (addSample x s).inputs = s.inputs := by
  simp only [addSample]; split <;> rfl
@[simp] theorem addSample_taken (x : Rat) (s : State) : (addSample x s).taken = s.taken := by
  simp only [addSample]; split <;> rfl
@[simp] theorem addSample_responses (x : Rat) (s : State) : (addSample x s).responses = s.responses := by
  simp only [addSample]; split <;> rfl
@[simp] theorem addSample_numerics (x : Rat) (s : State) : (addSample x s).numerics = s.numerics := by
  simp only [addSample]; split <;> rfl

/-! ## `symbolDrawn` -/

@[simp] theorem symbolDrawn_state (s : State) : (symbolDrawn s).state = s.state := by
  unfold symbolDrawn; split <;> simp only [State.drawn_state]
@[simp] theorem symbolDrawn_polarity (s : State) : (symbolDrawn s).polarity = s.polarity := by
  unfold symbolDrawn; split <;> simp only [State.drawn_polarity]
@[simp] theorem symbolDrawn_baseline (s : State) : (symbolDrawn s).baseline = s.baseline := by
  unfold symbolDrawn; split <;> simp only [State.drawn_baseline]
@[simp] theorem symbolDrawn_signalMin (s : State) : (symbolDrawn s).signalMin = s.signalMin := by
  unfold symbolDrawn; split <;> simp only [State.drawn_signalMin]
@[simp] theorem symbolDrawn_signalMax (s : State) : (symbolDrawn s).signalMax = s.signalMax := by
  unfold symbolDrawn; split <;> simp only [State.drawn_signalMax]
@[simp] theorem symbolDrawn_sampleCount (s : State) : (symbolDrawn s).sampleCount = s.sampleCount := by
  unfold symbolDrawn; split <;> simp only [State.drawn_sampleCount]
@[simp] theorem symbolDrawn_acc (s : State) : (symbolDrawn s).acc = s.acc := by
  unfold symbolDrawn; split <;> simp only [State.drawn_acc]
@[simp] theorem symbolDrawn_phase (s : State) : (symbolDrawn s).phase = s.phase := by
  unfold symbolDrawn; split <;> simp only [State.drawn_phase]
@[simp] theorem symbolDrawn_phase2 (s : State) : (symbolDrawn s).phase2 = s.phase2 := by
  unfold symbolDrawn; split <;> simp only [State.drawn_phase2]
@[simp] theorem symbolDrawn_phase3 (s : State) : (symbolDrawn s).phase3 = s.phase3 := by
  unfold symbolDrawn; split <;> simp only [State.drawn_phase3]
@[simp] theorem symbolDrawn_skip (s : State) : (symbolDrawn s).skip = s.skip := by
  unfold symbolDrawn; split <;> simp only [State.drawn_skip]
@[simp] theorem symbolDrawn_word (s : State) : (symbolDrawn s).word = s.word := by
  unfold symbolDrawn; split <;> simp only [State.drawn_word]
@[simp] theorem symbolDrawn_inputs (s : State) : (symbolDrawn s).inputs = s.inputs := by
  unfold symbolDrawn; split <;> simp only [State.drawn_inputs]
@[simp] theorem symbolDrawn_taken (s : State) : (symbolDrawn s).taken = s.taken := by
  unfold symbolDrawn; split <;> simp only [State.drawn_taken]
@[simp] theorem symbolDrawn_responses (s : State) : (symbolDrawn s).responses = s.responses := by
  unfold symbolDrawn; split <;> simp only [State.drawn_responses]
@[simp] theorem symbolDrawn_numerics (s : State) : (symbolDrawn s).numerics = s.numerics := by
  unfold symbolDrawn; split <;> simp only [State.drawn_numerics]

/-! ## `calDecide` -/

@[simp] theorem calDecide_polarity (s : State) : ((calDecide s).2).polarity = s.polarity := by
  unfold calDecide; split <;> [rfl; (split <;> rfl)]
@[simp] theorem calDecide_baseline (s : State) : ((calDecide s).2).baseline = s.baseline := by
  unfold calDecide; split <;> [rfl; (split <;> rfl)]
@[simp] theorem calDecide_signalMin (s : State) : ((calDecide s).2).signalMin = s.signalMin := by
  unfold calDecide; split <;> [rfl; (split <;> rfl)]
@[simp] theorem calDecide_signalMax (s : State) : ((calDecide s).2).signalMax = s.signalMax := by
  unfold calDecide; split <;> [rfl; (split <;> rfl)]
@[simp] theorem calDecide_sampleCount (s : State) : ((calDecide s).2).sampleCount = s.sampleCount := by
  unfold calDecide; split <;> [rfl; (split <;> rfl)]
@[simp] theorem calDecide_acc (s : State) : ((calDecide s).2).acc = s.acc := by
  unfold calDecide; split <;> [rfl; (split <;> rfl)]
@[simp] theorem calDecide_phase (s : State) : ((calDecide s).2).phase = s.phase := by
  unfold calDecide; split <;> [rfl; (split <;> rfl)]
@[simp] theorem calDecide_phase2 (s : State) : ((calDecide s).2).phase2 = s.phase2 := by
  unfold calDecide; split <;> [rfl; (split <;> rfl)]
@[simp] theorem calDecide_phase3 (s : State) : ((calDecide s).2).phase3 = s.phase3 := by
  unfold calDecide; split <;> [rfl; (split <;> rfl)]
@[simp] theorem calDecide_skip (s : State) : ((calDecide s).2).skip = s.skip := by
  unfold calDecide; split <;> [rfl; (split <;> rfl)]
@[simp] theorem calDecide_word (s : State) : ((calDecide s).2).word = s.word := by
  unfold calDecide; split <;> [rfl; (split <;> rfl)]
@[simp] theorem calDecide_inputs (s : State) : ((calDecide s).2).inputs = s.inputs := by
  unfold calDecide; split <;> [rfl; (split <;> rfl)]
@[simp] theorem calDecide_taken (s : State) : ((calDecide s).2).taken = s.taken := by
  unfold calDecide; split <;> [rfl; (split <;> rfl)]
@[simp] theorem calDecide_responses (s : State) : ((calDecide s).2).responses = s.responses := by
  unfold calDecide; split <;> [rfl; (split <;> rfl)]
@[simp] theorem calDecide_numerics (s : State) : ((calDecide s).2).numerics = s.numerics := by
  unfold calDecide; split <;> [rfl; (split <;> rfl)]
@[simp] theorem calDecide_draws (s : State) : ((calDecide s).2).draws = s.draws := by
  unfold calDecide; split <;> [rfl; (split <;> rfl)]

/-! ## `dataDecide` -/

@[simp] theorem dataDecide_polarity (s : State) : ((dataDecide s).2).polarity = s.polarity := by
  unfold dataDecide; split <;> rfl
@[simp] theorem dataDecide_baseline (s : State) : ((dataDecide s).2).baseline = s.baseline := by
  unfold dataDecide; split <;> rfl
@[simp] theorem dataDecide_signalMin (s : State) : ((dataDecide s).2).signalMin = s.signalMin := by
  unfold dataDecide; split <;> rfl
@[simp] theorem dataDecide_signalMax (s : State) : ((dataDecide s).2).signalMax = s.signalMax := by
  unfold dataDecide; split <;> rfl
@[simp] theorem dataDecide_sampleCount (s : State) : ((dataDecide s).2).sampleCount = s.sampleCount := by
  unfold dataDecide; split <;> rfl
@[simp] theorem dataDecide_acc (s : State) : ((dataDecide s).2).acc = s.acc := by
  unfold dataDecide; split <;> rfl
@[simp] theorem dataDecide_phase (s : State) : ((dataDecide s).2).phase = s.phase := by
  unfold dataDecide; split <;> rfl
@[simp] theorem dataDecide_phase2 (s : State) : ((dataDecide s).2).phase2 = s.phase2 := by
  unfold dataDecide; split <;> rfl
@[simp] theorem dataDecide_phase3 (s : State) : ((dataDecide s).2).phase3 = s.phase3 := by
  unfold dataDecide; split <;> rfl
@[simp] theorem dataDecide_skip (s : State) : ((dataDecide s).2).skip = s.skip := by
  unfold dataDecide; split <;> rfl
@[simp] theorem dataDecide_word (s : State) : ((dataDecide s).2).word = s.word := by
  unfold dataDecide; split <;> rfl
@[simp] theorem dataDecide_inputs (s : State) : ((dataDecide s).2).inputs = s.inputs := by
  unfold dataDecide; split <;> rfl
@[simp] theorem dataDecide_taken (s : State) : ((dataDecide s).2).taken = s.taken := by
  unfold dataDecide; split <;> rfl
@[simp] theorem dataDecide_responses (s : State) : ((dataDecide s).2).responses = s.responses := by
  unfold dataDecide; split <;> rfl
@[simp] theorem dataDecide_numerics (s : State) : ((dataDecide s).2).numerics = s.numerics := by
  unfold dataDecide; split <;> rfl
@[simp] theorem dataDecide_draws (s : State) : ((dataDecide s).2).draws = s.draws := by
  unfold dataDecide; split <;> rfl

/-! ## `condNormalize` -/

@[simp] theorem condNormalize_state (x : Sample) (s : State) : ((condNormalize x s).2).state = s.state := by
  unfold condNormalize; split <;> simp only [State.drawn_state]
@[simp] theorem condNormalize_polarity (x : Sample) (s : State) : ((condNormalize x s).2).polarity = s.polarity := by
  unfold condNormalize; split <;> simp only [State.drawn_polarity]
@[simp] theorem condNormalize_baseline (x : Sample) (s : State) : ((condNormalize x s).2).baseline = s.baseline := by
  unfold condNormalize; split <;> simp only [State.drawn_baseline]
@[simp] theorem condNormalize_signalMin (x : Sample) (s : State) : ((condNormalize x s).2).signalMin = s.signalMin := by
  unfold condNormalize; split <;> simp only [State.drawn_signalMin]
@[simp] theorem condNormalize_signalMax (x : Sample) (s : State) : ((condNormalize x s).2).signalMax = s.signalMax := by
  unfold condNormalize; split <;> simp only [State.drawn_signalMax]
@[simp] theorem condNormalize_sampleCount (x : Sample) (s : State) : ((condNormalize x s).2).sampleCount = s.sampleCount := by
  unfold condNormalize; split <;> simp only [State.drawn_sampleCount]
@[simp] theorem condNormalize_acc (x : Sample) (s : State) : ((condNormalize x s).2).acc = s.acc := by
  unfold condNormalize; split <;> simp only [State.drawn_acc]
@[simp] theorem condNormalize_phase (x : Sample) (s : State) : ((condNormalize x s).2).phase = s.phase := by
  unfold condNormalize; split <;> simp only [State.drawn_phase]
@[simp] theorem condNormalize_phase2 (x : Sample) (s : State) : ((condNormalize x s).2).phase2 = s.phase2 := by
  unfold condNormalize; split <;> simp only [State.drawn_phase2]
@[simp] theorem condNormalize_phase3 (x : Sample) (s : State) : ((condNormalize x s).2).phase3 = s.phase3 := by
  unfold condNormalize; split <;> simp only [State.drawn_phase3]
@[simp] theorem condNormalize_skip (x : Sample) (s : State) : ((condNormalize x s).2).skip = s.skip := by
  unfold condNormalize; split <;> simp only [State.drawn_skip]
@[simp] theorem condNormalize_word (x : Sample) (s : State) : ((condNormalize x s).2).word = s.word := by
  unfold condNormalize; split <;> simp only [State.drawn_word]
@[simp] theorem condNormalize_inputs (x : Sample) (s : State) : ((condNormalize x s).2).inputs = s.inputs := by
  unfold condNormalize; split <;> simp only [State.drawn_inputs]
@[simp] theorem condNormalize_taken (x : Sample) (s : State) : ((condNormalize x s).2).taken = s.taken := by
  unfold condNormalize; split <;> simp only [State.drawn_taken]
@[simp] theorem condNormalize_responses (x : Sample) (s : State) : ((condNormalize x s).2).responses = s.responses := by
  unfold condNormalize; split <;> simp only [State.drawn_responses]
@[simp] theorem condNormalize_numerics (x : Sample) (s : State) : ((condNormalize x s).2).numerics = s.numerics := by
  unfold condNormalize; split <;> simp only [State.drawn_numerics]

/-! ## `driftRule` -/

@[simp] theorem driftRule_state (s : State) : (driftRule s).state = s.state := by
  unfold driftRule; split <;> simp only [phaseShift_state, driftSuppress_state, driftCorrect_state]
@[simp] theorem driftRule_polarity (s : State) : (driftRule s).polarity = s.polarity := by
  unfold driftRule; split <;> simp only [phaseShift_polarity, driftSuppress_polarity, driftCorrect_polarity]
@[simp] theorem driftRule_baseline (s : State) : (driftRule s).baseline = s.baseline := by
  unfold driftRule; split <;> simp only [phaseShift_baseline, driftSuppress_baseline, driftCorrect_baseline]
@[simp] theorem driftRule_signalMin (s : State) : (driftRule s).signalMin = s.signalMin := by
  unfold driftRule; split <;> simp only [phaseShift_signalMin, driftSuppress_signalMin, driftCorrect_signalMin]
@[simp] theorem driftRule_signalMax (s : State) : (driftRule s).signalMax = s.signalMax := by
  unfold driftRule; split <;> simp only [phaseShift_signalMax, driftSuppress_signalMax, driftCorrect_signalMax]
@[simp] theorem driftRule_acc (s : State) : (driftRule s).acc = s.acc := by
  unfold driftRule; split <;> simp only [phaseShift_acc, driftSuppress_acc, driftCorrect_acc]
@[simp] theorem driftRule_phase (s : State) : (driftRule s).phase = s.phase := by
  unfold driftRule; split <;> simp only [phaseShift_phase, driftSuppress_phase, driftCorrect_phase]
@[simp] theorem driftRule_skip (s : State) : (driftRule s).skip = s.skip := by
  unfold driftRule; split <;> simp only [phaseShift_skip, driftSuppress_skip, driftCorrect_skip]
@[simp] theorem driftRule_word (s : State) : (driftRule s).word = s.word := by
  unfold driftRule; split <;> simp only [phaseShift_word, driftSuppress_word, driftCorrect_word]
@[simp] theorem driftRule_inputs (s : State) : (driftRule s).inputs = s.inputs := by
  unfold driftRule; split <;> simp only [phaseShift_inputs, driftSuppress_inputs, driftCorrect_inputs]
@[simp] theorem driftRule_taken (s : State) : (driftRule s).taken = s.taken := by
  unfold driftRule; split <;> simp only [phaseShift_taken, driftSuppress_taken, driftCorrect_taken]
@[simp] theorem driftRule_responses (s : State) : (driftRule s).responses = s.responses := by
  unfold driftRule; split <;> simp only [phaseShift_responses, driftSuppress_responses, driftCorrect_responses]
@[simp] theorem driftRule_numerics (s : State) : (driftRule s).numerics = s.numerics := by
  unfold driftRule; split <;> simp only [phaseShift_numerics, driftSuppress_numerics, driftCorrect_numerics]
@[simp] theorem driftRule_draws (s : State) : (driftRule s).draws = s.draws := by
  unfold driftRule; split <;> simp only [phaseShift_draws, driftSuppress_draws, driftCorrect_draws]

end Sys2Proof.Machine
end

