-- ==== Sys2Proof/Laws/Ports.lean ====
section
/-!
SUPPORT. The two ports: which of the host's acts a step takes, and when the core accepts commands (30_encoding.md rule R70,
70_reset_and_hazards.md rule R265).
-/

namespace Sys2Proof.Machine

/-! ## The host's next act -/

/-- While the core accepts commands, the host's acts come in their order. -/
@[simp] theorem nextInput_ready (e : HostInput) (rest : List HostInput) :
    nextInput true (e :: rest) = some (e, rest) := by
  cases e <;> simp [nextInput]

/-- The reset input never waits. -/
@[simp] theorem nextInput_resetInput (b : Bool) (cut : List Word) (rest : List HostInput) :
    nextInput b (.resetInput cut :: rest) = some (.resetInput cut, rest) := rfl

/-- Taking a response never waits. -/
@[simp] theorem nextInput_take (b : Bool) (rest : List HostInput) :
    nextInput b (.take :: rest) = some (.take, rest) := rfl

@[simp] theorem nextInput_idle (b : Bool) (rest : List HostInput) :
    nextInput b (.idle :: rest) = some (.idle, rest) := rfl

/-- A command word is accepted only while the core accepts commands, and only the first. -/
theorem nextInput_command {b : Bool} {l rest : List HostInput} {w : Word}
    (h : nextInput b l = some (.command w, rest)) : b = true ∧ l = .command w :: rest := by
  cases b with
  | true =>
    cases l with
    | nil => cases h
    | cons e m =>
      rw [nextInput_ready] at h
      injection h with h
      injection h with h1 h2
      exact ⟨rfl, by rw [h1, h2]⟩
  | false =>
    exfalso
    induction l generalizing rest with
    | nil => cases h
    | cons e m ih =>
      cases e with
      | command v =>
        simp only [nextInput, Bool.false_eq_true, if_false, Option.map_eq_some_iff] at h
        obtain ⟨p, hp, hq⟩ := h
        injection hq with h1 h2
        exact ih (hp.trans (by rw [← h1]))
      | take => simp at h
      | resetInput cut => simp at h
      | idle => simp at h

/-- The command words keep their order, whatever goes ahead of them. -/
theorem nextInput_commandWords {b : Bool} {l rest : List HostInput} {e : HostInput}
    (h : nextInput b l = some (e, rest)) : commandWords l = commandWords (e :: rest) := by
  induction l generalizing rest with
  | nil => cases h
  | cons a m ih =>
    cases b with
    | true =>
      rw [nextInput_ready] at h
      injection h with h
      injection h with h1 h2
      rw [h1, h2]
    | false =>
      cases a with
      | command v =>
        simp only [nextInput, Bool.false_eq_true, if_false, Option.map_eq_some_iff] at h
        obtain ⟨p, hp, hq⟩ := h
        injection hq with h1 h2
        have := ih (hp.trans (by rw [← h1] : some p = some (e, p.2)))
        cases e with
        | command v' => exact absurd (nextInput_command (hp.trans (by rw [← h1] : some p = some (_, p.2)))).1 (by simp)
        | take => rw [← h2]; simpa [commandWords] using this
        | resetInput cut => rw [← h2]; simpa [commandWords] using this
        | idle => rw [← h2]; simpa [commandWords] using this
      | take => rw [nextInput_take] at h; injection h with h; injection h with h1 h2; rw [h1, h2]
      | resetInput cut => rw [nextInput_resetInput] at h; injection h with h; injection h with h1 h2; rw [h1, h2]
      | idle => rw [nextInput_idle] at h; injection h with h; injection h with h1 h2; rw [h1, h2]

/-- A core that does not accept commands waits where the host has only command words to offer. -/
theorem nextInput_stopped (ws : List Word) : nextInput false (ws.map .command) = none := by
  induction ws with
  | nil => rfl
  | cons w ws ih => simp [nextInput, ih]

/-! ## Accepting commands -/

theorem State.ready_of_untaken_nil {s : State} (h : s.responses = []) : s.ready = true := by
  simp only [State.ready, h]

/-- What accepting commands means in numbers (R265, log 23). -/
theorem State.ready_iff (s : State) : s.ready = true ↔ s.responses.length ≤ Config.commandBuffer := by
  unfold State.ready
  split
  · rename_i h; simp [h]
  · rename_i h; rw [h, List.length_cons, decide_eq_true_iff, Nat.lt_iff_add_one_le]

end Sys2Proof.Machine
end

