-- ==== Sys2Proof/Laws/Decode.lean ====
section
/-!
SUPPORT. The encodings as masks and matches, and what each decoder answers, said once (30_encoding.md rules R72 to R78).
-/

namespace Sys2Proof

/-! ## The command word -/

theorem mask_bit (w : Word) (i : Nat) (hi : i < 16) :
    (w &&& 0xF800#16).getLsbD i = (w.getLsbD i && decide (11 ≤ i)) := by
  rw [BitVec.getLsbD_and]
  congr 1
  revert i
  decide

/-- The mask of R72 reads the fields CMD and RSV. -/
theorem feedMask_iff (w : Word) : w &&& 0xF800#16 = 0#16 ↔ cmdField w = 0#2 ∧ rsvField w = 0#3 := by
  unfold cmdField rsvField
  constructor
  · intro h
    have hb : ∀ i, 11 ≤ i → i < 16 → w.getLsbD i = false := by
      intro i h1 h2
      have := mask_bit w i h2
      rw [h] at this
      simpa [h1] using this.symm
    constructor <;> apply BitVec.eq_of_getLsbD_eq <;> intro i hi <;>
      rw [BitVec.getLsbD_extractLsb', hb _ (by omega) (by omega)] <;> simp
  · rintro ⟨h1, h2⟩
    apply BitVec.eq_of_getLsbD_eq
    intro i hi
    rw [mask_bit w i hi]
    by_cases h11 : 11 ≤ i
    · by_cases h14 : 14 ≤ i
      · have := congrArg (fun v => v.getLsbD (i - 14)) h1
        simp only [BitVec.getLsbD_extractLsb', show 14 + (i - 14) = i by omega] at this
        simp at this ⊢
        intro e
        simp [this (by omega)] at e
      · have := congrArg (fun v => v.getLsbD (i - 11)) h2
        simp only [BitVec.getLsbD_extractLsb', show 11 + (i - 11) = i by omega] at this
        simp at this ⊢
        intro e
        simp [this (by omega)] at e
    · simp [h11]

/-- The single encoding of RESET (R73) by its fields. -/
theorem resetWord_iff (w : Word) : w = 0x4000#16 ↔ cmdField w = 1#2 ∧ lowField w = 0#14 := by
  unfold cmdField lowField
  constructor
  · rintro rfl; decide
  · rintro ⟨h1, h2⟩
    have e1 := congrArg BitVec.toNat h1
    have e2 := congrArg BitVec.toNat h2
    simp [BitVec.extractLsb'_toNat] at e1 e2
    apply BitVec.eq_of_toNat_eq
    have := w.isLt
    simp
    omega

theorem sampleField_eq (w : Word) : sampleField w = w.setWidth 11 := by
  unfold sampleField
  apply BitVec.eq_of_getLsbD_eq
  intro i hi
  simp

/-- The word of a FEED is its sample, zero-extended (R72). -/
theorem encodeFeed_eq (x : Sample) : encodeFeed x = x.setWidth 16 := by
  unfold encodeFeed
  apply BitVec.eq_of_getLsbD_eq
  intro i hi
  rw [BitVec.getLsbD_append]
  by_cases h : i < 11
  · simp [h, hi]
  · simp [h]
    rw [BitVec.getLsbD_of_ge x i (by omega)]
    have : i - 11 < 5 := by omega
    interval_cases (i - 11) <;> exact fun _ => rfl

theorem feedWord_masked (x : Sample) : x.setWidth 16 &&& 0xF800#16 = 0#16 := by
  apply BitVec.eq_of_getLsbD_eq
  intro i hi
  rw [mask_bit _ i hi]
  by_cases h : i < 11
  · simp; omega
  · simp
    intro _
    exact fun e => absurd e (by rw [BitVec.getLsbD_of_ge x i (by omega)]; simp)

theorem feedWord_sample (x : Sample) : (x.setWidth 16).setWidth 11 = x := by
  apply BitVec.eq_of_getLsbD_eq
  intro i hi
  simp [hi]

/-- A word under the mask of R72 is its own low 11 bits. -/
theorem feedWord_of_masked {w : Word} (h : w &&& 0xF800#16 = 0#16) : (w.setWidth 11).setWidth 16 = w := by
  apply BitVec.eq_of_getLsbD_eq
  intro j hj
  have := mask_bit w j hj
  rw [h] at this
  simp only [BitVec.getLsbD_setWidth, hj, decide_true, Bool.true_and]
  by_cases hh : j < 11
  · simp [hh]
  · have h11 : 11 ≤ j := by omega
    simp [h11] at this
    simp [hh]
    simpa using this.symm

/-! ## Decoding a command word -/

theorem decodeCommand_feed {w : Word} (d : DecState) (h : w &&& 0xF800#16 = 0#16) :
    decodeCommand d w = .instr (feedIn d (w.setWidth 11)) := by
  obtain ⟨h1, h2⟩ := (feedMask_iff w).mp h
  simp [decodeCommand, h1, h2, sampleField_eq]

theorem decodeCommand_reset (d : DecState) : decodeCommand d 0x4000#16 = .instr .reset := by
  cases d <;> decide

theorem decodeCommand_reserved {w : Word} (d : DecState) (h : w &&& 0xF800#16 ≠ 0#16) (h' : w ≠ 0x4000#16) :
    ∃ why, decodeCommand d w = .reserved why := by
  rw [Ne, feedMask_iff] at h
  rw [Ne, resetWord_iff] at h'
  unfold decodeCommand
  split_ifs <;> first | exact ⟨_, rfl⟩ | (exfalso; tauto)

/-- What a word that decodes to an instruction is. -/
theorem decodeCommand_instr {d : DecState} {w : Word} {i : Instr} (h : decodeCommand d w = .instr i) :
    (w &&& 0xF800#16 = 0#16 ∧ i = feedIn d (w.setWidth 11)) ∨ (w = 0x4000#16 ∧ i = .reset) := by
  by_cases h1 : w &&& 0xF800#16 = 0#16
  · left
    rw [decodeCommand_feed d h1] at h
    injection h with h
    exact ⟨h1, h.symm⟩
  · right
    by_cases h2 : w = 0x4000#16
    · subst h2
      rw [decodeCommand_reset] at h
      injection h with h
      exact ⟨rfl, h.symm⟩
    · obtain ⟨why, e⟩ := decodeCommand_reserved d h1 h2
      rw [e] at h
      cases h

/-! ## The dispatch key -/

theorem keyState_append (c : BitVec 3) (w : Word) : keyState (c ++ w : Key) = c := by
  unfold keyState
  apply BitVec.eq_of_getLsbD_eq
  intro i hi
  rw [BitVec.getLsbD_extractLsb', BitVec.getLsbD_append]
  simp [hi]

theorem keyCommand_append (c : BitVec 3) (w : Word) : keyCommand (c ++ w : Key) = w := by
  unfold keyCommand
  apply BitVec.eq_of_getLsbD_eq
  intro i hi
  rw [BitVec.getLsbD_extractLsb', BitVec.getLsbD_append]
  simp [hi]

theorem key_append (k : Key) : keyState k ++ keyCommand k = k := by
  unfold keyState keyCommand
  apply BitVec.eq_of_getLsbD_eq
  intro i hi
  rw [BitVec.getLsbD_append]
  by_cases h : i < 16
  · simp [h]
  · simp [h]
    simp at hi
    rw [show 16 + (i - 16) = i by omega]
    simp
    omega

theorem DecState.ofCode_code (d : DecState) : DecState.ofCode d.code = some d := by cases d <;> rfl

theorem DecState.ofCode_eq_some {c : BitVec 3} {d : DecState} : DecState.ofCode c = some d ↔ c = d.code := by
  constructor
  · intro h
    unfold DecState.ofCode at h
    split_ifs at h <;> (injection h with h; subst h; assumption)
  · rintro rfl
    exact DecState.ofCode_code d

/-- In a state that the core can be in, the key decodes as its command word does in that state. -/
theorem decodeKey_dispatchKey (d : DecState) (w : Word) : decodeKey (dispatchKey d w) = decodeCommand d w := by
  simp [decodeKey, dispatchKey, keyState_append, keyCommand_append, DecState.ofCode_code]

theorem feedIn_state (d : DecState) (x : Sample) : (feedIn d x).state = some d := by cases d <;> rfl

theorem encodeCommand_feedIn (d : DecState) (x : Sample) : encodeCommand (feedIn d x) = x.setWidth 16 := by
  rw [← encodeFeed_eq]
  cases d <;> rfl

theorem feedIn_ne_reset (d : DecState) (x : Sample) : feedIn d x ≠ .reset := by cases d <;> simp [feedIn]

/-- What a key that decodes to an instruction is (R78). -/
theorem decodeKey_eq_instr {k : Key} {i : Instr} : decodeKey k = .instr i ↔
    (∃ d, keyState k = d.code ∧ keyCommand k &&& 0xF800#16 = 0#16 ∧ i = feedIn d ((keyCommand k).setWidth 11))
      ∨ (keyCommand k = 0x4000#16 ∧ i = .reset) := by
  unfold decodeKey
  constructor
  · intro h
    cases hd : DecState.ofCode (keyState k) with
    | some d =>
      rw [hd] at h
      rcases decodeCommand_instr h with ⟨h1, h2⟩ | h
      · exact Or.inl ⟨d, DecState.ofCode_eq_some.mp hd, h1, h2⟩
      · exact Or.inr h
    | none =>
      rw [hd] at h
      simp only [] at h
      cases hc : decodeCommand .init (keyCommand k) with
      | instr j =>
        rw [hc] at h
        rcases decodeCommand_instr hc with ⟨_, h2⟩ | ⟨h1, h2⟩
        · subst h2; simp [feedIn] at h
        · subst h2; simp at h; exact Or.inr ⟨h1, h.symm⟩
      | reserved e => rw [hc] at h; cases h
  · rintro (⟨d, h1, h2, h3⟩ | ⟨h1, h2⟩)
    · rw [h1, DecState.ofCode_code]
      simp only []
      rw [decodeCommand_feed d h2, h3]
    · rw [h1, h2]
      cases hd : DecState.ofCode (keyState k) with
      | some d => exact decodeCommand_reset d
      | none => simp only []; rw [decodeCommand_reset]

namespace Machine

/-! ## The step -/

theorem commandAt_eq (s : State) (w : Word) : commandAt s w = decodeCommand s.state w := decodeKey_dispatchKey _ _

/-- Everything a step can do: wait, let an idle step pass, let the host take a response, reset on the reset input, answer
a reserved word, run a FEED in the state it finds, or run a RESET. It does the last three only while the core accepts
commands. -/
theorem step_cases {s t : State} (h : step s = .next t) :
    (nextInput s.ready s.inputs = none ∧ t = s)
    ∨ (∃ rest, nextInput s.ready s.inputs = some (.idle, rest) ∧ t = { s with inputs := rest })
    ∨ (∃ rest, nextInput s.ready s.inputs = some (.take, rest) ∧ t = ({ s with inputs := rest } : State).takeResponse)
    ∨ (∃ cut rest, nextInput s.ready s.inputs = some (.resetInput cut, rest)
        ∧ t = ({ s with inputs := rest } : State).resetRegisters)
    ∨ (∃ w rest, s.ready = true ∧ s.inputs = .command w :: rest ∧ t = ({ s with inputs := rest } : State).respond .noData)
    ∨ (∃ x rest, s.ready = true ∧ s.inputs = .command (x.setWidth 16) :: rest
        ∧ exec (feedIn s.state x) { s with inputs := rest } = .next t)
    ∨ (∃ rest, s.ready = true ∧ s.inputs = .command 0x4000#16 :: rest ∧ exec .reset { s with inputs := rest } = .next t) := by
  unfold step at h
  split at h
  · rename_i hin; injection h with h; exact Or.inl ⟨hin, h.symm⟩
  · rename_i rest hin; injection h with h; exact Or.inr (Or.inl ⟨rest, hin, h.symm⟩)
  · rename_i rest hin; injection h with h; exact Or.inr (Or.inr (Or.inl ⟨rest, hin, h.symm⟩))
  · rename_i cut rest hin; injection h with h; exact Or.inr (Or.inr (Or.inr (Or.inl ⟨cut, rest, hin, h.symm⟩)))
  · rename_i w rest hin
    obtain ⟨hr, hin⟩ := nextInput_command hin
    refine Or.inr (Or.inr (Or.inr (Or.inr ?_)))
    rw [commandAt_eq] at h
    cases hd : decodeCommand s.state w with
    | reserved e =>
      rw [hd] at h
      simp only [] at h
      injection h with h
      exact Or.inl ⟨w, rest, hr, hin, h.symm⟩
    | instr i =>
      rw [hd] at h
      simp only [] at h
      rcases decodeCommand_instr hd with ⟨h1, rfl⟩ | ⟨rfl, rfl⟩
      · exact Or.inr (Or.inl ⟨w.setWidth 11, rest, hr, by rw [hin, feedWord_of_masked h1], h⟩)
      · exact Or.inr (Or.inr ⟨rest, hr, hin, h⟩)

/-- A step that accepts a command word runs what the word is in the state it finds. -/
theorem step_command {s : State} {w : Word} {rest : List HostInput} (hr : s.ready = true)
    (h : s.inputs = .command w :: rest) :
    step s = match commandAt s w with
      | .instr i => exec i { s with inputs := rest }
      | .reserved _ => execReserved { s with inputs := rest } := by
  cases hc : commandAt s w <;> simp only [step, h, hr, nextInput_ready, hc]

end Machine

end Sys2Proof
end

