-- ==== Sys2Proof/Laws/ExactValue.lean ====
section
/-!
SUPPORT. The value of each building operation on exact sums: what number `addCos`, `addSin`, `const` and `neg` leave.
-/

namespace Sys2Proof

open Real

@[simp] theorem TrigSum.value_nil : TrigSum.value [] = 0 := rfl
@[simp] theorem TrigSum.value_cons (x : TrigTerm) (l : TrigSum) :
    TrigSum.value (x :: l) = x.value + TrigSum.value l := rfl
@[simp] theorem TrigQuad.value_nil : TrigQuad.value [] = 0 := rfl
@[simp] theorem TrigQuad.value_cons (x : TrigSum × TrigSum) (q : TrigQuad) :
    TrigQuad.value (x :: q) = TrigSum.value x.1 * TrigSum.value x.2 + TrigQuad.value q := rfl

theorem halfTurn_cos (t : Rat) : Real.cos (2 * π * (halfTurn t : Rat)) = Real.cos (2 * π * t) := by
  have hu : Real.cos (2 * π * ((t - t.floor : Rat) : ℝ)) = Real.cos (2 * π * t) := by
    have h : 2 * π * ((t - t.floor : Rat) : ℝ) = 2 * π * t - (t.floor : ℤ) * (2 * π) := by
      push_cast; ring
    rw [h, Real.cos_sub_int_mul_two_pi]
  simp only [halfTurn]
  split
  · rw [← hu, ← Real.cos_two_pi_sub (2 * π * ((t - t.floor : Rat) : ℝ))]
    congr 1; push_cast; ring
  · exact hu

/-- The cosine of a folded turn, with its sign, is the cosine of the turn. -/
theorem foldTurn_cos (t : Rat) :
    (if (foldTurn t).2 then -Real.cos (2 * π * (foldTurn t).1) else Real.cos (2 * π * (foldTurn t).1))
      = Real.cos (2 * π * t) := by
  have hv := halfTurn_cos t
  by_cases h : 1/4 < halfTurn t
  · simp only [foldTurn, if_pos h, if_true]
    rw [← hv, ← Real.cos_pi_sub]
    congr 1; push_cast; ring
  · simpa only [foldTurn, if_neg h, Bool.false_eq_true, if_false] using hv

@[simp] theorem TrigSum.value_insert (t c : Rat) (l : TrigSum) :
    TrigSum.value (TrigSum.insert t c l) = c * Real.cos (2 * π * t) + TrigSum.value l := by
  induction l with
  | nil => simp [TrigSum.insert, TrigTerm.value]
  | cons x l ih =>
    simp only [TrigSum.insert]
    split_ifs with h1 h2
    · subst h1
      have : (c : ℝ) = -x.coef := by
        have := congrArg (fun r : Rat => (r : ℝ)) h2
        push_cast at this; linarith
      simp [TrigTerm.value, this]
    · subst h1
      simp [TrigTerm.value]; ring
    · simp [TrigTerm.value]
    · simp [ih]; ring

@[simp] theorem TrigSum.value_addCos (l : TrigSum) (t c : Rat) :
    TrigSum.value (TrigSum.addCos l t c) = TrigSum.value l + c * Real.cos (2 * π * t) := by
  have hf := foldTurn_cos t
  simp only [TrigSum.addCos]
  split_ifs with h1 h2
  · obtain rfl | hq := h1
    · simp
    · have hz : Real.cos (2 * π * (foldTurn t).1) = 0 := by
        rw [hq, ← Real.cos_pi_div_two]; congr 1; push_cast; ring
      rw [← hf, hz]; simp
  · rw [if_pos h2] at hf
    rw [TrigSum.value_insert, ← hf]; push_cast; ring
  · rw [if_neg h2] at hf
    rw [TrigSum.value_insert, ← hf]; ring

@[simp] theorem TrigSum.value_addSin (l : TrigSum) (t c : Rat) :
    TrigSum.value (TrigSum.addSin l t c) = TrigSum.value l + c * Real.sin (2 * π * t) := by
  rw [TrigSum.addSin, TrigSum.value_addCos, ← Real.cos_sub_pi_div_two]
  congr 3; push_cast; ring

@[simp] theorem TrigSum.value_const (c : Rat) : TrigSum.value (TrigSum.const c) = c := by
  simp [TrigSum.const]

@[simp] theorem TrigSum.value_neg (l : TrigSum) : TrigSum.value (TrigSum.neg l) = -TrigSum.value l := by
  induction l with
  | nil => simp [TrigSum.neg]
  | cons x l ih =>
    simp only [TrigSum.neg, List.map_cons, TrigSum.value_cons] at ih ⊢
    rw [ih]; simp only [TrigTerm.value]; push_cast; ring

@[simp] theorem power_value (sn cs : TrigSum) :
    TrigQuad.value (power sn cs) = TrigSum.value sn ^ 2 + TrigSum.value cs ^ 2 := by
  simp [power]; ring

@[simp] theorem crossing_value (sn cs : TrigSum) (t : Rat) :
    TrigQuad.value (crossing sn cs t)
      = TrigSum.value cs * Real.cos (2 * π * t) - TrigSum.value sn * Real.sin (2 * π * t) := by
  simp [crossing]; ring

end Sys2Proof
end

