-- ==== Sys2Proof/Laws/ExactRead.lean ====
section
/-!
SUPPORT. Reading a sum over the denominators 4m and d: the integers read stand for d times the value of the sum, and
their estimate from the cosine table is within the stated error of it.
-/

namespace Sys2Proof

open Real

/-- The number that integers read over 4m stand for. -/
noncomputable def readValue (m : ℕ) : List (ℕ × ℤ) → ℝ
  | [] => 0
  | x :: l => x.2 * Real.cos (2 * π * x.1 / (4 * m : ℕ)) + readValue m l

/-- The number that the factors read over 4m stand for. -/
noncomputable def readQuadValue (m : ℕ) : List (List (ℕ × ℤ) × List (ℕ × ℤ)) → ℝ
  | [] => 0
  | x :: v => readValue m x.1 * readValue m x.2 + readQuadValue m v

theorem turnIndex_lt {m : ℕ} (hm : 1 ≤ m) (t : Rat) : turnIndex m t < 4 * m := by
  have h : (0 : ℤ) < (4 * m : ℕ) := by exact_mod_cast (by omega : 0 < 4 * m)
  have h1 := Int.emod_nonneg (t.num * (4 * m / t.den : ℕ)) h.ne'
  have h2 := Int.emod_lt_of_pos (t.num * (4 * m / t.den : ℕ)) h
  simp only [turnIndex]
  omega

theorem turnIndex_cos {m : ℕ} (hm : 1 ≤ m) {t : Rat} (hd : t.den ∣ 4 * m) :
    Real.cos (2 * π * turnIndex m t / (4 * m : ℕ)) = Real.cos (2 * π * t) := by
  have h : (0 : ℤ) < (4 * m : ℕ) := by exact_mod_cast (by omega : 0 < 4 * m)
  set n : ℤ := t.num * (4 * m / t.den : ℕ) with hn
  have hk : ((turnIndex m t : ℕ) : ℤ) = n % (4 * m : ℕ) := by
    simp only [turnIndex]
    exact Int.toNat_of_nonneg (Int.emod_nonneg _ h.ne')
  have hM : ((4 * m : ℕ) : ℝ) ≠ 0 := by
    have : (0 : ℝ) < (4 * m : ℕ) := by exact_mod_cast h
    exact this.ne'
  have hdiv : n = (4 * m : ℕ) * (n / (4 * m : ℕ)) + turnIndex m t := by
    rw [hk]; exact (Int.mul_ediv_add_emod n (4 * m : ℕ)).symm
  have hnt : (n : ℝ) = t * (4 * m : ℕ) := by
    obtain ⟨e, he⟩ := hd
    have hden : (t.den : ℝ) ≠ 0 := by exact_mod_cast t.den_ne_zero
    have hdn : 4 * m / t.den = e := by rw [he]; exact Nat.mul_div_cancel_left e t.den_pos
    have ht : (t : ℝ) = t.num / t.den := by exact_mod_cast (Rat.num_div_den t).symm
    rw [hn, hdn, he, ht]; push_cast; field_simp
  have hdivR : (n : ℝ) = (4 * m : ℕ) * (n / (4 * m : ℕ) : ℤ) + turnIndex m t := by
    have := congrArg (fun z : ℤ => (z : ℝ)) hdiv
    push_cast at this ⊢; exact this
  have hturn : 2 * π * turnIndex m t / (4 * m : ℕ) = 2 * π * t - (n / (4 * m : ℕ) : ℤ) * (2 * π) := by
    have : (turnIndex m t : ℝ) = t * (4 * m : ℕ) - (4 * m : ℕ) * (n / (4 * m : ℕ) : ℤ) := by
      rw [← hnt]; linarith
    rw [this]; field_simp
  rw [hturn, Real.cos_sub_int_mul_two_pi]

theorem halfIndex_le {m k : ℕ} (hk : k < 4 * m) : halfIndex m k ≤ 2 * m := by
  simp only [halfIndex]; split <;> omega

theorem quarterIndex_le {m k : ℕ} (hk : k < 4 * m) : (quarterIndex m k).1 ≤ m := by
  have := halfIndex_le hk
  simp only [quarterIndex]
  split_ifs <;> simp <;> omega

theorem halfIndex_cos {m k : ℕ} (hm : 1 ≤ m) (hk : k < 4 * m) :
    Real.cos (2 * π * (halfIndex m k) / (4 * m : ℕ)) = Real.cos (2 * π * k / (4 * m : ℕ)) := by
  have hm' : ((m : ℕ) : ℝ) ≠ 0 := by
    have : (0 : ℝ) < m := by exact_mod_cast hm
    exact this.ne'
  simp only [halfIndex]
  split
  · rw [Nat.cast_sub hk.le, ← Real.cos_two_pi_sub (2 * π * k / (4 * m : ℕ))]
    congr 1; push_cast; field_simp
  · rfl

theorem quarterIndex_cos {m k : ℕ} (hm : 1 ≤ m) (hk : k < 4 * m) :
    (if (quarterIndex m k).2 then -Real.cos (2 * π * (quarterIndex m k).1 / (4 * m : ℕ))
      else Real.cos (2 * π * (quarterIndex m k).1 / (4 * m : ℕ))) = Real.cos (2 * π * k / (4 * m : ℕ)) := by
  have hm' : ((m : ℕ) : ℝ) ≠ 0 := by
    have : (0 : ℝ) < m := by exact_mod_cast hm
    exact this.ne'
  have h1 := halfIndex_cos hm hk
  by_cases h : m < halfIndex m k
  · simp only [quarterIndex, if_pos h, if_true]
    rw [← h1, Nat.cast_sub (halfIndex_le hk), ← Real.cos_pi_sub]
    congr 1; push_cast; field_simp; ring
  · simpa only [quarterIndex, if_neg h, Bool.false_eq_true, if_false] using h1

theorem readTerm_index_le {m d : ℕ} (hm : 1 ≤ m) (x : TrigTerm) : (readTerm m d x).1 ≤ m :=
  quarterIndex_le (turnIndex_lt hm x.turn)

theorem readTerm_value {m d : ℕ} (hm : 1 ≤ m) {x : TrigTerm} (ht : x.turn.den ∣ 4 * m) (hc : x.coef.den ∣ d) :
    ((readTerm m d x).2 : ℝ) * Real.cos (2 * π * (readTerm m d x).1 / (4 * m : ℕ)) = d * x.value := by
  have hq := quarterIndex_cos hm (turnIndex_lt hm x.turn)
  rw [turnIndex_cos hm ht] at hq
  have ha : ((x.coef.num * (d / x.coef.den : ℕ) : ℤ) : ℝ) = d * x.coef := by
    obtain ⟨e, he⟩ := hc
    have hden : (x.coef.den : ℝ) ≠ 0 := by exact_mod_cast x.coef.den_ne_zero
    have hdn : d / x.coef.den = e := by rw [he]; exact Nat.mul_div_cancel_left e x.coef.den_pos
    have hx : (x.coef : ℝ) = x.coef.num / x.coef.den := by exact_mod_cast (Rat.num_div_den x.coef).symm
    rw [hdn, he, hx]; push_cast; field_simp
  simp only [readTerm, TrigTerm.value]
  rw [← hq]
  cases (quarterIndex m (turnIndex m x.turn)).2 with
  | true => simp only [if_true]; rw [Int.cast_neg, ha]; ring
  | false => simp only [Bool.false_eq_true, if_false]; rw [ha]; ring

theorem readSum_value {m d : ℕ} (hm : 1 ≤ m) {l : TrigSum} (ht : TrigSum.order l ∣ 4 * m) (hc : TrigSum.den l ∣ d) :
    readValue m (readSum m d l) = d * TrigSum.value l := by
  induction l with
  | nil => simp [readSum, readValue]
  | cons x l ih =>
    simp only [TrigSum.order, TrigSum.den] at ht hc
    have hx := readTerm_value hm ((Nat.dvd_lcm_left _ _).trans ht) ((Nat.dvd_lcm_left _ _).trans hc)
    have hl := ih ((Nat.dvd_lcm_right _ _).trans ht) ((Nat.dvd_lcm_right _ _).trans hc)
    simp only [readSum, List.map_cons, readValue, TrigSum.value_cons] at hl ⊢
    rw [hl, hx]; ring

theorem readQuad_value {m d : ℕ} (hm : 1 ≤ m) {q : TrigQuad} (ht : TrigQuad.order q ∣ 4 * m)
    (hc : TrigQuad.den q ∣ d) : readQuadValue m (readQuad m d q) = d ^ 2 * TrigQuad.value q := by
  induction q with
  | nil => simp [readQuad, readQuadValue]
  | cons x q ih =>
    simp only [TrigQuad.order, TrigQuad.den] at ht hc
    have ht1 := (Nat.dvd_lcm_left _ _).trans ht
    have hc1 := (Nat.dvd_lcm_left _ _).trans hc
    have h1 := readSum_value hm ((Nat.dvd_lcm_left _ _).trans ht1) ((Nat.dvd_lcm_left _ _).trans hc1)
    have h2 := readSum_value hm ((Nat.dvd_lcm_right _ _).trans ht1) ((Nat.dvd_lcm_right _ _).trans hc1)
    have hl := ih ((Nat.dvd_lcm_right _ _).trans ht) ((Nat.dvd_lcm_right _ _).trans hc)
    simp only [readQuad, List.map_cons, readQuadValue, TrigQuad.value_cons] at hl ⊢
    rw [hl, h1, h2]; ring

/-- Every index of the list lies in the first quarter. -/
def Quartered (m : ℕ) (l : List (ℕ × ℤ)) : Prop := ∀ x ∈ l, x.1 ≤ m

theorem readSum_quartered {m d : ℕ} (hm : 1 ≤ m) (l : TrigSum) : Quartered m (readSum m d l) := by
  intro x hx
  simp only [readSum, List.mem_map] at hx
  obtain ⟨y, _, rfl⟩ := hx
  exact readTerm_index_le hm y

theorem abs_readValue_le (m : ℕ) (l : List (ℕ × ℤ)) : |readValue m l| ≤ sumWeight l := by
  induction l with
  | nil => simp [readValue, sumWeight]
  | cons x l ih =>
    have h1 := abs_add_le ((x.2 : ℝ) * Real.cos (2 * π * x.1 / (4 * m : ℕ))) (readValue m l)
    have h2 : |(x.2 : ℝ) * Real.cos (2 * π * x.1 / (4 * m : ℕ))| ≤ x.2.natAbs := by
      rw [abs_mul, Nat.cast_natAbs, Int.cast_abs]
      have := Real.abs_cos_le_one (2 * π * x.1 / (4 * m : ℕ))
      nlinarith [abs_nonneg (x.2 : ℝ)]
    simp only [readValue, sumWeight]
    rw [Nat.cast_add]
    linarith

/-- One sum's estimate: scaled by `2^(pm)` it is at most the weight, and close to the value. -/
theorem sumEstimate_close {m : ℕ} (hm : 1 ≤ m) (p : ℕ) {l : List (ℕ × ℤ)} (hl : Quartered m l) :
    ∃ e : ℝ, ((sumEstimate (chebyshevTable (cosStepAbove m p) (4 ^ p) (2 ^ p) m 1 (cosStepAbove m p)) l : ℤ) : ℝ)
        = 2 ^ (p * m) * e ∧ |e| ≤ sumWeight l ∧ |e - readValue m l| ≤ sumWeight l * (m ^ 2 / 2 ^ p) := by
  induction l with
  | nil => exact ⟨0, by simp [sumEstimate], by simp [sumWeight], by simp [readValue, sumWeight]⟩
  | cons x l ih =>
    obtain ⟨e, he1, he2, he3⟩ := ih fun y hy => hl y (List.mem_cons_of_mem _ hy)
    obtain ⟨c, hc1, hc2, hc3⟩ := chebyshevTable_close hm p (hl x (List.mem_cons_self ..))
    refine ⟨x.2 * c + e, ?_, ?_, ?_⟩
    · simp only [sumEstimate]
      push_cast
      rw [he1, hc1]; ring
    · have h1 := abs_add_le ((x.2 : ℝ) * c) e
      rw [abs_mul] at h1
      simp only [sumWeight]; push_cast [Nat.cast_natAbs]
      nlinarith [abs_nonneg (x.2 : ℝ)]
    · have e1 : (x.2 : ℝ) * c + e - readValue m (x :: l)
          = x.2 * (c - Real.cos (2 * π * x.1 / (4 * m : ℕ))) + (e - readValue m l) := by
        simp only [readValue]; ring
      have h1 := abs_add_le ((x.2 : ℝ) * (c - Real.cos (2 * π * x.1 / (4 * m : ℕ)))) (e - readValue m l)
      rw [abs_mul] at h1
      have h2 := mul_le_mul_of_nonneg_left hc3 (abs_nonneg (x.2 : ℝ))
      rw [e1]
      simp only [sumWeight]
      rw [Nat.cast_add, Nat.cast_natAbs, Int.cast_abs, add_mul]
      linarith

theorem abs_readQuadValue_le (m : ℕ) (v : List (List (ℕ × ℤ) × List (ℕ × ℤ))) :
    |readQuadValue m v| ≤ quadWeight v := by
  induction v with
  | nil => simp [readQuadValue, quadWeight]
  | cons x v ih =>
    have h1 := abs_add_le (readValue m x.1 * readValue m x.2) (readQuadValue m v)
    rw [abs_mul] at h1
    have h2 := mul_le_mul (abs_readValue_le m x.1) (abs_readValue_le m x.2) (abs_nonneg _) (by positivity)
    simp only [readQuadValue, quadWeight]
    push_cast
    linarith

/-- The estimate of a sum of products, scaled by `2^(2pm)`, is close to the value. -/
theorem quadEstimate_close {m : ℕ} (hm : 1 ≤ m) (p : ℕ) {v : List (List (ℕ × ℤ) × List (ℕ × ℤ))}
    (hv : ∀ x ∈ v, Quartered m x.1 ∧ Quartered m x.2) :
    ∃ e : ℝ, ((quadEstimate (chebyshevTable (cosStepAbove m p) (4 ^ p) (2 ^ p) m 1 (cosStepAbove m p)) v : ℤ) : ℝ)
        = 2 ^ (2 * (p * m)) * e ∧ |e - readQuadValue m v| ≤ 2 * quadWeight v * (m ^ 2 / 2 ^ p) := by
  induction v with
  | nil => exact ⟨0, by simp [quadEstimate], by simp [readQuadValue, quadWeight]⟩
  | cons x v ih =>
    obtain ⟨e, he1, he2⟩ := ih fun y hy => hv y (List.mem_cons_of_mem _ hy)
    obtain ⟨h1, h2⟩ := hv x (List.mem_cons_self ..)
    obtain ⟨a, ha1, ha2, ha3⟩ := sumEstimate_close hm p h1
    obtain ⟨b, hb1, hb2, hb3⟩ := sumEstimate_close hm p h2
    have hB := abs_readValue_le m x.2
    refine ⟨a * b + e, ?_, ?_⟩
    · simp only [quadEstimate]
      push_cast
      rw [he1, ha1, hb1, two_mul, pow_add]; ring
    · have e1 : a * b + e - readQuadValue m (x :: v)
          = a * (b - readValue m x.2) + readValue m x.2 * (a - readValue m x.1) + (e - readQuadValue m v) := by
        simp only [readQuadValue]; ring
      rw [e1]
      have t1 := abs_add_le (a * (b - readValue m x.2) + readValue m x.2 * (a - readValue m x.1))
        (e - readQuadValue m v)
      have t2 := abs_add_le (a * (b - readValue m x.2)) (readValue m x.2 * (a - readValue m x.1))
      rw [abs_mul, abs_mul] at t2
      have hd : (0 : ℝ) ≤ m ^ 2 / 2 ^ p := by positivity
      have m1 := mul_le_mul ha2 hb3 (abs_nonneg _) (by positivity)
      have m2 := mul_le_mul hB ha3 (abs_nonneg _) (by positivity)
      simp only [quadWeight]
      rw [Nat.cast_add, Nat.cast_mul]
      nlinarith

theorem readQuad_quartered {m d : ℕ} (hm : 1 ≤ m) (q : TrigQuad) :
    ∀ x ∈ readQuad m d q, Quartered m x.1 ∧ Quartered m x.2 := by
  intro x hx
  simp only [readQuad, List.mem_map] at hx
  obtain ⟨y, _, rfl⟩ := hx
  exact ⟨readSum_quartered hm _, readSum_quartered hm _⟩

end Sys2Proof
end

