-- ==== Sys2Proof/Laws/Separation.lean ====
section
/-!
SUPPORT. A value read over 4m that is not 0 is not small: four times it is an algebraic integer of the cyclotomic
field of order 4m, all its conjugates are bounded by the weight, and its norm is a nonzero integer.
-/

namespace Sys2Proof

open Real

/-- Twice a read sum, in any field with a root z of unity. -/
def doubledSum {R : Type} [Field R] (z : R) : List (ℕ × ℤ) → R
  | [] => 0
  | x :: l => x.2 * (z ^ x.1 + z⁻¹ ^ x.1) + doubledSum z l

/-- Four times a read sum of products, in any field with a root z of unity. -/
def doubledQuad {R : Type} [Field R] (z : R) : List (List (ℕ × ℤ) × List (ℕ × ℤ)) → R
  | [] => 0
  | x :: v => doubledSum z x.1 * doubledSum z x.2 + doubledQuad z v

theorem map_doubledSum {R S : Type} [Field R] [Field S] (f : R →+* S) (z : R) (l : List (ℕ × ℤ)) :
    f (doubledSum z l) = doubledSum (f z) l := by
  induction l with
  | nil => simp [doubledSum]
  | cons x l ih => simp [doubledSum, ih]

theorem map_doubledQuad {R S : Type} [Field R] [Field S] (f : R →+* S) (z : R)
    (v : List (List (ℕ × ℤ) × List (ℕ × ℤ))) : f (doubledQuad z v) = doubledQuad (f z) v := by
  induction v with
  | nil => simp [doubledQuad]
  | cons x v ih => simp [doubledQuad, ih, map_doubledSum]

theorem isIntegral_doubledSum {R : Type} [Field R] {z : R} (hz : IsIntegral ℤ z) (hz' : IsIntegral ℤ z⁻¹)
    (l : List (ℕ × ℤ)) : IsIntegral ℤ (doubledSum z l) := by
  induction l with
  | nil => exact isIntegral_zero
  | cons x l ih =>
    exact ((isIntegral_algebraMap (R := ℤ) (x := x.2)).mul ((hz.pow _).add (hz'.pow _))).add ih

theorem isIntegral_doubledQuad {R : Type} [Field R] {z : R} (hz : IsIntegral ℤ z) (hz' : IsIntegral ℤ z⁻¹)
    (v : List (List (ℕ × ℤ) × List (ℕ × ℤ))) : IsIntegral ℤ (doubledQuad z v) := by
  induction v with
  | nil => exact isIntegral_zero
  | cons x v ih =>
    exact ((isIntegral_doubledSum hz hz' _).mul (isIntegral_doubledSum hz hz' _)).add ih

theorem norm_doubledSum_le {z : ℂ} (hz : ‖z‖ = 1) (l : List (ℕ × ℤ)) : ‖doubledSum z l‖ ≤ 2 * sumWeight l := by
  induction l with
  | nil => simp [doubledSum, sumWeight]
  | cons x l ih =>
    have h1 : ‖(x.2 : ℂ) * (z ^ x.1 + z⁻¹ ^ x.1)‖ ≤ x.2.natAbs * 2 := by
      rw [norm_mul, Nat.cast_natAbs, Int.cast_abs]
      have h2 := norm_add_le (z ^ x.1) (z⁻¹ ^ x.1)
      rw [norm_pow, norm_pow, norm_inv, hz] at h2
      rw [Complex.norm_intCast]
      apply mul_le_mul_of_nonneg_left _ (abs_nonneg _)
      simpa [one_add_one_eq_two] using h2
    have h3 := norm_add_le ((x.2 : ℂ) * (z ^ x.1 + z⁻¹ ^ x.1)) (doubledSum z l)
    simp only [doubledSum, sumWeight]
    rw [Nat.cast_add]
    linarith

theorem norm_doubledQuad_le {z : ℂ} (hz : ‖z‖ = 1) (v : List (List (ℕ × ℤ) × List (ℕ × ℤ))) :
    ‖doubledQuad z v‖ ≤ 4 * quadWeight v := by
  induction v with
  | nil => simp [doubledQuad, quadWeight]
  | cons x v ih =>
    have h1 := norm_add_le (doubledSum z x.1 * doubledSum z x.2) (doubledQuad z v)
    have h2 := mul_le_mul (norm_doubledSum_le hz x.1) (norm_doubledSum_le hz x.2) (norm_nonneg _) (by positivity)
    rw [norm_mul] at h1
    simp only [doubledQuad, quadWeight]
    rw [Nat.cast_add, Nat.cast_mul]
    linarith

/-- At the root `exp (2πi/(4m))` the doubled sum is twice the value read. -/
theorem doubledSum_exp (m : ℕ) (l : List (ℕ × ℤ)) :
    doubledSum (Complex.exp (2 * π * Complex.I / (4 * m : ℕ))) l = 2 * (readValue m l : ℝ) := by
  induction l with
  | nil => simp [doubledSum, readValue]
  | cons x l ih =>
    have h : Complex.exp (2 * π * Complex.I / (4 * m : ℕ)) ^ x.1
        + (Complex.exp (2 * π * Complex.I / (4 * m : ℕ)))⁻¹ ^ x.1
        = 2 * (Real.cos (2 * π * x.1 / (4 * m : ℕ)) : ℝ) := by
      rw [← Complex.exp_neg, ← Complex.exp_nat_mul, ← Complex.exp_nat_mul, Complex.ofReal_cos, Complex.cos]
      have e1 : (x.1 : ℂ) * (2 * π * Complex.I / (4 * m : ℕ))
          = ((2 * π * x.1 / (4 * m : ℕ) : ℝ) : ℂ) * Complex.I := by push_cast; ring
      have e2 : (x.1 : ℂ) * -(2 * π * Complex.I / (4 * m : ℕ))
          = -((2 * π * x.1 / (4 * m : ℕ) : ℝ) : ℂ) * Complex.I := by push_cast; ring
      rw [e1, e2]; ring
    simp only [doubledSum, readValue]
    rw [h, ih]; push_cast; ring

theorem doubledQuad_exp (m : ℕ) (v : List (List (ℕ × ℤ) × List (ℕ × ℤ))) :
    doubledQuad (Complex.exp (2 * π * Complex.I / (4 * m : ℕ))) v = 4 * (readQuadValue m v : ℝ) := by
  induction v with
  | nil => simp [doubledQuad, readQuadValue]
  | cons x v ih =>
    simp only [doubledQuad, readQuadValue]
    rw [doubledSum_exp, doubledSum_exp, ih]; push_cast; ring

theorem totient_two_mul_le (k : ℕ) : Nat.totient (2 * k) ≤ k := by
  induction k using Nat.strong_induction_on with
  | _ k ih =>
    rcases Nat.even_or_odd k with he | ho
    · rcases Nat.eq_zero_or_pos k with h0 | hpos
      · simp [h0]
      · obtain ⟨j, hj⟩ := he
        rw [Nat.totient_two_mul_of_even ⟨j, hj⟩]
        have h := ih j (by omega)
        have hk : k = 2 * j := by omega
        rw [← hk] at h
        omega
    · rw [Nat.totient_two_mul_of_odd ho]; exact Nat.totient_le k

/-- The separation bound, in a cyclotomic field of order n = 4m. -/
theorem readQuadValue_separated_in (K : Type) [Field K] [CharZero K] [Algebra ℚ K] {m n : ℕ} (hm : 1 ≤ m) (hn : n = 4 * m)
    [NeZero n] [IsCyclotomicExtension {n} ℚ K] (v : List (List (ℕ × ℤ) × List (ℕ × ℤ)))
    (h0 : readQuadValue m v ≠ 0) : 1 ≤ 4 * |readQuadValue m v| * (4 * quadWeight v : ℝ) ^ (2 * m) := by
  have hfin : FiniteDimensional ℚ K := IsCyclotomicExtension.finiteDimensional {n} ℚ K
  have hζ : IsPrimitiveRoot (IsCyclotomicExtension.zeta n ℚ K) n := IsCyclotomicExtension.zeta_spec n ℚ K
  set ζ := IsCyclotomicExtension.zeta n ℚ K
  have hirr : Irreducible (Polynomial.cyclotomic n ℚ) := Polynomial.cyclotomic.irreducible_rat (by omega)
  have hexp : IsPrimitiveRoot (Complex.exp (2 * π * Complex.I / n)) n := Complex.isPrimitiveRoot_exp n (by omega)
  let E := hζ.embeddingsEquivPrimitiveRoots ℂ hirr
  let σ0 : K →ₐ[ℚ] ℂ := E.symm ⟨_, (mem_primitiveRoots (by omega)).2 hexp⟩
  have hσ0 : σ0 ζ = Complex.exp (2 * π * Complex.I / n) := by
    have := congrArg Subtype.val (E.apply_symm_apply ⟨_, (mem_primitiveRoots (by omega)).2 hexp⟩)
    rwa [IsPrimitiveRoot.embeddingsEquivPrimitiveRoots_apply_coe] at this
  set α : K := doubledQuad ζ v with hα
  have hint : IsIntegral ℤ α := isIntegral_doubledQuad (hζ.isIntegral (by omega)) (hζ.inv.isIntegral (by omega)) v
  have hσ0α : σ0 α = 4 * (readQuadValue m v : ℝ) := by
    have := map_doubledQuad (σ0 : K →+* ℂ) ζ v
    rw [← doubledQuad_exp, ← hn]
    simpa [hσ0] using this
  have hα0 : α ≠ 0 := by
    intro h
    rw [h, map_zero] at hσ0α
    apply h0
    have : (4 : ℂ) * (readQuadValue m v : ℝ) = 0 := hσ0α.symm
    simpa using this
  have hB : ∀ σ : K →ₐ[ℚ] ℂ, ‖σ α‖ ≤ 4 * quadWeight v := by
    intro σ
    have := map_doubledQuad (σ : K →+* ℂ) ζ v
    have hnorm : ‖σ ζ‖ = 1 := by
      have : (σ ζ) ^ n = 1 := by rw [← map_pow, hζ.pow_eq_one, map_one]
      exact Complex.norm_eq_one_of_pow_eq_one this (by omega)
    have e : σ α = doubledQuad (σ ζ) v := by simpa using this
    rw [e]
    exact norm_doubledQuad_le hnorm v
  have hN : (1 : ℝ) ≤ ∏ σ : K →ₐ[ℚ] ℂ, ‖σ α‖ := by
    have hne := Algebra.norm_eq_prod_embeddings ℚ ℂ α
    have hi : IsIntegral ℤ (Algebra.norm ℚ α) := Algebra.isIntegral_norm ℚ hint
    obtain ⟨z, hz⟩ := IsIntegrallyClosed.isIntegral_iff.1 hi
    have hz0 : z ≠ 0 := by
      rintro rfl
      have : Algebra.norm ℚ α = 0 := by rw [← hz]; simp
      exact (Algebra.norm_ne_zero_iff.2 hα0) this
    rw [← norm_prod, ← hne, ← hz]
    simp only [algebraMap_int_eq, eq_intCast, map_intCast]
    rw [Complex.norm_intCast]
    exact_mod_cast Int.one_le_abs hz0
  set B : ℝ := 4 * quadWeight v with hBdef
  have hx : ‖σ0 α‖ = 4 * |readQuadValue m v| := by
    rw [hσ0α, norm_mul, Complex.norm_real, Real.norm_eq_abs]; simp
  have hB1 : 1 ≤ B := by
    have hpos : 0 < B := lt_of_lt_of_le (by rw [hx]; positivity) (hB σ0)
    have : 0 < 4 * quadWeight v := by
      have h : (0 : ℝ) < ((4 * quadWeight v : ℕ) : ℝ) := by push_cast; exact hpos
      exact_mod_cast h
    have : (1 : ℝ) ≤ ((4 * quadWeight v : ℕ) : ℝ) := by exact_mod_cast this
    rw [hBdef]; push_cast at this; exact this
  have hcard : Fintype.card (K →ₐ[ℚ] ℂ) ≤ 2 * m := by
    rw [AlgHom.card ℚ K ℂ, IsCyclotomicExtension.finrank K hirr, hn]
    have : Nat.totient (4 * m) = 2 * Nat.totient (2 * m) := by
      rw [show 4 * m = 2 * (2 * m) by ring]
      exact Nat.totient_two_mul_of_even (by simp)
    rw [this]
    have := totient_two_mul_le m
    omega
  classical
  rw [← Finset.mul_prod_erase Finset.univ (fun σ : K →ₐ[ℚ] ℂ => ‖σ α‖) (Finset.mem_univ σ0)] at hN
  have hprod : ∏ σ ∈ Finset.univ.erase σ0, ‖σ α‖ ≤ B ^ (2 * m) := by
    calc _ ≤ ∏ _σ ∈ Finset.univ.erase σ0, B := Finset.prod_le_prod (fun _ _ => norm_nonneg _) (fun σ _ => hB σ)
      _ = B ^ (Finset.univ.erase σ0).card := by rw [Finset.prod_const]
      _ ≤ B ^ (2 * m) := by
          apply pow_le_pow_right₀ hB1
          exact (Finset.card_le_card (Finset.erase_subset _ _)).trans hcard
  calc (1 : ℝ) ≤ ‖σ0 α‖ * ∏ σ ∈ Finset.univ.erase σ0, ‖σ α‖ := hN
    _ ≤ ‖σ0 α‖ * B ^ (2 * m) := mul_le_mul_of_nonneg_left hprod (norm_nonneg _)
    _ = 4 * |readQuadValue m v| * B ^ (2 * m) := by rw [hx]

/-- The separation bound: four times a value that is not 0, times a power of its weight, is at least 1. -/
theorem readQuadValue_separated {m : ℕ} (hm : 1 ≤ m) (v : List (List (ℕ × ℤ) × List (ℕ × ℤ)))
    (h0 : readQuadValue m v ≠ 0) : 1 ≤ 4 * |readQuadValue m v| * (4 * quadWeight v : ℝ) ^ (2 * m) := by
  have : NeZero (4 * m) := ⟨by omega⟩
  exact @readQuadValue_separated_in (CyclotomicField (4 * m) ℚ) _ _ (CyclotomicField.algebra (4 * m) ℚ) m (4 * m) hm
    rfl _ (CyclotomicField.isCyclotomicExtension (4 * m) ℚ) v h0

end Sys2Proof
end

