-- ==== Sys2Proof/Laws/ExactSign.lean ====
section
/-!
SUPPORT. The sign the machine computes is the sign of the real number: `TrigQuad.sign_eq` and `TrigSum.sign_eq`.
-/

namespace Sys2Proof

open Real

theorem four_dvd_order : ∀ q : TrigQuad, 4 ∣ TrigQuad.order q
  | [] => dvd_rfl
  | _ :: q => (four_dvd_order q).trans (Nat.dvd_lcm_right _ _)

theorem sumOrder_pos : ∀ l : TrigSum, 0 < TrigSum.order l
  | [] => by simp [TrigSum.order]
  | x :: l => Nat.lcm_pos x.turn.den_pos (sumOrder_pos l)

theorem sumDen_pos : ∀ l : TrigSum, 0 < TrigSum.den l
  | [] => by simp [TrigSum.den]
  | x :: l => Nat.lcm_pos x.coef.den_pos (sumDen_pos l)

theorem quadOrder_pos : ∀ q : TrigQuad, 0 < TrigQuad.order q
  | [] => by simp [TrigQuad.order]
  | x :: q => Nat.lcm_pos (Nat.lcm_pos (sumOrder_pos _) (sumOrder_pos _)) (quadOrder_pos q)

theorem quadDen_pos : ∀ q : TrigQuad, 0 < TrigQuad.den q
  | [] => by simp [TrigQuad.den]
  | x :: q => Nat.lcm_pos (Nat.lcm_pos (sumDen_pos _) (sumDen_pos _)) (quadDen_pos q)

/-- What an estimate at precision p tells: a decided sign is right, and an undecided value is small. -/
theorem signAtPrecision_spec {m : ℕ} (hm : 1 ≤ m) {v : List (List (ℕ × ℤ) × List (ℕ × ℤ))}
    (hv : ∀ x ∈ v, Quartered m x.1 ∧ Quartered m x.2) (p : ℕ) :
    (∀ s, signAtPrecision m v p = some s → s = SignType.sign (readQuadValue m v)) ∧
      (signAtPrecision m v p = none → |readQuadValue m v| ≤ 4 * quadWeight v * (m ^ 2 / 2 ^ p)) := by
  obtain ⟨e, he1, he2⟩ := quadEstimate_close hm p hv
  have hexp : p + p * (2 * m - 1) = 2 * (p * m) := by
    obtain ⟨k, rfl⟩ : ∃ k, m = k + 1 := ⟨m - 1, by omega⟩
    have : 2 * (k + 1) - 1 = 2 * k + 1 := by omega
    rw [this]; ring
  have hs : (0 : ℝ) < 2 ^ (2 * (p * m)) := by positivity
  set δ : ℝ := 2 * quadWeight v * (m ^ 2 / 2 ^ p) with hδ
  set E := quadEstimate (chebyshevTable (cosStepAbove m p) (4 ^ p) (2 ^ p) m 1 (cosStepAbove m p)) v with hE
  set err : ℕ := 2 * quadWeight v * m ^ 2 * 2 ^ (p * (2 * m - 1)) with herr
  have herrR : ((err : ℤ) : ℝ) = 2 ^ (2 * (p * m)) * δ := by
    rw [herr, hδ, ← hexp, pow_add]; push_cast; field_simp
  have hlt1 : (err : ℤ) < E ↔ δ < e := by
    rw [← Int.cast_lt (R := ℝ), herrR, he1]; exact mul_lt_mul_iff_right₀ hs
  have hlt2 : E < -(err : ℤ) ↔ e < -δ := by
    rw [← Int.cast_lt (R := ℝ), Int.cast_neg, herrR, he1, ← mul_neg]; exact mul_lt_mul_iff_right₀ hs
  have hab := abs_le.1 he2
  have hdef : signAtPrecision m v p
      = if (err : ℤ) < E then some .pos else if E < -(err : ℤ) then some .neg else none := rfl
  rw [hdef]
  split_ifs with h1 h2
  · refine ⟨?_, by simp⟩
    rintro s hs'
    obtain rfl := Option.some.inj hs'
    have hp : 0 < readQuadValue m v := by have := hlt1.1 h1; linarith [hab.2]
    rw [sign_pos hp]; rfl
  · refine ⟨?_, by simp⟩
    rintro s hs'
    obtain rfl := Option.some.inj hs'
    have hp : readQuadValue m v < 0 := by have := hlt2.1 h2; linarith [hab.1]
    rw [sign_neg hp]; rfl
  · refine ⟨by simp, fun _ => ?_⟩
    rw [hlt1] at h1
    rw [hlt2] at h2
    push Not at h1 h2
    have e4 : 4 * (quadWeight v : ℝ) * (m ^ 2 / 2 ^ p) = 2 * δ := by rw [hδ]; ring
    rw [e4, abs_le]
    constructor <;> linarith [hab.1, hab.2]

/-- At the separation precision, an undecided value is 0. -/
theorem signAtPrecision_separation {m : ℕ} (hm : 1 ≤ m) {v : List (List (ℕ × ℤ) × List (ℕ × ℤ))}
    (hv : ∀ x ∈ v, Quartered m x.1 ∧ Quartered m x.2)
    (h : signAtPrecision m v (separationPrecision m (quadWeight v)) = none) : readQuadValue m v = 0 := by
  by_contra h0
  have hsmall := (signAtPrecision_spec hm hv _).2 h
  have hsep := readQuadValue_separated hm v h0
  set w := quadWeight v with hw
  set p := separationPrecision m w with hp
  have hp2 : (16 * w * m ^ 2) * (4 * w) ^ (2 * m) < 2 ^ p := by
    rw [hp, separationPrecision, pow_add]
    have h1 : 16 * w * m ^ 2 < 2 ^ (Nat.log2 (16 * w * m ^ 2) + 1) := Nat.lt_log2_self
    have h2 : 4 * w ≤ 2 ^ (Nat.log2 (4 * w) + 1) := (Nat.lt_log2_self).le
    have h3 : (4 * w) ^ (2 * m) ≤ 2 ^ (2 * m * (Nat.log2 (4 * w) + 1)) := by
      calc _ ≤ (2 ^ (Nat.log2 (4 * w) + 1)) ^ (2 * m) := Nat.pow_le_pow_left h2 _
        _ = _ := by rw [← pow_mul, mul_comm]
    calc _ ≤ (16 * w * m ^ 2) * 2 ^ (2 * m * (Nat.log2 (4 * w) + 1)) := Nat.mul_le_mul_left _ h3
      _ < _ := (Nat.mul_lt_mul_right (by positivity)).2 h1
  have hp2R : (16 * (w : ℝ) * m ^ 2) * (4 * w) ^ (2 * m) < 2 ^ p := by exact_mod_cast hp2
  have h2p : (0 : ℝ) < 2 ^ p := by positivity
  have hb : (0 : ℝ) ≤ (4 * (w : ℝ)) ^ (2 * m) := by positivity
  have hcalc : 4 * |readQuadValue m v| * (4 * (w : ℝ)) ^ (2 * m)
      ≤ 4 * (4 * w * (m ^ 2 / 2 ^ p)) * (4 * (w : ℝ)) ^ (2 * m) := by
    apply mul_le_mul_of_nonneg_right _ hb
    linarith
  have hlt : 4 * (4 * (w : ℝ) * (m ^ 2 / 2 ^ p)) * (4 * (w : ℝ)) ^ (2 * m) < 1 := by
    have : 4 * (4 * (w : ℝ) * (m ^ 2 / 2 ^ p)) * (4 * (w : ℝ)) ^ (2 * m)
        = (16 * (w : ℝ) * m ^ 2) * (4 * w) ^ (2 * m) / 2 ^ p := by field_simp; ring
    rw [this, div_lt_one h2p]
    exact hp2R
  linarith

/-- The machine's sign of a sum of products is the sign of the real number. -/
theorem TrigQuad.sign_eq (q : TrigQuad) : TrigQuad.sign q = SignType.sign (TrigQuad.value q) := by
  obtain ⟨m, hmq⟩ := four_dvd_order q
  have hpos := quadOrder_pos q
  have hm : 1 ≤ m := by omega
  have hdiv : TrigQuad.order q / 4 = m := by omega
  have hv := readQuad_quartered (m := m) (d := TrigQuad.den q) hm q
  have hval := readQuad_value (m := m) (d := TrigQuad.den q) hm (q := q) (by rw [hmq]) dvd_rfl
  have hd : (0 : ℝ) < (TrigQuad.den q : ℝ) ^ 2 := by
    have : (0 : ℝ) < TrigQuad.den q := by exact_mod_cast quadDen_pos q
    positivity
  set v := readQuad m (TrigQuad.den q) q with hvdef
  have hsign : SignType.sign (readQuadValue m v) = SignType.sign (TrigQuad.value q) := by
    rw [hval, sign_mul, sign_pos hd, one_mul]
  have hdef : TrigQuad.sign q = (([32, 64, 128, 256] ++ [separationPrecision m (quadWeight v)]).findSome?
      (signAtPrecision m v)).getD .zero := by
    simp only [TrigQuad.sign, hdiv, hvdef]
  rw [hdef, ← hsign]
  cases hf : ([32, 64, 128, 256] ++ [separationPrecision m (quadWeight v)]).findSome? (signAtPrecision m v) with
  | some s =>
    obtain ⟨p, _, hp⟩ := List.exists_of_findSome?_eq_some hf
    exact (signAtPrecision_spec hm hv p).1 s hp
  | none =>
    have hn := List.findSome?_eq_none_iff.1 hf (separationPrecision m (quadWeight v)) (by simp)
    have h0 := signAtPrecision_separation hm hv hn
    rw [h0]; simp

/-- The machine's sign of a sum is the sign of the real number. -/
theorem TrigSum.sign_eq (l : TrigSum) : TrigSum.sign l = SignType.sign (TrigSum.value l) := by
  rw [TrigSum.sign, TrigQuad.sign_eq]; simp

/-- The machine's comparison with a rational is the comparison of the real numbers. -/
theorem TrigQuad.compare_eq (q : TrigQuad) (t : Rat) :
    TrigQuad.compare q t = SignType.sign (TrigQuad.value q - t) := by
  rw [TrigQuad.compare, TrigQuad.sign_eq]
  congr 1
  simp; ring

end Sys2Proof
end

