-- ==== Sys2Proof/Laws/ExactAngle.lean ====
section
/-!
SUPPORT. The machine's angle comparison and its rounded phase are those of `atan2` (00_scope.md rules R10 and R11).
-/

namespace Sys2Proof

open Real

/-- Polar form of a pair that is not at the origin. -/
theorem polar_form {a b : ℝ} (h : a ≠ 0 ∨ b ≠ 0) :
    ∃ r : ℝ, 0 < r ∧ a = r * Real.cos (atan2 b a) ∧ b = r * Real.sin (atan2 b a) := by
  have hz : (⟨a, b⟩ : ℂ) ≠ 0 := by
    intro h0
    rw [Complex.ext_iff] at h0
    simp at h0
    rcases h with h | h
    · exact h h0.1
    · exact h h0.2
  refine ⟨‖(⟨a, b⟩ : ℂ)‖, norm_pos_iff.2 hz, ?_, ?_⟩
  · simp [atan2]
  · simp [atan2]

theorem atan2_mem (b a : ℝ) : -π < atan2 b a ∧ atan2 b a ≤ π := Complex.arg_mem_Ioc _

theorem sign_mul_sin {r x : ℝ} (hr : 0 < r) (h1 : -π < x) (h2 : x < π) :
    SignType.sign (r * Real.sin x) = SignType.sign x := by
  rw [sign_mul, sign_pos hr, one_mul]
  rcases lt_trichotomy x 0 with h | h | h
  · rw [sign_neg h, sign_neg (Real.sin_neg_of_neg_of_neg_pi_lt h h1)]
  · simp [h]
  · rw [sign_pos h, sign_pos (Real.sin_pos_of_pos_of_lt_pi h h2)]

/-- Below the axis the angle is negative, elsewhere it is not. -/
theorem atan2_neg_iff (b a : ℝ) : atan2 b a < 0 ↔ b < 0 := by
  simp [atan2, Complex.arg_neg_iff]

/-- The machine compares the angle of a pair with a turn exactly. -/
theorem argCompare_eq {sn cs : TrigSum} (h : TrigSum.value sn ≠ 0 ∨ TrigSum.value cs ≠ 0) (t : Rat) :
    argCompare sn cs t = SignType.sign (atan2 (TrigSum.value cs) (TrigSum.value sn) - 2 * π * t) := by
  obtain ⟨r, hr, hs, hc⟩ := polar_form h
  obtain ⟨hθ1, hθ2⟩ := atan2_mem (TrigSum.value cs) (TrigSum.value sn)
  have hneg := atan2_neg_iff (TrigSum.value cs) (TrigSum.value sn)
  set S := TrigSum.value sn
  set C := TrigSum.value cs
  set θ := atan2 C S
  have hX : TrigQuad.value (crossing sn cs t) = r * Real.sin (θ - 2 * π * t) := by
    rw [crossing_value, Real.sin_sub]
    change C * _ - S * _ = _
    rw [hs, hc]; ring
  have hXs : TrigQuad.sign (crossing sn cs t) = SignType.sign (r * Real.sin (θ - 2 * π * t)) := by
    rw [TrigQuad.sign_eq, hX]
  have hCs : TrigSum.sign cs = .neg ↔ C < 0 := by
    rw [TrigSum.sign_eq]; exact sign_eq_neg_one_iff
  have hSs : TrigSum.sign sn = .pos ↔ 0 < S := by
    rw [TrigSum.sign_eq]; exact sign_eq_one_iff
  have hpi := pi_pos
  unfold argCompare
  by_cases h1 : 1 / 2 < t
  · have : ((1 / 2 : Rat) : ℝ) < t := Rat.cast_lt.2 h1
    push_cast at this
    rw [if_pos h1, sign_neg (by nlinarith)]; rfl
  rw [if_neg h1]
  have ht1 : (t : ℝ) ≤ ((1 / 2 : Rat) : ℝ) := Rat.cast_le.2 (not_lt.1 h1)
  by_cases h2 : t ≤ -1 / 2
  · have : (t : ℝ) ≤ ((-1 / 2 : Rat) : ℝ) := Rat.cast_le.2 h2
    push_cast at this
    rw [if_pos h2, sign_pos (by nlinarith)]; rfl
  rw [if_neg h2]
  have ht2 : ((-1 / 2 : Rat) : ℝ) < t := Rat.cast_lt.2 (not_le.1 h2)
  push_cast at ht1 ht2
  by_cases h3 : 0 < t
  · rw [if_pos h3]
    have ht0 : (0 : ℝ) < t := by exact_mod_cast h3
    rcases lt_or_ge C 0 with hC | hC
    · have hlt : θ - 2 * π * t < 0 := by have := hneg.2 hC; nlinarith
      rw [sign_neg hlt, if_pos (hCs.2 hC), if_pos (Or.inl (hCs.2 hC))]
      cases TrigQuad.sign (crossing sn cs t) <;> rfl
    · have hθ0 : 0 ≤ θ := by
        by_contra hlt
        exact absurd (hneg.1 (not_le.1 hlt)) (not_lt.2 hC)
      have hCn : ¬ TrigSum.sign cs = .neg := by rw [hCs]; exact not_lt.2 hC
      rw [if_neg hCn]
      simp only [hCn, false_or]
      by_cases hcorner : θ - 2 * π * t = -π
      · have hz : θ = 0 := by nlinarith
        have ht : (t : ℝ) = 1 / 2 := by nlinarith
        have htq : t = 1 / 2 := by exact_mod_cast (by rw [ht]; norm_num : (t : ℝ) = ((1 / 2 : Rat) : ℝ))
        have hSp : 0 < S := by
          have : S = r := by rw [hs, hz]; simp
          linarith
        have hX0 : TrigQuad.sign (crossing sn cs t) = .zero := by
          rw [hXs, hcorner]; simp
        rw [hX0, sign_neg (by linarith)]
        simp only [htq, hSs.2 hSp, and_self, if_true]
        rfl
      · have hgt : -π < θ - 2 * π * t := lt_of_le_of_ne (by nlinarith) (Ne.symm hcorner)
        rw [sign_mul_sin hr hgt (by nlinarith)] at hXs
        rw [hXs]
        rcases lt_trichotomy (θ - 2 * π * t) 0 with hlt | hz | hlt
        · rw [sign_neg hlt]; rfl
        · have h0 : SignType.sign (θ - 2 * π * t) = .zero := by rw [hz]; simp
          rw [h0]
          have hnc : ¬ (t = 1 / 2 ∧ TrigSum.sign sn = .pos) := by
            rintro ⟨htq, hSp⟩
            have ht : (t : ℝ) = 1 / 2 := by rw [htq]; norm_num
            have hθπ : θ = π := by nlinarith
            have : S = -r := by rw [hs, hθπ]; simp
            have := hSs.1 hSp
            linarith
          simp only [if_neg hnc]
        · rw [sign_pos hlt]; rfl
  · rw [if_neg h3]
    have ht0 : (t : ℝ) ≤ 0 := by
      have := not_lt.1 h3
      exact_mod_cast this
    rcases lt_or_ge C 0 with hC | hC
    · have hθ0 : θ < 0 := hneg.2 hC
      rw [sign_mul_sin hr (by nlinarith) (by nlinarith)] at hXs
      simp only [hCs.2 hC, if_true]
      rw [← hXs]
      cases TrigQuad.sign (crossing sn cs t) <;> rfl
    · have hθ0 : 0 ≤ θ := by
        by_contra hlt
        exact absurd (hneg.1 (not_le.1 hlt)) (not_lt.2 hC)
      have hCn : ¬ TrigSum.sign cs = .neg := by rw [hCs]; exact not_lt.2 hC
      simp only [hCn, if_false]
      rcases eq_or_lt_of_le ht0 with hz | hlt
      · have htq : t = 0 := by exact_mod_cast hz
        have hX0 : θ - 2 * π * t = θ := by rw [hz]; ring
        rw [hX0] at hXs ⊢
        rcases eq_or_lt_of_le hθ0 with hθz | hθp
        · have hSp : 0 < S := by
            have : S = r := by rw [hs, ← hθz]; simp
            linarith
          rw [hXs, ← hθz]
          simp [htq, hSs.2 hSp]

        · have hSn : ¬ (t = 0 ∧ TrigSum.sign sn = .pos) ∨ θ < π := by
            rcases eq_or_lt_of_le hθ2 with hπ | hπ
            · left
              rintro ⟨-, hSp⟩
              have : S = -r := by rw [hs, hπ]; simp
              have := hSs.1 hSp
              linarith
            · right; exact hπ
          rcases hSn with hn | hπ
          · simp only [if_neg hn]
            rw [sign_pos hθp]
            cases TrigQuad.sign (crossing sn cs t) <;> rfl
          · rw [sign_mul_sin hr hθ1 hπ, sign_pos hθp] at hXs
            rw [hXs, sign_pos hθp]; rfl
      · have htq : ¬ (t = 0 ∧ TrigSum.sign sn = .pos) := by
          rintro ⟨h0, -⟩
          rw [h0] at hlt; simp at hlt
        simp only [if_neg htq]
        rw [sign_pos (by nlinarith)]
        cases TrigQuad.sign (crossing sn cs t) <;> rfl

/-- Counting from k stops at the first half-integer the scaled angle does not reach. -/
theorem halfStepsReached_spec {n : ℕ} {sn cs : TrigSum} {y : ℝ}
    (hy : ∀ k : ℕ, argCompare sn cs ((2 * k + 1 : ℕ) / (2 * n : ℕ)) ≠ .neg ↔ (k : ℝ) + 1 / 2 ≤ y) :
    ∀ fuel k : ℕ, (k = 0 ∨ (k : ℝ) - 1 / 2 ≤ y) → y < k + fuel + 1 / 2 →
      let c := halfStepsReached n sn cs fuel k
      (c = 0 ∨ (c : ℝ) - 1 / 2 ≤ y) ∧ y < c + 1 / 2 := by
  intro fuel
  induction fuel with
  | zero =>
    intro k h1 h2
    simp only [halfStepsReached]
    exact ⟨h1, by simpa using h2⟩
  | succ fuel ih =>
    intro k h1 h2
    simp only [halfStepsReached]
    split_ifs with h
    · have hk := (hy k).1 h
      exact ih (k + 1) (Or.inr (by push_cast; linarith)) (by push_cast at h2 ⊢; linarith)
    · have hk := mt (hy k).2 h
      exact ⟨h1, not_le.1 hk⟩

theorem atan2_mirror {b a : ℝ} (h : atan2 b a ≠ π) : atan2 (-b) a = -atan2 b a := by
  have hc : (starRingEnd ℂ) (⟨a, b⟩ : ℂ) = ⟨a, -b⟩ := rfl
  have := Complex.arg_conj (⟨a, b⟩ : ℂ)
  rw [hc] at this
  have h' : ¬ Complex.arg ⟨a, b⟩ = π := h
  rw [atan2, this, if_neg h']; rfl

/-- The machine's phase is the rounded scaled angle, an exact half rounded away from zero. -/
theorem roundedPhase_eq {n : ℕ} (hn : 1 ≤ n) {sn cs : TrigSum} (h : TrigSum.value sn ≠ 0 ∨ TrigSum.value cs ≠ 0) :
    roundedPhase n sn cs
      = roundReal (atan2 (TrigSum.value cs) (TrigSum.value sn) / (2 * π) * n) := by
  have hpi := pi_pos
  have hn' : (0 : ℝ) < n := by exact_mod_cast hn
  have hcmp : ∀ (θ : ℝ) (k : ℕ), SignType.sign (θ - 2 * π * (((2 * k + 1 : ℕ) / (2 * n : ℕ) : Rat) : ℝ)) ≠ .neg ↔
      (k : ℝ) + 1 / 2 ≤ θ / (2 * π) * n := by
    intro θ k
    have e : SignType.sign (θ - 2 * π * (((2 * k + 1 : ℕ) / (2 * n : ℕ) : Rat) : ℝ)) ≠ .neg ↔
        0 ≤ θ - 2 * π * (((2 * k + 1 : ℕ) / (2 * n : ℕ) : Rat) : ℝ) := by
      rw [← not_lt, not_iff_not]; exact sign_eq_neg_one_iff
    rw [e, sub_nonneg]
    push_cast
    have e1 : 2 * π * ((2 * (k : ℝ) + 1) / (2 * n)) = ((k : ℝ) + 1 / 2) * (2 * π) / n := by field_simp
    rw [e1, div_le_iff₀ hn', div_mul_eq_mul_div, le_div_iff₀ (by positivity)]
  have hfuel : ∀ θ : ℝ, θ ≤ π → θ / (2 * π) * n < (0 : ℕ) + ((n + 1) / 2 : ℕ) + 1 / 2 := by
    intro θ hθ
    have h1 : θ / (2 * π) ≤ 1 / 2 := by rw [div_le_iff₀ (by positivity)]; linarith
    have h2 : (n : ℝ) / 2 ≤ ((n + 1) / 2 : ℕ) := by
      have : n ≤ 2 * ((n + 1) / 2) := by omega
      have : (n : ℝ) ≤ 2 * ((n + 1) / 2 : ℕ) := by exact_mod_cast this
      linarith
    push_cast at h2 ⊢
    nlinarith
  set θ := atan2 (TrigSum.value cs) (TrigSum.value sn) with hθ
  obtain ⟨hθ1, hθ2⟩ := atan2_mem (TrigSum.value cs) (TrigSum.value sn)
  have hup := halfStepsReached_spec (n := n) (sn := sn) (cs := cs) (y := θ / (2 * π) * n)
    (fun k => by rw [argCompare_eq h]; exact hcmp θ k) ((n + 1) / 2) 0 (Or.inl rfl) (hfuel θ hθ2)
  set c := halfStepsReached n sn cs ((n + 1) / 2) 0 with hc
  simp only [roundedPhase, ← hc]
  split_ifs with hpos
  · obtain ⟨h1, h2⟩ := hup
    have h1 := h1.resolve_left (by omega)
    have hc1 : (1 : ℝ) ≤ c := by exact_mod_cast hpos
    have hy0 : 0 ≤ θ / (2 * π) * n := by linarith
    rw [roundReal, if_pos hy0]
    symm
    rw [Int.floor_eq_iff]
    push_cast
    constructor <;> linarith
  · have hc0 : c = 0 := by omega
    rw [hc0] at hup
    have hylt : θ / (2 * π) * n < 1 / 2 := by simpa using hup.2
    have hne : θ ≠ π := by
      intro he
      rw [he] at hylt
      have : π / (2 * π) = 1 / 2 := by field_simp
      rw [this] at hylt
      have : (1 : ℝ) ≤ n := by exact_mod_cast hn
      linarith
    have hm : TrigSum.value sn ≠ 0 ∨ TrigSum.value (TrigSum.neg cs) ≠ 0 := by simpa using h
    have hmir : atan2 (TrigSum.value (TrigSum.neg cs)) (TrigSum.value sn) = -θ := by
      rw [TrigSum.value_neg]; exact atan2_mirror hne
    have hdn := halfStepsReached_spec (n := n) (sn := sn) (cs := TrigSum.neg cs) (y := -θ / (2 * π) * n)
      (fun k => by rw [argCompare_eq hm, hmir]; exact hcmp (-θ) k) ((n + 1) / 2) 0 (Or.inl rfl)
      (hfuel (-θ) (by linarith))
    set d := halfStepsReached n sn (TrigSum.neg cs) ((n + 1) / 2) 0
    obtain ⟨h1, h2⟩ := hdn
    have hyneg : -θ / (2 * π) * n = -(θ / (2 * π) * n) := by ring
    rw [hyneg] at h1 h2
    rw [roundReal]
    split_ifs with hy0
    · have hd0 : d = 0 := by
        rcases h1 with h1 | h1
        · exact h1
        · by_contra hd
          have : (1 : ℝ) ≤ d := by exact_mod_cast Nat.one_le_iff_ne_zero.2 hd
          linarith
      rw [hd0]
      symm
      simp only [Nat.cast_zero, neg_zero]
      rw [Int.floor_eq_iff]
      push_cast
      constructor <;> linarith
    · congr 1
      symm
      rw [Int.floor_eq_iff]
      push_cast
      rcases h1 with h1 | h1
      · rw [h1] at h2 ⊢
        push_cast at h2 ⊢
        constructor <;> linarith
      · constructor <;> linarith

end Sys2Proof
end

