-- ==== Sys2Proof/Laws/Ops.lean ====
section
/-!
SUPPORT. What each shared operation does, said once: the integers that the operand forms read and store, the
accumulator file, the conditioner, and one symbol's decoding. Later proofs cite these and do not unfold the operations.
-/

namespace Sys2Proof.Machine

/-! ## Operand forms -/

theorem maxSample_toNat (a b : Sample) : (maxSample a b).toNat = max a.toNat b.toNat := by
  unfold maxSample; split <;> omega

theorem minSample_toNat (a b : Sample) : (minSample a b).toNat = min a.toNat b.toNat := by
  unfold minSample; split <;> omega

theorem satU16_toNat (v : Int) : ((satU16 v).toNat : Int) = min (max v 0) 65535 := by
  unfold satU16 Config.countMax
  rw [BitVec.toNat_ofInt]
  omega

theorem toSample_toNat (v : Int) (h0 : 0 ≤ v) (h1 : v ≤ 2047) : ((toSample v).toNat : Int) = v := by
  unfold toSample
  rw [BitVec.toNat_ofInt]
  omega

theorem toPhase_toInt (v : Int) (h : v.natAbs ≤ 65535) : (toPhase v).toInt = v := by
  unfold toPhase
  rw [BitVec.toInt_ofInt]
  apply Int.bmod_eq_of_le <;> omega

theorem ofInt16_toNat (v : Int) (h0 : 0 ≤ v) (h1 : v ≤ 65535) : ((BitVec.ofInt 16 v).toNat : Int) = v := by
  rw [BitVec.toNat_ofInt]
  omega

/-- The quotient of the smoothing step lies between 0 and the difference (R104). -/
theorem truncDiv_between (d : Int) : (0 ≤ truncDiv d 8 ∧ truncDiv d 8 ≤ d) ∨ (d ≤ truncDiv d 8 ∧ truncDiv d 8 ≤ 0) := by
  unfold truncDiv
  rcases Int.le_total 0 d with h | h
  · left
    rw [Int.tdiv_eq_ediv_of_nonneg h]
    omega
  · right
    have e : d.tdiv 8 = -((-d).tdiv 8) := by simp
    rw [e, Int.tdiv_eq_ediv_of_nonneg (by omega)]
    omega

/-! ## The accumulator file -/

@[simp] theorem Pairs.get_zero (f : Fin 9) : Pairs.zero.get f = Pair.zero := by
  fin_cases f <;> rfl

@[simp] theorem Pairs.get_update (p : Pairs) (g : Nat → Pair → Pair) (f : Fin 9) :
    (p.update g).get f = g (f.val + 1) (p.get f) := by
  fin_cases f <;> rfl

theorem Pairs.ext_get {p q : Pairs} (h : ∀ f, p.get f = q.get f) : p = q := by
  cases p; cases q
  have := h 0; have := h 1; have := h 2; have := h 3; have := h 4; have := h 5; have := h 6; have := h 7; have := h 8
  simp_all [Pairs.get]

/-- ADD_SAMPLE where the formula of R171 has a value. -/
theorem addSample_eq (x : Rat) (s : State) (h : s.sampleCount ≠ 0#16) :
    addSample x s = { s with acc := { i := s.acc.i + 1#16
                                      pairs := s.acc.pairs.update (accumulate s.sampleCount.toNat s.acc.i.toNat x) } } := by
  simp only [addSample, h, if_false]

theorem accumulate_sin_value (n i : Nat) (x : Rat) (f : Nat) (p : Pair) :
    (accumulate n i x f p).sin.value
      = p.sin.value + Real.sin (2 * Real.pi * f * i / n) * x * 25 / n := by
  simp only [accumulate, TrigSum.value_addSin, Config.accScale]
  push_cast
  ring_nf

theorem accumulate_cos_value (n i : Nat) (x : Rat) (f : Nat) (p : Pair) :
    (accumulate n i x f p).cos.value
      = p.cos.value + Real.cos (2 * Real.pi * f * i / n) * x * 25 / n := by
  simp only [accumulate, TrigSum.value_addCos, Config.accScale]
  push_cast
  ring_nf

theorem addSample_i (x : Rat) (s : State) : (addSample x s).acc.i = s.acc.i + 1#16 := by
  unfold addSample; split <;> rfl

/-- The sine accumulator of every frequency after ADD_SAMPLE (R171). -/
theorem addSample_sin (x : Rat) (s : State) (f : Fin 9) (h : s.sampleCount ≠ 0#16) :
    ((addSample x s).acc.pairs.get f).sin.value = s.sinAfter x f := by
  rw [addSample_eq x s h]
  simp only [Pairs.get_update, accumulate_sin_value, State.sinAfter, State.angle]

/-- The cosine accumulator of every frequency after ADD_SAMPLE (R171). -/
theorem addSample_cos (x : Rat) (s : State) (f : Fin 9) (h : s.sampleCount ≠ 0#16) :
    ((addSample x s).acc.pairs.get f).cos.value = s.cosAfter x f := by
  rw [addSample_eq x s h]
  simp only [Pairs.get_update, accumulate_cos_value, State.cosAfter, State.angle]

/-! ## The conditioner -/

theorem freeFraction_range (p : Nat × Nat) : 0 ≤ freeFraction p ∧ freeFraction p ≤ 1 := by
  unfold freeFraction
  refine ⟨by positivity, ?_⟩
  apply div_le_one_of_le₀
  · push_cast; linarith [(Nat.cast_nonneg p.2 : (0 : Rat) ≤ p.2)]
  · positivity

/-- The state that the conditioner leaves: the extremes are widened, and a draw is counted where there is no range. -/
theorem conditioned_state (x : Sample) (s : State) :
    (conditioned x s).2 = { condWiden x s with draws := (conditioned x s).2.draws } := by
  simp only [conditioned, condNormalize]
  split <;> rfl

/-- fsample where the widened extremes differ (R107 to R109), and no draw. -/
theorem conditioned_eq (x : Sample) (s : State) (h : widenedMin x s < widenedMax x s) :
    conditioned x s = (expectedFsample x s, condWiden x s) := by
  have hmax : (condWiden x s).signalMax.toNat = widenedMax x s := by
    rw [condWiden_signalMax, maxSample_toNat, widenedMax]
  have hmin : (condWiden x s).signalMin.toNat = widenedMin x s := by
    rw [condWiden_signalMin, minSample_toNat, widenedMin]
  have hne : (condWiden x s).signalMax ≠ (condWiden x s).signalMin := by
    intro e
    rw [e] at hmax
    omega
  simp only [conditioned, condNormalize, if_neg hne, sampleInt, hmax, hmin, condPolarityFix, expectedFsample]
  push_cast
  rfl

/-! ## The tests and counts before calibration -/

/-- The commit test of R103, over the integers. -/
theorem condCommits_iff (x : Sample) (s : State) :
    condCommits (condDiff x s) = true ↔ 64 < ((x.toNat : Int) - s.baseline.toNat).natAbs := by
  unfold condCommits
  rw [decide_eq_true_iff]
  unfold condDiff sampleInt Config.polThresh
  omega

/-- The exit test of R132, over the integers. -/
theorem firstHalfExit_iff (x : Sample) (s : State) :
    firstHalfExit x s = true ↔
      (if s.polarity then (s.signalMax.toNat : Int) - s.signalMin.toNat < (s.signalMax.toNat : Int) - x.toNat
        else (s.signalMax.toNat : Int) - s.signalMin.toNat < (x.toNat : Int) - s.signalMin.toNat) := by
  unfold firstHalfExit
  simp only [decide_eq_true_iff]
  unfold sampleInt
  cases s.polarity <;> rfl

/-- The exit test of R133, over the natural numbers. -/
theorem secondHalfExit_iff (x : Sample) (s : State) :
    secondHalfExit x s = true ↔
      (if s.polarity then (s.signalMin.toNat + s.signalMax.toNat) / 2 < x.toNat
        else x.toNat < (s.signalMin.toNat + s.signalMax.toNat) / 2) := by
  have : floorDiv (sampleInt s.signalMin + sampleInt s.signalMax) 2
      = ((s.signalMin.toNat + s.signalMax.toNat) / 2 : Nat) := by
    unfold floorDiv sampleInt
    rw [Int.fdiv_eq_ediv_of_nonneg _ (by omega)]
    push_cast
    rfl
  simp only [secondHalfExit, this]
  cases s.polarity <;> simp [sampleInt] <;> norm_cast

/-- The seed count after one sample (R131). -/
theorem satU16_succ (n : Count) : (satU16 (countInt n + 1)).toNat = min (n.toNat + 1) 65535 := by
  have := satU16_toNat (countInt n + 1)
  unfold countInt at *
  omega

/-- The seed clamped on entry to DetectCalibrate (R134). -/
theorem satU16_clampLo (n : Count) : (satU16 (clampLo (countInt n))).toNat = max n.toNat 19 := by
  have h := satU16_toNat (clampLo (countInt n))
  unfold clampLo countInt Config.minN at *
  have := n.isLt
  omega

/-- An accumulator at zero has the value 0 everywhere (R175). -/
theorem Accumulator.zero_values (f : Fin 9) :
    (Accumulator.zero.pairs.get f).sin.value = 0 ∧ (Accumulator.zero.pairs.get f).cos.value = 0 := by
  rw [show Accumulator.zero.pairs = Pairs.zero from rfl, Pairs.get_zero]
  exact ⟨rfl, rfl⟩

/-! ## One symbol's decoding -/

theorem mem_phaseCandidates_le (b : Config.ErrorBound) (n : Nat) (sn cs : TrigSum) (k v : Int)
    (h : v ∈ phaseCandidates b n sn cs k) : v.natAbs ≤ (n + 1) / 2 := by
  simp only [phaseCandidates, List.mem_filter, Bool.and_eq_true, decide_eq_true_eq] at h
  have := h.2.1
  rw [Int.abs_eq_natAbs] at this
  omega

theorem halfStepsReached_le (n : Nat) (sn cs : TrigSum) (fuel k : Nat) :
    halfStepsReached n sn cs fuel k ≤ fuel + k := by
  induction fuel generalizing k with
  | zero => simp [halfStepsReached]
  | succ m ih =>
    unfold halfStepsReached
    split
    · have := ih (k + 1); omega
    · omega

/-- The exact phase is at most half the period, rounded up (R137). -/
theorem roundedPhase_natAbs_le (n : Nat) (sn cs : TrigSum) : (roundedPhase n sn cs).natAbs ≤ (n + 1) / 2 := by
  simp only [roundedPhase]
  have h1 := halfStepsReached_le n sn cs ((n + 1) / 2) 0
  have h2 := halfStepsReached_le n sn (TrigSum.neg cs) ((n + 1) / 2) 0
  split <;> omega

/-- With any number format a phase is at most half the period, rounded up (R137). -/
theorem measuredPhase_natAbs_le (nm : Config.Numerics) (d n : Nat) (p : Pair) :
    (measuredPhase nm d n p).natAbs ≤ (n + 1) / 2 := by
  unfold measuredPhase
  cases nm with
  | exact => exact roundedPhase_natAbs_le _ _ _
  | bounded b =>
    simp only []
    split
    · have := Nat.mod_lt (Config.freeChoice d) (show 0 < 2 * ((n + 1) / 2) + 1 by omega)
      simp only [freePhase]
      omega
    rw [List.getD_eq_getElem?_getD]
    cases hg : (phaseCandidates b n p.sin p.cos (roundedPhase n p.sin p.cos))[Config.freeChoice d %
        (phaseCandidates b n p.sin p.cos (roundedPhase n p.sin p.cos)).length]? with
    | none => simpa using roundedPhase_natAbs_le _ _ _
    | some v => simpa using mem_phaseCandidates_le _ _ _ _ _ _ (List.mem_of_getElem? hg)

/-- The power of a frequency as a real number (R173). -/
theorem toFrequencies_value (p : Pairs) (f : Fin 9) :
    (toFrequencies p f).value = (p.get f).sin.value ^ 2 + (p.get f).cos.value ^ 2 := by
  simp [toFrequencies, power_value]

/-- With exact numerics a bit is present exactly when the real power exceeds 1/4 (R174, R178). -/
theorem bitPresent_exact (free : Bool) (q : TrigQuad) : bitPresent .exact free q = true ↔ (1 / 4 : ℝ) < q.value := by
  simp only [bitPresent, decide_eq_true_eq, TrigQuad.compare_eq, Config.bitThresh]
  rw [show SignType.pos = 1 from rfl, sign_eq_one_iff]
  push_cast
  constructor <;> intro h <;> linarith

theorem getLsbD_setIf (w : SymbolWord) (b : Bool) (k j : Nat) (hk : k < 9) :
    (if b = true then w ||| (1#9 <<< k) else w).getLsbD j = (w.getLsbD j || (b && decide (j = k))) := by
  cases b
  · simp
  · simp only [if_true, BitVec.getLsbD_or, BitVec.getLsbD_shiftLeft, BitVec.getLsbD_one, Bool.true_and]
    congr 1
    by_cases h : j = k
    · subst h; simp [hk]
    · simp [h]; omega

theorem getLsbD_foldl_setIf (b : Fin 9 → Bool) (j : Nat) (l : List (Fin 9)) (w : SymbolWord) :
    (l.foldl (fun w f => if b f = true then w ||| (1#9 <<< (9 - (f.val + 1))) else w) w).getLsbD j
      = (w.getLsbD j || l.any fun f => b f && decide (j = 9 - (f.val + 1))) := by
  induction l generalizing w with
  | nil => simp
  | cons f l ih =>
    rw [List.foldl_cons, ih, getLsbD_setIf _ _ _ _ (by omega), List.any_cons, Bool.or_assoc]

/-- The bits of the symbol word: bit 9 − f is that of frequency f (R174, R79). -/
theorem wordOf_bit (nm : Config.Numerics) (d : Nat) (p : Pairs) (f : Fin 9) :
    (wordOf nm d p).getLsbD (8 - f.val) = bitPresent nm (Config.freeBit d (f.val + 1)) (toFrequencies p f) := by
  rw [wordOf, getLsbD_foldl_setIf (fun f => bitPresent nm (Config.freeBit d (f.val + 1)) (toFrequencies p f))]
  fin_cases f <;> simp only [BitVec.getLsbD_zero, List.any_cons, List.any_nil] <;> simp

end Sys2Proof.Machine
end

