-- ==== Sys2Proof/Laws/Symbol.lean ====
section
/-!
SUPPORT. What a FEED in DetectCalibrate or DecodeData does, said once for each of its three courses: skipped, accumulated
inside a window, and completing a symbol. The lemmas hold for both handlers, which differ in the verdict only.
-/

namespace Sys2Proof.Machine

/-- A verdict looks at the word and changes the decoder state only (R139, R140). -/
structure Verdict (v : State → Result × State) : Prop where
  frame : ∀ s, (v s).2 = { s with state := (v s).2.state }
  word : ∀ s u, s.word = u.word → (v s).1 = (v u).1
  /-- The verdict keeps the state, or the word tells which state comes. -/
  state : ∀ s u, s.word = u.word → s.state = u.state → (v s).2.state = (v u).2.state

theorem calDecide_verdict : Verdict calDecide where
  frame s := by unfold calDecide; split <;> [rfl; (split <;> rfl)]
  word s u h := by unfold calDecide; rw [h]; split <;> [rfl; (split <;> rfl)]
  state s u h h' := by unfold calDecide; rw [h]; split <;> [rfl; (split <;> [rfl; exact h'])]

theorem dataDecide_verdict : Verdict dataDecide where
  frame s := by unfold dataDecide; split <;> rfl
  word s u h := by unfold dataDecide; rw [h]; split <;> rfl
  state s u h h' := by unfold dataDecide; rw [h]; split <;> [rfl; exact h']

/-- The result of CAL_DECIDE is NODATA in all three cases (R139). -/
@[simp] theorem calDecide_result (s : State) : (calDecide s).1 = .noData := by
  unfold calDecide; split <;> [rfl; (split <;> rfl)]

/-- The state after CAL_DECIDE (R139). -/
theorem calDecide_state (s : State) :
    (calDecide s).2.state =
      if s.word = 0x000#9 then .init else if s.word = 0x13E#9 then .decodeData else s.state := by
  unfold calDecide Config.markerWord
  by_cases h : s.word = 0x000#9
  · simp only [h, if_true]
  · by_cases h' : s.word = 0x13E#9
    · simp [h']
    · simp [h, h']

/-- The result of DATA_DECIDE (R140). -/
theorem dataDecide_result (s : State) :
    (dataDecide s).1 = if s.word = 0x000#9 then .eof else .data (dataByte s.word) := by
  unfold dataDecide; split <;> rfl

/-- The state after DATA_DECIDE (R140). -/
theorem dataDecide_state (s : State) :
    (dataDecide s).2.state = if s.word = 0x000#9 then .eof else s.state := by
  unfold dataDecide; split <;> rfl

/-! ## DECODE_BYTE -/

/-- The symbol word that a completing FEED with the sample `y` forms. -/
def completedWord (y : Rat) (s : State) : SymbolWord :=
  wordOf (addSample y s).numerics (addSample y s).draws (addSample y s).acc.pairs

/-- The phase that a completing FEED with the sample `y` leaves, after the sync gate. -/
def completedPhase (y : Rat) (s : State) : Phase :=
  if syncSet (completedWord y s) then
    toPhase (measuredPhase (addSample y s).numerics (addSample y s).draws s.sampleCount.toNat (addSample y s).acc.pairs.p1)
  else 0#17

theorem decodeByte_inside (y : Rat) (s : State) (h : s.acc.i + 1#16 ≠ s.sampleCount) :
    decodeByte y s = (.noData, addSample y s) := by
  have : accReady (addSample y s) = false := by
    simp only [accReady, addSample_i, addSample_sampleCount, decide_eq_false_iff_not]
    exact h
  simp only [decodeByte, this]
  rfl

theorem decodeByte_boundary (y : Rat) (s : State) (h : s.acc.i + 1#16 = s.sampleCount) :
    decodeByte y s = (byteResult (completedWord y s),
      { addSample y s with
        word := completedWord y s
        phase := completedPhase y s
        acc := .zero
        draws := (symbolDrawn (addSample y s)).draws }) := by
  have hr : accReady (addSample y s) = true := by
    simp only [accReady, addSample_i, addSample_sampleCount, decide_eq_true_eq]
    exact h
  simp only [decodeByte, hr, if_true]
  simp only [accReset_word, symbolDrawn_word, phaseSyncGate_word, phaseMeasure_word, wordForm_word]
  refine Prod.ext rfl ?_
  simp only [accReset, symbolDrawn]
  simp only [phaseSyncGate_numerics, phaseMeasure_numerics, wordForm_numerics]
  rw [addSample_numerics]
  cases hn : s.numerics <;>
    simp [State.drawn, phaseSyncGate, phaseMeasure, wordForm, completedWord, completedPhase, hn]

theorem byteResult_ne_noData (w : SymbolWord) : byteResult w ≠ .noData := by
  unfold byteResult; split <;> simp

theorem completedPhase_natAbs_le (y : Rat) (s : State) :
    (completedPhase y s).toInt.natAbs ≤ (s.sampleCount.toNat + 1) / 2 := by
  unfold completedPhase
  split
  · have h := measuredPhase_natAbs_le (addSample y s).numerics (addSample y s).draws s.sampleCount.toNat
      (addSample y s).acc.pairs.p1
    have := s.sampleCount.isLt
    rw [toPhase_toInt _ (by omega)]
    exact h
  · simp

/-! ## The drift rule and the re-alignment -/

theorem driftRule_eq (s : State) :
    driftRule s = { s with
      sampleCount := if driftCheck s then satU16 (clampLo (countInt s.sampleCount - driftMean s)) else s.sampleCount
      phase2 := s.phase
      phase3 := if driftCheck s then 0#17 else s.phase2 } := by
  cases h : driftCheck s
  · simp only [driftRule, h, Bool.false_eq_true, if_false, phaseShift]
  · simp only [driftRule, h, if_true, phaseShift, driftSuppress, driftCorrect]

theorem driftCheck_iff (s : State) :
    driftCheck s = true ↔ sameSign s.phase.toInt s.phase2.toInt s.phase3.toInt := by
  simp only [driftCheck, decide_eq_true_eq, sameSign]
  constructor
  · rintro ⟨h1, h2, h3, h4, h5⟩
    rcases Int.lt_or_gt_of_ne h1 with h | h
    · right
      rw [Int.sign_eq_neg_one_of_neg h] at h4
      have h6 := Int.sign_eq_neg_one_iff_neg.mp h4.symm
      rw [Int.sign_eq_neg_one_of_neg h6] at h5
      exact ⟨h, h6, Int.sign_eq_neg_one_iff_neg.mp h5.symm⟩
    · left
      rw [Int.sign_eq_one_of_pos h] at h4
      have h6 := Int.sign_eq_one_iff_pos.mp h4.symm
      rw [Int.sign_eq_one_of_pos h6] at h5
      exact ⟨h, h6, Int.sign_eq_one_iff_pos.mp h5.symm⟩
  · rintro (⟨h1, h2, h3⟩ | ⟨h1, h2, h3⟩)
    · refine ⟨by omega, by omega, by omega, ?_, ?_⟩ <;> simp only [Int.sign_eq_one_of_pos, h1, h2, h3]
    · refine ⟨by omega, by omega, by omega, ?_, ?_⟩ <;> simp only [Int.sign_eq_neg_one_of_neg, h1, h2, h3]

/-- The period after the drift rule stays at or above the floor. -/
theorem driftRule_floor (s : State) (h : 19 ≤ s.sampleCount.toNat) : 19 ≤ (driftRule s).sampleCount.toNat := by
  rw [driftRule_eq]
  simp only []
  split
  · have := satU16_toNat (clampLo (countInt s.sampleCount - driftMean s))
    simp only [clampLo, Config.minN] at *
    omega
  · exact h

/-! ## The three courses of a FEED in a calibrated state -/

theorem gatedFeed_skipped (v : State → Result × State) (x : Sample) (s : State) (h : s.skip ≠ 0#16) :
    gatedFeed v x s = (.noData, { (conditioned x s).2 with skip := s.skip - 1#16 }) := by
  have hs : (conditioned x s).2.skip = s.skip := by rw [conditioned_state]; rfl
  simp only [gatedFeed, skipGate, hs, ne_eq, h, not_false_eq_true, if_true]

theorem gatedFeed_inside (v : State → Result × State) (x : Sample) (s : State) (h : s.skip = 0#16)
    (hi : s.acc.i + 1#16 ≠ s.sampleCount) :
    gatedFeed v x s = (.noData, addSample (conditioned x s).1 (conditioned x s).2) := by
  have hs : (conditioned x s).2.skip = s.skip := by rw [conditioned_state]; rfl
  have ha : (conditioned x s).2.acc = s.acc := by rw [conditioned_state]; rfl
  have hn : (conditioned x s).2.sampleCount = s.sampleCount := by rw [conditioned_state]; rfl
  simp only [gatedFeed, skipGate, hs, h, ne_eq, not_true_eq_false, if_false]
  rw [decodeByte_inside _ _ (by rw [ha, hn]; exact hi)]

/-- What holds after a FEED of `x` that completed a symbol from `s` with the verdict `v`: `t` is the state left. -/
structure Completed (v : State → Result × State) (x : Sample) (s t : State) : Prop where
  frame : t = { s with
    state := t.state, signalMin := minSample s.signalMin x, signalMax := maxSample s.signalMax x
    sampleCount := t.sampleCount, acc := t.acc, phase := t.phase, phase2 := t.phase2, phase3 := t.phase3
    skip := t.skip, word := t.word, draws := t.draws }
  word : t.word = completedWord (conditioned x s).1 (conditioned x s).2
  phase : t.phase = completedPhase (conditioned x s).1 (conditioned x s).2
  result : (gatedFeed v x s).1 = (v { s with word := t.word }).1
  state : t.state = (v { s with word := t.word }).2.state
  phase2 : t.phase2 = t.phase
  phase3 : t.phase3 = if driftCheck { s with phase := t.phase } then 0#17 else s.phase2
  period : t.sampleCount =
    if driftCheck { s with phase := t.phase } then
      satU16 (clampLo (countInt s.sampleCount - driftMean { s with phase := t.phase }))
    else s.sampleCount
  late : t.phase.toInt < 0 → t.skip = BitVec.ofInt 16 (-t.phase.toInt) ∧ t.acc = .zero
  early : 0 < t.phase.toInt → t.skip = 0#16 ∧
    t.acc = { i := 1#16, pairs := Pairs.zero.update (accumulate t.sampleCount.toNat 0 (conditioned x s).1) }
  onTime : t.phase = 0#17 → t.skip = 0#16 ∧ t.acc = .zero
  draws : s.numerics = .exact → t.draws = (conditioned x s).2.draws

theorem gatedFeed_boundary (v : State → Result × State) (hv : Verdict v) (x : Sample) (s : State) (h : s.skip = 0#16)
    (hb : s.acc.i + 1#16 = s.sampleCount) (hN : 19 ≤ s.sampleCount.toNat) :
    Completed v x s (gatedFeed v x s).2 := by
  have hc := conditioned_state x s
  have hs : (conditioned x s).2.skip = s.skip := by rw [hc]; rfl
  have ha : (conditioned x s).2.acc = s.acc := by rw [hc]; rfl
  have hn : (conditioned x s).2.sampleCount = s.sampleCount := by rw [hc]; rfl
  set y := (conditioned x s).1 with hy
  set c := (conditioned x s).2 with hcd
  have hd := decodeByte_boundary y c (by rw [ha, hn]; exact hb)
  set d := (decodeByte y c).2 with hdd
  have hg : gatedFeed v x s = symbolDone v y d := by
    simp only [gatedFeed, skipGate, ← hy, ← hcd, hs, h, ne_eq, not_true_eq_false, if_false]
    have hne : (decodeByte y c).1 ≠ .noData := by rw [hd]; exact byteResult_ne_noData _
    cases hr : (decodeByte y c).1 with
    | noData => exact absurd hr hne
    | eof => rfl
    | data b => rfl
  have hD : d = { s with
      signalMin := minSample s.signalMin x, signalMax := maxSample s.signalMax x
      acc := .zero, word := completedWord y c, phase := completedPhase y c, draws := d.draws } := by
    have hadd : addSample y c = { c with acc := (addSample y c).acc, draws := (addSample y c).draws } := by
      unfold addSample; split <;> rfl
    rw [hdd, hd, hadd, hc]
    rfl
  have hdr : s.numerics = .exact → d.draws = c.draws := by
    intro hex
    have hcn : c.numerics = .exact := by rw [hc]; exact hex
    have h0 : c.sampleCount ≠ 0#16 := by
      rw [hn]; intro e; rw [e] at hN; simp at hN
    rw [hdd, hd]
    simp only [symbolDrawn, addSample_numerics, hcn]
    rw [addSample_eq _ _ h0]
  generalize hW : completedWord y c = W at *
  generalize hP : completedPhase y c = P at *
  have hv1 : (v d).1 = (v { s with word := W }).1 := hv.word _ _ (by rw [hD])
  have hv2 : (v d).2.state = (v { s with word := W }).2.state := hv.state _ _ (by rw [hD]) (by rw [hD])
  generalize hσ : (v { s with word := W }).2.state = σ at *
  have he : driftRule (v d).2 = { s with
      state := σ, signalMin := minSample s.signalMin x, signalMax := maxSample s.signalMax x
      sampleCount :=
        if driftCheck { s with phase := P } then
          satU16 (clampLo (countInt s.sampleCount - driftMean { s with phase := P }))
        else s.sampleCount
      acc := .zero, word := W, phase := P, phase2 := P
      phase3 := if driftCheck { s with phase := P } then 0#17 else s.phase2
      draws := d.draws } := by
    rw [driftRule_eq, hv.frame, hv2, hD]
    rfl
  have hN' : 19 ≤ (driftRule (v d).2).sampleCount.toNat := by
    apply driftRule_floor
    rw [hv.frame, hD]; exact hN
  have ht : (gatedFeed v x s).2 = realign y (driftRule (v d).2) := by rw [hg]; rfl
  have hr : (gatedFeed v x s).1 = (v { s with word := W }).1 := by rw [hg]; exact hv1
  generalize driftRule (v d).2 = e at *
  have hep : e.phase = P := by rw [he]
  rcases lt_trichotomy P.toInt 0 with hneg | hzero | hpos
  · have ht' : (gatedFeed v x s).2 = { e with skip := BitVec.ofInt 16 (-P.toInt) } := by
      rw [ht, realign, hep, if_pos hneg, realignLate, hep]
    rw [ht', he]
    exact { frame := rfl, word := hW.symm, phase := hP.symm, result := hr, state := hσ.symm, phase2 := rfl, phase3 := rfl,
            period := rfl, late := fun _ => ⟨rfl, rfl⟩, early := fun h => absurd h (by simp only []; omega),
            onTime := fun h => absurd h (by simp only []; intro e; rw [e] at hneg; simp at hneg), draws := hdr }
  · have ht' : (gatedFeed v x s).2 = e := by
      rw [ht, realign, hep, if_neg (by omega), if_neg (by omega)]
    rw [ht', he]
    exact { frame := rfl, word := hW.symm, phase := hP.symm, result := hr, state := hσ.symm, phase2 := rfl, phase3 := rfl,
            period := rfl, late := fun h => absurd h (by simp only []; omega), early := fun h => absurd h (by simp only []; omega),
            onTime := fun _ => ⟨h, rfl⟩, draws := hdr }
  · have hne : e.sampleCount ≠ 0#16 := by
      intro h0; rw [h0] at hN'; simp at hN'
    have hne1 : e.acc.i + 1#16 ≠ e.sampleCount := by
      intro h1
      have : e.acc.i = 0#16 := by rw [he]; rfl
      rw [this] at h1
      rw [← h1] at hN'
      simp at hN'
    have ht' : (gatedFeed v x s).2 = { e with
        acc := { i := 1#16, pairs := Pairs.zero.update (accumulate e.sampleCount.toNat 0 y) } } := by
      rw [ht, realign, hep, if_neg (by omega), if_pos hpos, realignEarly, decodeByte_inside _ _ hne1, addSample_eq _ _ hne]
      have : e.acc = .zero := by rw [he]
      rw [this, hep]
      rfl
    rw [ht', he]
    exact { frame := rfl, word := hW.symm, phase := hP.symm, result := hr, state := hσ.symm, phase2 := rfl, phase3 := rfl,
            period := rfl, late := fun h => absurd h (by simp only []; omega), early := fun _ => ⟨h, rfl⟩,
            onTime := fun h => absurd h (by simp only []; intro e; rw [e] at hpos; simp at hpos), draws := hdr }

/-! ## The same over the natural numbers -/

theorem State.boundary_add {s : State} (h : s.boundary) : s.acc.i + 1#16 = s.sampleCount := by
  have h2 := h.2
  have := s.sampleCount.isLt
  apply BitVec.eq_of_toNat_eq
  simp only [BitVec.toNat_add, BitVec.toNat_ofNat]
  omega

theorem State.index_succ_ne {s : State} (hi : s.acc.i.toNat < s.sampleCount.toNat)
    (hn : s.acc.i.toNat + 1 ≠ s.sampleCount.toNat) : s.acc.i + 1#16 ≠ s.sampleCount := by
  intro h
  have e := congrArg BitVec.toNat h
  have := s.sampleCount.isLt
  simp only [BitVec.toNat_add, BitVec.toNat_ofNat] at e
  omega

theorem State.index_succ_toNat {s : State} (hi : s.acc.i.toNat < s.sampleCount.toNat) :
    (s.acc.i + 1#16).toNat = s.acc.i.toNat + 1 := by
  have := s.sampleCount.isLt
  simp only [BitVec.toNat_add, BitVec.toNat_ofNat]
  omega

theorem State.sampleCount_ne_zero {s : State} (h : 0 < s.sampleCount.toNat) : s.sampleCount ≠ 0#16 := by
  intro e
  rw [e] at h
  simp at h

/-- The sync test is the test of bit 8 (R79, R138). -/
theorem syncSet_iff (w : SymbolWord) : syncSet w = true ↔ w &&& 0x100#9 ≠ 0#9 := by
  unfold syncSet Config.syncBit
  rw [decide_eq_true_iff]

theorem syncSet_bit (w : SymbolWord) : syncSet w = w.getLsbD 8 := by
  revert w
  decide

/-- Without the sync bit the phase is 0, with any number format (R138). -/
theorem completedPhase_syncless {y : Rat} {s : State} (h : completedWord y s &&& 0x100#9 = 0#9) :
    completedPhase y s = 0#17 := by
  have : syncSet (completedWord y s) = false := by
    rw [Bool.eq_false_iff, Ne, syncSet_iff]
    exact fun hn => hn h
  simp [completedPhase, this]

/-- With exact numerics, bit 9 − f of a completed word tells whether p_f exceeds 1/4 (R173, R174). -/
theorem completedWord_bit {y : Rat} {s : State} (f : Fin 9) (hn : s.numerics = .exact) (h0 : s.sampleCount ≠ 0#16) :
    (completedWord y s).getLsbD (8 - f.val) = true ↔ (1 / 4 : ℝ) < s.powerAfter y f := by
  rw [completedWord, wordOf_bit, addSample_numerics, hn, bitPresent_exact, toFrequencies_value, addSample_sin _ _ _ h0,
    addSample_cos _ _ _ h0]
  rfl

/-- With exact numerics, the phase of a completed symbol with the sync bit (R137). -/
theorem completedPhase_exact {y : Rat} {s : State} (hn : s.numerics = .exact) (h1 : 0 < s.sampleCount.toNat)
    (hs : completedWord y s &&& 0x100#9 ≠ 0#9) : (completedPhase y s).toInt = roundReal (s.scaledPhaseAfter y) := by
  have h0 := State.sampleCount_ne_zero h1
  have hsync : syncSet (completedWord y s) = true := (syncSet_iff _).mpr hs
  have hp := (completedWord_bit (y := y) 0 hn h0).mp ((syncSet_bit _).symm.trans hsync)
  have hsin : (addSample y s).acc.pairs.p1.sin.value = s.sinAfter y 0 := addSample_sin y s 0 h0
  have hcos : (addSample y s).acc.pairs.p1.cos.value = s.cosAfter y 0 := addSample_cos y s 0 h0
  have hne : (addSample y s).acc.pairs.p1.sin.value ≠ 0 ∨ (addSample y s).acc.pairs.p1.cos.value ≠ 0 := by
    rw [hsin, hcos]
    by_contra hc
    push Not at hc
    rw [State.powerAfter, hc.1, hc.2] at hp
    norm_num at hp
  have hb := roundedPhase_natAbs_le s.sampleCount.toNat (addSample y s).acc.pairs.p1.sin (addSample y s).acc.pairs.p1.cos
  have := s.sampleCount.isLt
  rw [completedPhase, if_pos hsync, addSample_numerics, hn, measuredPhase, toPhase_toInt _ (by omega),
    roundedPhase_eq h1 hne, hsin, hcos]
  rfl

end Sys2Proof.Machine
end

