-- ==== Sys2Proof/Laws/Frames.lean ====
section
/-!
SUPPORT. What a FEED in a calibrated state leaves alone in every state, also in those no run reaches: the ports, the
number format, the polarity and the baseline, and the extremes once they are widened.
-/

namespace Sys2Proof.Machine

/-- The fields that neither the gate nor the correlator nor a symbol boundary writes. -/
structure Kept (s t : State) : Prop where
  responses : t.responses = s.responses
  taken : t.taken = s.taken
  inputs : t.inputs = s.inputs
  numerics : t.numerics = s.numerics
  baseline : t.baseline = s.baseline
  polarity : t.polarity = s.polarity
  signalMin : t.signalMin = s.signalMin
  signalMax : t.signalMax = s.signalMax

theorem Kept.trans {a b c : State} (h : Kept a b) (k : Kept b c) : Kept a c :=
  ⟨k.responses.trans h.responses, k.taken.trans h.taken, k.inputs.trans h.inputs, k.numerics.trans h.numerics,
    k.baseline.trans h.baseline, k.polarity.trans h.polarity, k.signalMin.trans h.signalMin, k.signalMax.trans h.signalMax⟩

theorem addSample_frame (y : Rat) (s : State) :
    addSample y s = { s with acc := (addSample y s).acc, draws := (addSample y s).draws } := by
  unfold addSample; split <;> rfl

theorem decodeByte_kept (y : Rat) (s : State) : Kept s (decodeByte y s).2 := by
  by_cases h : s.acc.i + 1#16 = s.sampleCount
  · rw [decodeByte_boundary y s h, addSample_frame]
    exact ⟨rfl, rfl, rfl, rfl, rfl, rfl, rfl, rfl⟩
  · rw [decodeByte_inside y s h, addSample_frame]
    exact ⟨rfl, rfl, rfl, rfl, rfl, rfl, rfl, rfl⟩

theorem symbolDone_kept {v : State → Result × State} (hv : Verdict v) (y : Rat) (s : State) :
    Kept s (symbolDone v y s).2 := by
  have h : Kept s (driftRule (v s).2) := by
    rw [hv.frame s, driftRule_eq]
    exact ⟨rfl, rfl, rfl, rfl, rfl, rfl, rfl, rfl⟩
  unfold symbolDone realign
  simp only []
  split
  · exact h.trans ⟨rfl, rfl, rfl, rfl, rfl, rfl, rfl, rfl⟩
  · split
    · exact h.trans (decodeByte_kept _ _)
    · exact h

theorem skipGate_kept {v : State → Result × State} (hv : Verdict v) (y : Rat) (s : State) :
    Kept s (skipGate v y s).2 := by
  unfold skipGate
  split
  · exact ⟨rfl, rfl, rfl, rfl, rfl, rfl, rfl, rfl⟩
  · have hd := decodeByte_kept y s
    have hs := hd.trans (symbolDone_kept hv y (decodeByte y s).2)
    cases hr : (decodeByte y s).1 <;> simp [hr, hd, hs]

/-- The frame of a FEED in a calibrated state. -/
theorem gatedFeed_kept {v : State → Result × State} (hv : Verdict v) (x : Sample) (s : State) :
    Kept (condWiden x s) (gatedFeed v x s).2 := by
  unfold gatedFeed
  refine Kept.trans ?_ (skipGate_kept hv _ _)
  rw [conditioned_state]
  exact ⟨rfl, rfl, rfl, rfl, rfl, rfl, rfl, rfl⟩

/-- FEED in DetectCalibrate and FEED in DecodeData in terms of the gated feed. -/
theorem exec_feedDetectCalibrate (x : Sample) (s : State) :
    exec (.feedDetectCalibrate x) s = .next ((gatedFeed calDecide x s).2.respond .noData) := rfl

theorem exec_feedDecodeData (x : Sample) (s : State) :
    exec (.feedDecodeData x) s
      = .next ((gatedFeed dataDecide x s).2.respond (gatedFeed dataDecide x s).1) := rfl

end Sys2Proof.Machine
end

