-- ==== Sys2Proof/Laws/PerInstr.lean ====
section
/-!
SUPPORT. The family Encoding, one lemma per constructor of `Instr`: every key that encodes the instruction, whatever the
state bits that RESET ignores, matches the mask and the pattern of the instruction's row of the opcode table (R78).
-/

namespace Sys2Proof.Laws.Encoding

/-- What the family says of an instruction. -/
def Statement (i : Instr) : Prop :=
  ∀ any : BitVec 3, encodeKeyWith any i &&& i.mask = i.pattern

/-- The row of a state, for the FEED of every sample. -/
theorem feedRow (d : DecState) (x : Sample) :
    (d.code ++ encodeFeed x : Key) &&& 0x7F800#19 = (d.code ++ (0#16 : Word) : Key) := by
  apply BitVec.eq_of_getLsbD_eq
  intro i hi
  rw [BitVec.getLsbD_and, BitVec.getLsbD_append, BitVec.getLsbD_append, encodeFeed_eq]
  have hm : ∀ j < 19, (0x7F800#19).getLsbD j = decide (11 ≤ j) := by decide
  rw [hm i hi]
  by_cases h16 : i < 16
  · by_cases h11 : i < 11
    · simp [h16, h11]
    · simp [h16, BitVec.getLsbD_of_ge x i (by omega)]
  · simp [h16]
    omega

theorem feedInit (x : Sample) : Statement (.feedInit x) := fun _ => feedRow .init x

theorem feedDetectPolarity (x : Sample) : Statement (.feedDetectPolarity x) := fun _ => feedRow .detectPolarity x

theorem feedDetectWaveFirstHalf (x : Sample) : Statement (.feedDetectWaveFirstHalf x) :=
  fun _ => feedRow .detectWaveFirstHalf x

theorem feedDetectWaveSecondHalf (x : Sample) : Statement (.feedDetectWaveSecondHalf x) :=
  fun _ => feedRow .detectWaveSecondHalf x

theorem feedDetectCalibrate (x : Sample) : Statement (.feedDetectCalibrate x) := fun _ => feedRow .detectCalibrate x

theorem feedDecodeData (x : Sample) : Statement (.feedDecodeData x) := fun _ => feedRow .decodeData x

theorem feedEof (x : Sample) : Statement (.feedEof x) := fun _ => feedRow .eof x

theorem reset : Statement .reset := by
  intro any
  revert any
  decide

end Sys2Proof.Laws.Encoding
end

