-- ==== Sys2Proof/Laws/Phase.lean ====
section
/-!
SUPPORT. The phases within the bound of a finite number format, over the real numbers (93_implementation_defined.md entry
I1, 41_synchronizer.md rule R137).
-/

namespace Sys2Proof.Machine

/-- The angle comparison over the scaled angle φ·N of R137. -/
theorem argCompare_scaled {n : ℕ} (hn : 1 ≤ n) {sn cs : TrigSum} (h : sn.value ≠ 0 ∨ cs.value ≠ 0) (t : Rat) :
    argCompare sn cs (t / n) = SignType.sign (atan2 cs.value sn.value / (2 * Real.pi) * n - t) := by
  have hpi := Real.pi_pos
  have hn' : (0 : ℝ) < n := by exact_mod_cast hn
  rw [argCompare_eq h]
  set θ := atan2 cs.value sn.value
  have : θ / (2 * Real.pi) * n - t = (θ - 2 * Real.pi * ((t / n : Rat) : ℝ)) * (n / (2 * Real.pi)) := by
    push_cast
    field_simp
  rw [this, sign_mul, sign_pos (by positivity : (0 : ℝ) < n / (2 * Real.pi)), mul_one]

theorem sign_ne_neg_iff (x : ℝ) : SignType.sign x ≠ .neg ↔ 0 ≤ x := by
  rw [show SignType.neg = -1 from rfl, Ne, sign_eq_neg_one_iff, not_lt]

theorem sign_ne_pos_iff (x : ℝ) : SignType.sign x ≠ .pos ↔ x ≤ 0 := by
  rw [show SignType.pos = 1 from rfl, Ne, sign_eq_one_iff, not_lt]

/-- What phaseWithin decides, for a pair away from the origin with the scaled angle y. -/
theorem phaseWithin_iff {n : ℕ} (hn : 1 ≤ n) {sn cs : TrigSum} (h : sn.value ≠ 0 ∨ cs.value ≠ 0) (e : Rat) (v : Int)
    {y : ℝ} (hy : y = atan2 cs.value sn.value / (2 * Real.pi) * n) :
    phaseWithin e n sn cs v = true ↔
      ((v : ℝ) - 1 / 2 - e ≤ y ∧ y ≤ v + 1 / 2 + e)
      ∨ ((n : ℝ) / 2 - e ≤ y ∧ (v : ℝ) + n - 1 / 2 - e ≤ y)
      ∨ (y ≤ -((n : ℝ) / 2) + e ∧ y ≤ v - n + 1 / 2 + e) := by
  unfold phaseWithin
  rw [decide_eq_true_iff]
  simp only [argCompare_scaled hn h, sign_ne_neg_iff, sign_ne_pos_iff, ← hy, sub_nonneg, sub_nonpos]
  push_cast
  rfl

/-- A pair that is not at the origin shows it by its signs. -/
theorem not_origin {sn cs : TrigSum} (h : sn.value ≠ 0 ∨ cs.value ≠ 0) : ¬ (sn.sign = .zero ∧ cs.sign = .zero) := by
  rintro ⟨a, b⟩
  rw [TrigSum.sign_eq, show SignType.zero = 0 from rfl, sign_eq_zero_iff] at a b
  exact h.elim (fun h => h a) fun h => h b

end Sys2Proof.Machine
end

