-- ==== Sys2Proof/Tests/Slice0.lean ====
section
/-!
SUPPORT. The model's own tests: encodings written out from the spec, vectors of 95_test_vectors.md, ill-formed lines that
the check refuses, and for each statement with hypotheses a concrete state that meets them.
-/

namespace Sys2Proof.Tests

open Sys2Proof.Machine

/-- A field of the state that an outcome goes on with. -/
def after {α : Type} (o : Host.Outcome State Fault Refusal) (f : State → α) : Option α :=
  match o with
  | .next t => some (f t)
  | .fault _ => none
  | .refused _ => none

/-! ## Ill-formed lines (R81) -/

theorem test_feed_sample_too_large : AsmLine.wellFormed (.feed 2048) = false := by decide
theorem test_word_too_large : AsmLine.wellFormed (.word 65536) = false := by decide
theorem test_feedTimes_sample_too_large : AsmLine.wellFormed (.feedTimes 2048 3) = false := by decide
theorem test_largest_lines_well_formed :
    AsmLine.wellFormed (.feed 2047) = true ∧ AsmLine.wellFormed (.word 65535) = true
      ∧ AsmLine.wellFormed (.feedTimes 2047 3) = true ∧ AsmLine.wellFormed .reset = true := by decide

/-- Lines of the programs P1 and P2, a comment, and the form of a reserved word (CMD-4), with the words the spec gives. -/
theorem test_assembleText :
    assembleText ["RESET".toList, "FEED 500 ; baseline".toList, "; no command".toList, "FEED 0x226 × 2".toList,
        ".word 0x8000".toList]
      = some [0x4000#16, 0x01F4#16, 0x0226#16, 0x0226#16, 0x8000#16] := by decide

theorem test_text_refused :
    readLine "FEED 12a".toList = none ∧ readLine "FEED".toList = none ∧ readLine "STOP".toList = none
      ∧ assembleText ["FEED 2048".toList] = none := by decide

/-! ## Encodings, bit by bit from 30_encoding.md rules R72, R73, R77 and R78: state, CMD, RSV, SAMPLE -/

theorem test_decode_feedInit : decodeKey 0b000_00_000_00111110100#19 = .instr (.feedInit 500#11) := by decide
theorem test_decode_feedDetectPolarity :
    decodeKey 0b001_00_000_11000000000#19 = .instr (.feedDetectPolarity 1536#11) := by decide
theorem test_decode_feedDetectWaveFirstHalf :
    decodeKey 0b010_00_000_00111110011#19 = .instr (.feedDetectWaveFirstHalf 499#11) := by decide
theorem test_decode_feedDetectWaveSecondHalf :
    decodeKey 0b011_00_000_01010001010#19 = .instr (.feedDetectWaveSecondHalf 650#11) := by decide
theorem test_decode_feedDetectCalibrate :
    decodeKey 0b100_00_000_01000100110#19 = .instr (.feedDetectCalibrate 550#11) := by decide
theorem test_decode_feedDecodeData :
    decodeKey 0b101_00_000_00001000001#19 = .instr (.feedDecodeData 65#11) := by decide
theorem test_decode_feedEof : decodeKey 0b110_00_000_01000000000#19 = .instr (.feedEof 512#11) := by decide
theorem test_decode_reset_ignores_state :
    decodeKey 0b011_01_000_00000000000#19 = .instr .reset ∧ decodeKey 0b111_01_000_00000000000#19 = .instr .reset := by
  decide
theorem test_decode_reserved :
    decodeKey 0b100_10_000_00000000000#19 = .reserved .command ∧ decodeKey 0b100_00_001_00000000000#19 = .reserved .feedBits
      ∧ decodeKey 0b100_01_000_00000000001#19 = .reserved .resetBits
      ∧ decodeKey 0b111_00_000_00000000001#19 = .reserved .stateCode := by decide
theorem test_decodeTableWord :
    decodeTableWord 19 0x50041 = some (.feedDecodeData 65#11) ∧ decodeTableWord 19 0x80000 = none := by decide

/-! ## Vectors of 95_test_vectors.md -/

/-- Before the commit, baseline 500. -/
def polarityState : State := { State.reset with state := .detectPolarity, baseline := 500#11 }

/-- A half wave in progress. -/
def waveState (d : DecState) (pol : Bool) (lo hi : Sample) (n : Count) : State :=
  { State.reset with state := d, polarity := pol, signalMin := lo, signalMax := hi, sampleCount := n, baseline := 500#11 }

/-- A pair with rational values. -/
def pair (a b : Rat) : Pair := { sin := TrigSum.const a, cos := TrigSum.const b }

/-- In a calibrated state with one sample of a window of n to go. A FEED of 400, the minimum, has fsample 0. -/
def lastSample (d : DecState) (n : Nat) (p : Pairs) : State :=
  { State.reset with
    state := d, polarity := true, signalMin := 400#11, signalMax := 700#11, sampleCount := BitVec.ofNat 16 n
    acc := { i := BitVec.ofNat 16 (n - 1), pairs := p } }

/-- COND-1 (R101, R201). -/
theorem test_feedInit :
    after (exec (.feedInit 500#11) State.reset) (fun t => (t.state, t.baseline, t.sampleCount, t.responses))
      = some (.detectPolarity, 500#11, 0#16, [0xFFFE#16]) := by decide

/-- COND-5 (R104): a difference of −64 does not commit. -/
theorem test_feedDetectPolarity_smooths :
    after (exec (.feedDetectPolarity 436#11) polarityState) (fun t => (t.state, t.baseline))
      = some (.detectPolarity, 492#11) := by decide

/-- COND-7 (R103, R105): a difference of −65 commits, and the sample falls through. -/
theorem test_feedDetectPolarity_commits :
    after (exec (.feedDetectPolarity 435#11) polarityState)
        (fun t => (t.state, t.polarity, t.signalMin, t.signalMax, t.sampleCount))
      = some (.detectWaveFirstHalf, false, 435#11, 500#11, 1#16) := by decide

/-- WAVE-2 (R132): one below the minimum exits. -/
theorem test_feedDetectWaveFirstHalf_exits :
    after (exec (.feedDetectWaveFirstHalf 499#11) (waveState .detectWaveFirstHalf true 500#11 700#11 2#16))
        (fun t => (t.state, t.signalMin, t.sampleCount))
      = some (.detectWaveSecondHalf, 499#11, 3#16) := by decide

/-- WAVE-4 and WAVE-10 (R131, R132): at the maximum the negative half wave stays, and the count saturates. -/
theorem test_feedDetectWaveFirstHalf_saturates :
    after (exec (.feedDetectWaveFirstHalf 500#11) (waveState .detectWaveFirstHalf false 300#11 500#11 65535#16))
        (fun t => (t.state, t.sampleCount))
      = some (.detectWaveFirstHalf, 65535#16) := by decide

/-- WAVE-6 (R133, R134). -/
theorem test_feedDetectWaveSecondHalf_exits :
    after (exec (.feedDetectWaveSecondHalf 551#11) (waveState .detectWaveSecondHalf true 400#11 700#11 4#16))
        (fun t => (t.state, t.sampleCount, t.acc.i))
      = some (.detectCalibrate, 19#16, 0#16) := by decide

/-- WAVE-7 (R133): the midpoint 550.5 counts as 550. -/
theorem test_feedDetectWaveSecondHalf_floors :
    after (exec (.feedDetectWaveSecondHalf 550#11) (waveState .detectWaveSecondHalf false 400#11 701#11 4#16))
        (fun t => (t.state, t.sampleCount))
      = some (.detectWaveSecondHalf, 5#16) := by decide

/-- Accumulators of the word 0x13E, with the pair of f = 1 at (a, b): (1, −1) is the angle −1/8 of a turn, phase −3 of 24
samples (R137). -/
def markerPairs (a b : Rat) : Pairs :=
  { Pairs.zero with p1 := pair a b, p4 := pair 1 0, p5 := pair 1 0, p6 := pair 1 0, p7 := pair 1 0, p8 := pair 1 0 }

/-- DEC-2 with DR-4's kind of correction (R139, R142, R145): the marker, phases −3, −3, −3 and N 24 give N 27, skip 3. -/
theorem test_feedDetectCalibrate_marker :
    after (exec (.feedDetectCalibrate 400#11)
        { lastSample .detectCalibrate 24 (markerPairs 1 (-1)) with phase2 := BitVec.ofInt 17 (-3), phase3 := BitVec.ofInt 17 (-3) })
        (fun t => ((t.state, t.word, t.phase.toInt), (t.sampleCount, t.skip, t.responses)))
      = some ((.decodeData, 0x13E#9, -3), (27#16, 3#16, [0xFFFE#16])) := by decide +kernel

/-- DEC-1 (R139): the all-zero word restarts silently; p_1 = 0.25 exactly leaves the bit clear (COR-8, R174). -/
theorem test_feedDetectCalibrate_restart :
    after (exec (.feedDetectCalibrate 400#11) (lastSample .detectCalibrate 20 { Pairs.zero with p1 := pair (1/2) 0 }))
        (fun t => (t.state, t.word, t.phase.toInt, t.responses))
      = some (.init, 0x000#9, 0, [0xFFFE#16]) := by decide +kernel

/-- DEC-7 and RA-2 (R140, R146): the word 0x141 at phase 3 delivers 0x41 and refeeds fsample 0 at index 0. -/
theorem test_feedDecodeData_delivers :
    after (exec (.feedDecodeData 400#11)
        (lastSample .decodeData 24 { Pairs.zero with p1 := pair 1 1, p3 := pair 1 0, p9 := pair 1 0 }))
        (fun t => ((t.state, t.word, t.phase.toInt), (t.acc.i, t.skip, t.responses)))
      = some ((.decodeData, 0x141#9, 3), (1#16, 0#16, [0x0041#16])) := by decide +kernel

/-- COND-11 (R107, R135). -/
theorem test_feedDecodeData_skips :
    after (exec (.feedDecodeData 300#11) { lastSample .decodeData 20 .zero with skip := 2#16, acc := .zero })
        (fun t => (t.signalMin, t.skip, t.acc.i, t.responses))
      = some (300#11, 1#16, 0#16, [0xFFFE#16]) := by decide +kernel

/-- CMD-3 (R207). -/
theorem test_feedEof :
    after (exec (.feedEof 2047#11) { State.reset with state := .eof }) (fun t => (t.state, t.signalMax, t.responses))
      = some (.eof, 0#11, [0xFFFF#16]) := by decide

/-- CMD-2 (R208): RESET leaves Eof. -/
theorem test_reset :
    after (exec .reset { State.reset with state := .eof, baseline := 512#11 }) (fun t => (t.state, t.baseline, t.responses))
      = some (.init, 0#11, [0xFFFE#16]) := by decide

/-- CMD-4 (R209): a reserved word in Eof responds NODATA. -/
theorem test_reserved_word :
    after (step { State.reset with state := .eof, inputs := [.command 0x8000#16] }) (fun t => (t.state, t.responses))
      = some (.eof, [0xFFFE#16]) := by decide

/-- COND-10 (R109). -/
theorem test_fsample_negative_polarity :
    (conditioned 475#11 { lastSample .decodeData 20 .zero with polarity := false }).1 = 3/4 := by decide +kernel

/-- The examples of R9 and R10. -/
theorem test_rounding :
    truncDiv (-9) 8 = -1 ∧ truncDiv (-7) 8 = 0 ∧ roundHalfAway (5/2) = 3 ∧ roundHalfAway (-5/2) = -3
      ∧ roundHalfAway (11/2) = 6 := by decide +kernel

/-- R265: the host takes the oldest response. -/
theorem test_take :
    after (step { State.reset with inputs := [.take], responses := [0x0041#16, 0xFFFE#16] }) (fun t => (t.responses, t.taken))
      = some ([0xFFFE#16], [0x0041#16]) := by decide

/-- 93 entry I1 (b) with φ·N = 0 and a bound of 3/2: the neighbours of ±1/2 and of ±3/2. -/
theorem test_phaseCandidates_wide :
    [-3, -2, -1, 0, 1, 2, 3].map (fun v : Int => decide (v ∈ phaseCandidates ⟨0, 3/2⟩ 20 (TrigSum.const 1) [] 0))
      = [false, true, true, true, true, true, false] := by decide +kernel

/-- 93 entry I1 (c) with φ = 1/2 and a window of 20: round(N0/2) and -round(N0/2). -/
theorem test_phaseCandidates_wrap :
    [-10, -9, 0, 9, 10].map (fun v : Int => decide (v ∈ phaseCandidates ⟨0, 1/8⟩ 20 (TrigSum.const (-1)) [] 10))
      = [true, false, false, false, true] := by decide +kernel

/-! ## Witnesses: concrete states and operands that meet the hypotheses of the statements -/

/-- What a step or a meaning goes on with, or the state given. -/
def goesOn (o : Host.Outcome State Fault Refusal) (s : State) : State :=
  match o with
  | .next t => t
  | .fault _ => s
  | .refused _ => s

/-- A state that meets the invariant, for each decoder state. -/
def legal (d : DecState) (inputs : List HostInput) : State :=
  { State.reset with
    state := d, polarity := true, baseline := 500#11, signalMin := 400#11, signalMax := 700#11
    sampleCount := if d = .detectPolarity then 0#16 else 24#16, inputs := inputs }

theorem legal_inv (d : DecState) (inputs : List HostInput) : (legal d inputs).Inv := by
  cases d <;> constructor <;> simp [legal, State.calibrated, State.committed, State.reset, Accumulator.zero]

/-- Four FEEDs from reset that reach DetectCalibrate (R101, R103, R132, R133), from a host that takes each response. -/
def fourFeeds : List HostInput :=
  takingEach [500#16, 600#16, 499#16, 550#16]

theorem witness_EveryStepKeepsInvariant :
    (legal .detectCalibrate [.command 500#16]).Inv
      ∧ step (legal .detectCalibrate [.command 500#16])
          = .next (goesOn (step (legal .detectCalibrate [.command 500#16])) State.reset) :=
  ⟨legal_inv _ _, rfl⟩

theorem witness_RunsKeepIndexAndPeriod :
    (steps 8 (State.start .exact fourFeeds) = .next (goesOn (steps 8 (State.start .exact fourFeeds)) State.reset)
        ∧ (goesOn (steps 8 (State.start .exact fourFeeds)) State.reset).calibrated)
      ∧ steps 1 (State.start .exact fourFeeds) = .next (goesOn (steps 1 (State.start .exact fourFeeds)) State.reset)
        ∧ ¬ (goesOn (steps 1 (State.start .exact fourFeeds)) State.reset).calibrated := by
  unfold State.calibrated
  exact ⟨⟨rfl, by decide⟩, rfl, by decide⟩

theorem witness_RunsKeepRange :
    steps 8 (State.start .exact fourFeeds) = .next (goesOn (steps 8 (State.start .exact fourFeeds)) State.reset)
      ∧ (goesOn (steps 8 (State.start .exact fourFeeds)) State.reset).calibrated := by
  unfold State.calibrated
  exact ⟨rfl, by decide⟩

theorem witness_ExtremesNeverNarrow :
    (exec (.feedDetectPolarity 564#11) polarityState
        = .next (goesOn (exec (.feedDetectPolarity 564#11) polarityState) State.reset)
      ∧ ∀ x, Instr.feedDetectPolarity 564#11 = .feedDetectPolarity x →
          ((x.toNat : Int) - polarityState.baseline.toNat).natAbs ≤ 64)
      ∧ exec (.feedDetectCalibrate 800#11) (legal .detectCalibrate [])
          = .next (goesOn (exec (.feedDetectCalibrate 800#11) (legal .detectCalibrate [])) State.reset)
        ∧ ∀ x, Instr.feedDetectCalibrate 800#11 ≠ .feedDetectPolarity x := by
  refine ⟨⟨rfl, ?_⟩, rfl, fun x h => by cases h⟩
  intro x h
  injection h with h
  subst h
  decide

theorem witness_EofIsTerminal :
    (legal .eof []).state = .eof
      ∧ (step (legal .eof [.command 0x4000#16]) = .next (goesOn (step (legal .eof [.command 0x4000#16])) (legal .eof []))
        ∧ (goesOn (step (legal .eof [.command 0x4000#16])) (legal .eof [])).state ≠ .eof)
      ∧ step (legal .eof [.resetInput []]) = .next (goesOn (step (legal .eof [.resetInput []])) (legal .eof []))
        ∧ (goesOn (step (legal .eof [.resetInput []])) (legal .eof [])).state ≠ .eof :=
  ⟨rfl, ⟨rfl, by decide⟩, rfl, by decide⟩

theorem witness_CommandWordsDecode :
    (0x0000#16 &&& 0xF800#16 = 0x0000#16 ∧ 0x07FF#16 &&& 0xF800#16 = 0x0000#16) ∧ (0x4000#16 : Word) = 0x4000#16
      ∧ (0x0800#16 &&& 0xF800#16 ≠ 0x0000#16 ∧ (0x0800#16 : Word) ≠ 0x4000#16)
      ∧ (0x3FFF#16 &&& 0xF800#16 ≠ 0x0000#16 ∧ (0x3FFF#16 : Word) ≠ 0x4000#16)
      ∧ (0x4001#16 &&& 0xF800#16 ≠ 0x0000#16 ∧ (0x4001#16 : Word) ≠ 0x4000#16)
      ∧ (0xFFFF#16 &&& 0xF800#16 ≠ 0x0000#16 ∧ (0xFFFF#16 : Word) ≠ 0x4000#16) := by decide

/-- The core accepts commands in these states: no response waits. -/
theorem legal_ready (d : DecState) (inputs : List HostInput) : (legal d inputs).ready = true := rfl

theorem witness_ReservedWordChangesNothing :
    (legal .detectCalibrate [.command 0x8000#16]).ready = true
      ∧ (legal .detectCalibrate [.command 0x8000#16]).inputs = .command 0x8000#16 :: []
      ∧ 0x8000#16 &&& 0xF800#16 ≠ 0x0000#16 ∧ (0x8000#16 : Word) ≠ 0x4000#16 :=
  ⟨rfl, rfl, by decide, by decide⟩

theorem witness_EncodeOfDecodeIsIdentity :
    decodeKey 0x507FF#19 = .instr (.feedDecodeData 2047#11) ∧ decodeKey 0x74000#19 = .instr .reset := by decide

theorem witness_StepRunsDecodedCommand :
    (legal .decodeData [.command 0x0041#16]).ready = true ∧ (legal .decodeData [.command 0x0041#16]).inputs = .command 0x0041#16 :: []
      ∧ decodeKey ((legal .decodeData [.command 0x0041#16]).state.code ++ 0x0041#16) = .instr (.feedDecodeData 65#11) :=
  ⟨rfl, rfl, by decide⟩

theorem witness_ResetInputRestoresEveryRegister :
    (legal .eof [.resetInput [0x0200#16]]).inputs = .resetInput [0x0200#16] :: [] := rfl

theorem witness_CoreWaitsBetweenCommands :
    (legal .decodeData []).inputs = [] ∧ (legal .decodeData [.idle]).inputs = .idle :: [] := ⟨rfl, rfl⟩

theorem witness_EveryCommandCompletes :
    (legal .decodeData [.command 0xFFFF#16, .idle]).ready = true
      ∧ (legal .decodeData [.command 0xFFFF#16, .idle]).inputs = .command 0xFFFF#16 :: [.idle] := ⟨rfl, rfl⟩

/-- Both clauses: a run of a host that takes each response, and its host. -/
theorem witness_CommandsAndResponsesMatch :
    steps 4 (legal .init (takingEach [500#16, 0x8000#16] ++ [.idle]))
        = .next (goesOn (steps 4 (legal .init (takingEach [500#16, 0x8000#16] ++ [.idle]))) State.reset)
      ∧ (legal .init (takingEach [500#16, 0x8000#16] ++ [.idle])).responses = []
      ∧ (legal .init (takingEach [500#16, 0x8000#16] ++ [.idle])).inputs = takingEach [500#16, 0x8000#16] ++ [.idle] :=
  ⟨rfl, rfl, rfl⟩

/-- One response more than the buffer leaves room for, whatever the buffer. -/
def full (inputs : List HostInput) : State :=
  { legal .decodeData inputs with responses := List.replicate (Config.commandBuffer + 1) 0xFFFE#16 }

theorem full_not_ready (inputs : List HostInput) : (full inputs).ready = false := by
  rw [Bool.eq_false_iff, Ne, State.ready_iff]
  simp [full]

theorem witness_CoreStopsWithoutRoom :
    (full [.command 500#16]).ready = false ∧ (full [.command 500#16]).inputs = [500#16].map .command
      ∧ step (full [.command 500#16]) = .next (full [.command 500#16]) := by
  refine ⟨full_not_ready _, rfl, ?_⟩
  simp only [step, full_not_ready]
  rfl

theorem witness_TakingResponsesReopensPort :
    ((full [.command 500#16, .take, .idle]).ready = false
        ∧ (full [.command 500#16, .take, .idle]).inputs = [500#16].map .command ++ .take :: [.idle]
        ∧ (full [.command 500#16, .take, .idle]).responses = 0xFFFE#16 :: List.replicate Config.commandBuffer 0xFFFE#16)
      ∧ (legal .decodeData [.take]).inputs = .take :: [] ∧ (legal .decodeData [.take]).responses = [] :=
  ⟨⟨full_not_ready _, rfl, rfl⟩, rfl, rfl⟩

/-- At the bound, with a step that takes a response, and below it, with a step that sends one. -/
theorem witness_UntakenResponsesStayBounded :
    ((full [.take]).responses.length ≤ Config.commandBuffer + 1
        ∧ step (full [.take]) = .next (State.takeResponse { full [.take] with inputs := [] }))
      ∧ (legal .decodeData [.command 0x8000#16]).responses.length ≤ Config.commandBuffer + 1
        ∧ step (legal .decodeData [.command 0x8000#16])
            = .next (goesOn (step (legal .decodeData [.command 0x8000#16])) State.reset) := by
  refine ⟨⟨by simp [full], by simp only [step, full, legal, nextInput_take]⟩, by simp [legal, State.reset], rfl⟩

theorem witness_ResetForgetsThePast :
    (legal .eof (takingEach [0x4000#16, 500#16])).numerics = .exact
      ∧ (legal .decodeData (takingEach [0x4000#16, 500#16])).numerics = .exact
      ∧ (legal .eof (takingEach [0x4000#16, 500#16])).responses = []
      ∧ (legal .decodeData (takingEach [0x4000#16, 500#16])).responses = []
      ∧ (legal .eof (takingEach [0x4000#16, 500#16])).inputs = .command 0x4000#16 :: .take :: takingEach [500#16]
      ∧ (legal .decodeData (takingEach [0x4000#16, 500#16])).inputs
          = .command 0x4000#16 :: .take :: takingEach [500#16] :=
  ⟨rfl, rfl, rfl, rfl, rfl, rfl⟩

theorem witness_LinesAssemble :
    2047 ≤ 2047 ∧ 65535 ≤ 65535 ∧ 2047 < 2048 ∧ 65535 < 65536 := by decide

/-- One for each decoder state. -/
theorem witness_FeedFollowsTransitionTable (d : DecState) :
    (legal d [.command ((399#11 : Sample).setWidth 16)]).Inv ∧ (legal d [.command ((399#11 : Sample).setWidth 16)]).state = d
      ∧ (legal d [.command ((399#11 : Sample).setWidth 16)]).ready = true
      ∧ (legal d [.command ((399#11 : Sample).setWidth 16)]).inputs = .command ((399#11 : Sample).setWidth 16) :: []
      ∧ step (legal d [.command ((399#11 : Sample).setWidth 16)])
          = .next (goesOn (step (legal d [.command ((399#11 : Sample).setWidth 16)])) State.reset) := by
  refine ⟨legal_inv _ _, rfl, rfl, rfl, ?_⟩
  cases d <;> rfl

theorem witness_FeedSmoothsBaseline :
    (((564#11 : Sample).toNat : Int) - polarityState.baseline.toNat).natAbs ≤ 64
      ∧ (((436#11 : Sample).toNat : Int) - polarityState.baseline.toNat).natAbs ≤ 64 := by decide

theorem witness_FeedCommitsPolarity :
    64 < (((565#11 : Sample).toNat : Int) - polarityState.baseline.toNat).natAbs
      ∧ 64 < (((435#11 : Sample).toNat : Int) - polarityState.baseline.toNat).natAbs := by decide

/-- Both sides of the exit test, for both polarities (WAVE-1 to WAVE-4). -/
theorem witness_FeedInFirstHalf :
    firstHalfExit 500#11 (waveState .detectWaveFirstHalf true 500#11 700#11 2#16) = false
      ∧ firstHalfExit 499#11 (waveState .detectWaveFirstHalf true 500#11 700#11 2#16) = true
      ∧ firstHalfExit 500#11 (waveState .detectWaveFirstHalf false 300#11 500#11 2#16) = false
      ∧ firstHalfExit 501#11 (waveState .detectWaveFirstHalf false 300#11 500#11 2#16) = true := by decide

/-- Both sides of the exit test, for both polarities (WAVE-5 to WAVE-8). -/
theorem witness_FeedInSecondHalf :
    secondHalfExit 550#11 (waveState .detectWaveSecondHalf true 400#11 700#11 4#16) = false
      ∧ secondHalfExit 551#11 (waveState .detectWaveSecondHalf true 400#11 700#11 4#16) = true
      ∧ secondHalfExit 550#11 (waveState .detectWaveSecondHalf false 400#11 701#11 4#16) = false
      ∧ secondHalfExit 549#11 (waveState .detectWaveSecondHalf false 400#11 701#11 4#16) = true := by decide

theorem witness_FsampleIsNormalized :
    widenedMin 800#11 (legal .detectCalibrate []) < widenedMax 800#11 (legal .detectCalibrate []) := by decide

theorem witness_SkippedFeed :
    ({ legal .decodeData [] with skip := 1#16 } : State).skip ≠ 0#16
      ∧ ({ legal .decodeData [] with skip := 32768#16 } : State).skip ≠ 0#16
      ∧ widenedMin 300#11 (legal .decodeData []) < widenedMax 300#11 (legal .decodeData []) := by decide

theorem witness_FeedAccumulatesSample :
    (legal .detectCalibrate []).inside
      ∧ widenedMin 500#11 (legal .detectCalibrate []) < widenedMax 500#11 (legal .detectCalibrate []) := by
  unfold State.inside
  decide

/-- The state at a boundary that the witnesses of a completed symbol share: the word 0x13E with the pair of f = 1 at
(a, b). -/
def completing (d : DecState) (a b : Rat) : State := lastSample d 24 (markerPairs a b)

theorem completing_meets (d : DecState) (a b : Rat) :
    (completing d a b).boundary ∧ 19 ≤ (completing d a b).sampleCount.toNat
      ∧ widenedMin 400#11 (completing d a b) < widenedMax 400#11 (completing d a b)
      ∧ (completing d a b).numerics = .exact ∧ (completing d a b).state = d := by
  refine ⟨?_, ?_, ?_, rfl, rfl⟩
  · exact ⟨rfl, rfl⟩
  · show 19 ≤ (24#16).toNat
    decide
  · show min (400#11).toNat (400#11).toNat < max (700#11).toNat (400#11).toNat
    decide

theorem witness_CompletedWordIsExact :
    (completing .decodeData 1 1).boundary ∧ 19 ≤ (completing .decodeData 1 1).sampleCount.toNat
      ∧ widenedMin 400#11 (completing .decodeData 1 1) < widenedMax 400#11 (completing .decodeData 1 1)
      ∧ (completing .decodeData 1 1).numerics = .exact :=
  ⟨(completing_meets _ _ _).1, (completing_meets _ _ _).2.1, (completing_meets _ _ _).2.2.1, rfl⟩

theorem witness_CompletedPhaseIsExact :
    (completing .detectCalibrate 1 1).boundary ∧ 19 ≤ (completing .detectCalibrate 1 1).sampleCount.toNat
      ∧ widenedMin 400#11 (completing .detectCalibrate 1 1) < widenedMax 400#11 (completing .detectCalibrate 1 1)
      ∧ (completing .detectCalibrate 1 1).numerics = .exact :=
  ⟨(completing_meets _ _ _).1, (completing_meets _ _ _).2.1, (completing_meets _ _ _).2.2.1, rfl⟩

theorem witness_CalibrateDecidesByWord :
    (completing .detectCalibrate 1 1).state = .detectCalibrate ∧ (completing .detectCalibrate 1 1).boundary
      ∧ 19 ≤ (completing .detectCalibrate 1 1).sampleCount.toNat :=
  ⟨rfl, (completing_meets _ _ _).1, (completing_meets _ _ _).2.1⟩

theorem witness_DataDecidesByWord :
    (completing .decodeData 1 1).state = .decodeData ∧ (completing .decodeData 1 1).boundary
      ∧ 19 ≤ (completing .decodeData 1 1).sampleCount.toNat :=
  ⟨rfl, (completing_meets _ _ _).1, (completing_meets _ _ _).2.1⟩

/-- The phase that the FEED of 400 leaves. -/
def phaseLeft (s : State) : Int := (goesOn (exec (.feedDecodeData 400#11) s) s).phase.toInt

/-- The history that makes a phase of 3 the third of its sign. -/
def thirdSame : State := { completing .decodeData 1 1 with phase2 := 1#17, phase3 := 2#17 }

/-- Both clauses: a third phase of one sign, and a history that blocks the trigger. -/
theorem witness_DriftRuleAtBoundary :
    (thirdSame.boundary ∧ 19 ≤ thirdSame.sampleCount.toNat
        ∧ sameSign (phaseLeft thirdSame) thirdSame.phase2.toInt thirdSame.phase3.toInt)
      ∧ (completing .decodeData 1 1).boundary
        ∧ ¬ sameSign (phaseLeft (completing .decodeData 1 1)) (completing .decodeData 1 1).phase2.toInt
            (completing .decodeData 1 1).phase3.toInt := by
  refine ⟨⟨(completing_meets .decodeData 1 1).1, (completing_meets .decodeData 1 1).2.1, ?_⟩,
    (completing_meets _ _ _).1, ?_⟩
  · unfold sameSign
    decide +kernel
  · unfold sameSign
    decide +kernel

/-- The state at which the next symbol completes. -/
def nextBoundary : State :=
  { completing .decodeData 1 1 with
    phase2 := (goesOn (exec (.feedDecodeData 400#11) thirdSame) thirdSame).phase2
    phase3 := (goesOn (exec (.feedDecodeData 400#11) thirdSame) thirdSame).phase3 }

theorem witness_CorrectionNeedsTwoMoreSymbols :
    (thirdSame.boundary ∧ 19 ≤ thirdSame.sampleCount.toNat
        ∧ exec (.feedDecodeData 400#11) thirdSame = .next (goesOn (exec (.feedDecodeData 400#11) thirdSame) thirdSame)
        ∧ sameSign (goesOn (exec (.feedDecodeData 400#11) thirdSame) thirdSame).phase.toInt thirdSame.phase2.toInt
            thirdSame.phase3.toInt)
      ∧ nextBoundary.boundary ∧ 19 ≤ nextBoundary.sampleCount.toNat
      ∧ exec (.feedDecodeData 400#11) nextBoundary
          = .next (goesOn (exec (.feedDecodeData 400#11) nextBoundary) nextBoundary) :=
  ⟨⟨(completing_meets .decodeData 1 1).1, (completing_meets .decodeData 1 1).2.1, rfl,
      witness_DriftRuleAtBoundary.1.2.2⟩,
    (completing_meets .decodeData 1 1).1, (completing_meets .decodeData 1 1).2.1, rfl⟩

/-- The three clauses: a negative, a positive and a zero phase. -/
theorem witness_RealignAtBoundary :
    phaseLeft (completing .decodeData 1 (-1)) < 0 ∧ 0 < phaseLeft (completing .decodeData 1 1)
      ∧ phaseLeft (completing .decodeData 1 0) = 0
      ∧ ∀ a b : Rat, (completing .decodeData a b).boundary ∧ 19 ≤ (completing .decodeData a b).sampleCount.toNat
          ∧ widenedMin 400#11 (completing .decodeData a b) < widenedMax 400#11 (completing .decodeData a b) := by
  refine ⟨by decide +kernel, by decide +kernel, by decide +kernel, fun a b => ?_⟩
  exact ⟨(completing_meets _ _ _).1, (completing_meets _ _ _).2.1, (completing_meets _ _ _).2.2.1⟩

/-- A symbol whose pair of f = 1 is at the threshold has no sync bit. -/
theorem witness_SynclessSymbolLeavesClock :
    (completing .decodeData (1/2) 0).boundary ∧ 19 ≤ (completing .decodeData (1/2) 0).sampleCount.toNat
      ∧ (goesOn (exec (.feedDecodeData 400#11) (completing .decodeData (1/2) 0)) State.reset).word &&& 0x100#9 = 0#9 :=
  ⟨(completing_meets _ _ _).1, (completing_meets _ _ _).2.1, by decide +kernel⟩

/-- Both ways of not being at a boundary. -/
theorem witness_CorrectionsOnlyAtBoundaries :
    (¬ (legal .detectCalibrate []).boundary
        ∧ (legal .detectCalibrate []).acc.i.toNat < (legal .detectCalibrate []).sampleCount.toNat)
      ∧ ¬ ({ completing .detectCalibrate 1 1 with skip := 1#16 } : State).boundary
        ∧ (completing .detectCalibrate 1 1).acc.i.toNat < (completing .detectCalibrate 1 1).sampleCount.toNat := by
  unfold State.boundary
  refine ⟨by decide, ?_, ?_⟩
  · intro h
    exact absurd h.1 (by decide)
  · show (23#16).toNat < (24#16).toNat
    decide

theorem witness_WindowIsTransform :
    (legal .detectCalibrate []).acc = .zero ∧ 19 ≤ (legal .detectCalibrate []).sampleCount.toNat
      ∧ [1/2, 1/3].length ≤ (legal .detectCalibrate []).sampleCount.toNat := ⟨rfl, by decide, by decide⟩

theorem witness_ConstantWindowGivesZeroWord :
    (legal .detectCalibrate []).acc = .zero ∧ 19 ≤ (legal .detectCalibrate []).sampleCount.toNat
      ∧ (legal .detectCalibrate []).numerics = .exact := ⟨rfl, by decide, rfl⟩

theorem witness_DivisionsRoundAsStated : (0 : Int) < 8 ∧ (0 : Int) ≤ 9 := by decide

/-- The clause of an exact half. -/
theorem witness_RoundIsNearestHalfAway : |(5/2 : Rat) - roundHalfAway (5/2)| = 1/2 := by
  have : roundHalfAway (5/2) = 3 := by decide +kernel
  rw [this]
  norm_num

theorem witness_ExactNumericsDrawsNothing :
    (legal .decodeData [.command 500#16]).Inv ∧ (legal .decodeData [.command 500#16]).numerics = .exact
      ∧ step (legal .decodeData [.command 500#16])
          = .next (goesOn (step (legal .decodeData [.command 500#16])) State.reset) :=
  ⟨legal_inv _ _, rfl, rfl⟩

theorem pair_value (a b : Rat) : (pair a b).sin.value = a ∧ (pair a b).cos.value = b := by
  simp [pair]

/-- A bound of 1/8 around 0.25, and powers of 0. -/
theorem witness_BoundedWordAgreesAwayFromThreshold (f : Fin 9) :
    |(((⟨1/8, 1/8⟩ : Config.ErrorBound).power : Rat) : ℝ)|
      < |(Pairs.zero.get f).sin.value ^ 2 + (Pairs.zero.get f).cos.value ^ 2 - 1 / 4| := by
  rw [Pairs.get_zero]
  simp [Pair.zero]
  norm_num [abs_of_pos]

theorem witness_BoundedPhaseIsAnyWithinBound :
    1 ≤ 20 ∧ ((pair 1 0).sin.value ≠ 0 ∨ (pair 1 0).cos.value ≠ 0) := by
  rw [(pair_value 1 0).1]
  norm_num

/-- A bound of 1/8 and the angle 0, with a window of 20. -/
theorem witness_BoundedPhaseAgreesAwayFromTies :
    (1 ≤ 20 ∧ ((pair 1 0).sin.value ≠ 0 ∨ (pair 1 0).cos.value ≠ 0))
      ∧ (∀ k : Int, |(((⟨1/8, 1/8⟩ : Config.ErrorBound).phase : Rat) : ℝ)|
          < |atan2 (pair 1 0).cos.value (pair 1 0).sin.value / (2 * Real.pi) * (20 : ℕ) - (k + 1 / 2)|)
      ∧ |(((⟨1/8, 1/8⟩ : Config.ErrorBound).phase : Rat) : ℝ)|
          < (20 : ℕ) / 2 - |atan2 (pair 1 0).cos.value (pair 1 0).sin.value / (2 * Real.pi) * (20 : ℕ)| := by
  have hs : (pair 1 0).sin.value = 1 := by simpa using (pair_value 1 0).1
  have hc : (pair 1 0).cos.value = 0 := by simpa using (pair_value 1 0).2
  have ha : atan2 0 1 = 0 := by
    unfold atan2
    rw [show (⟨1, 0⟩ : ℂ) = 1 from rfl, Complex.arg_one]
  rw [hs, hc, ha]
  refine ⟨⟨by norm_num, Or.inl one_ne_zero⟩, ?_, by norm_num [abs_of_pos]⟩
  intro k
  have h : (1 : ℝ) ≤ |((2 * k + 1 : Int) : ℝ)| := by
    have : (1 : Int) ≤ |2 * k + 1| := Int.one_le_abs (by omega)
    exact_mod_cast this
  have e : (0 : ℝ) / (2 * Real.pi) * (20 : ℕ) - (k + 1 / 2) = -(((2 * k + 1 : Int) : ℝ) / 2) := by
    push_cast
    ring
  rw [e, abs_neg, abs_div]
  norm_num [abs_of_pos] at *
  linarith

end Sys2Proof.Tests
end

section
/-!
SUPPORT. The integer divisions of R9 and the rounding of R10 over the rationals, and the statements O48 and O49.
-/

namespace Sys2Proof.Machine

/-! ## Divisions (R9) -/

/-- Over a positive divisor `floor_div` is the floor of the rational quotient. -/
theorem floorDiv_eq_floor (a : Int) {b : Int} (hb : 0 < b) : floorDiv a b = ⌊(a : Rat) / b⌋ := by
  lift b to ℕ using hb.le
  rw [floorDiv, Int.fdiv_eq_ediv_of_nonneg a hb.le]
  exact (Rat.floor_intCast_div_natCast a b).symm

/-- The two divisions differ only below zero. -/
theorem truncDiv_eq_floorDiv {a b : Int} (ha : 0 ≤ a) (hb : 0 < b) : truncDiv a b = floorDiv a b := by
  rw [truncDiv, floorDiv, Int.tdiv_eq_ediv_of_nonneg ha, Int.fdiv_eq_ediv_of_nonneg a hb.le]

theorem truncDiv_neg_left (a b : Int) : truncDiv (-a) b = -truncDiv a b := Int.neg_tdiv a b

theorem truncDiv_neg_neg (a b : Int) : truncDiv (-a) (-b) = truncDiv a b := by
  rw [truncDiv_neg_left, truncDiv, Int.tdiv_neg, neg_neg, truncDiv]

/-- Over a positive divisor `trunc_div` rounds toward zero. -/
theorem truncDiv_of_pos (a : Int) {b : Int} (hb : 0 < b) :
    truncDiv a b = if 0 ≤ (a : Rat) / b then ⌊(a : Rat) / b⌋ else ⌈(a : Rat) / b⌉ := by
  have hbq : (0 : Rat) < b := Int.cast_pos.2 hb
  have hsign : 0 ≤ (a : Rat) / b ↔ 0 ≤ a := by
    rw [le_div_iff₀ hbq, zero_mul, Int.cast_nonneg_iff]
  split_ifs with hq
  · rw [truncDiv_eq_floorDiv (hsign.1 hq) hb, floorDiv_eq_floor a hb]
  · have ha : ¬ 0 ≤ a := mt hsign.2 hq
    calc truncDiv a b = -truncDiv (-a) b := by rw [truncDiv_neg_left, neg_neg]
      _ = -⌊-((a : Rat) / b)⌋ := by
        rw [truncDiv_eq_floorDiv (by omega) hb, floorDiv_eq_floor _ hb, Int.cast_neg, neg_div]
      _ = ⌈(a : Rat) / b⌉ := by rw [Int.floor_neg, neg_neg]

/-- Settles O48: a negative divisor is made positive by negating both numbers, which leaves the quotient as it is. -/
theorem divisionsRoundAsStated : Obligations.DivisionsRoundAsStated := by
  refine ⟨fun a b => ?_, fun a _ hb => floorDiv_eq_floor a hb, fun _ _ => truncDiv_eq_floorDiv⟩
  rcases lt_trichotomy b 0 with hb | rfl | hb
  · rw [← truncDiv_neg_neg, truncDiv_of_pos (-a) (neg_pos.2 hb), Int.cast_neg, Int.cast_neg, neg_div_neg_eq]
  · simp [truncDiv]
  · exact truncDiv_of_pos a hb

/-! ## Rounding (R10) -/

theorem roundHalfAway_of_nonneg {x : Rat} (hx : 0 ≤ x) : roundHalfAway x = ⌊x + 1 / 2⌋ := if_pos hx

/-- Rounding is odd. -/
theorem roundHalfAway_neg (x : Rat) : roundHalfAway (-x) = -roundHalfAway x := by
  rcases lt_trichotomy x 0 with hx | rfl | hx
  · rw [roundHalfAway, if_pos (neg_nonneg.2 hx.le), roundHalfAway, if_neg hx.not_ge, neg_neg]
  · rw [neg_zero, roundHalfAway_of_nonneg le_rfl]
    norm_num
  · rw [roundHalfAway, if_neg (not_le.2 (neg_neg_of_pos hx)), neg_neg, roundHalfAway, if_pos hx.le]

/-- `n` is within a half of `x`, and larger in magnitude where it is exactly a half away. -/
def NearestHalfAway (x : Rat) (n : Int) : Prop := |x - n| ≤ 1 / 2 ∧ (|x - n| = 1 / 2 → |x| < |(n : Rat)|)

theorem NearestHalfAway.neg {x : Rat} {n : Int} (h : NearestHalfAway x n) : NearestHalfAway (-x) (-n) := by
  have e : |-x - ((-n : Int) : Rat)| = |x - n| := by
    rw [Int.cast_neg, ← neg_sub', abs_neg]
  rw [NearestHalfAway, e, Int.cast_neg, abs_neg, abs_neg]
  exact h

theorem nearestHalfAway_of_nonneg {x : Rat} (hx : 0 ≤ x) : NearestHalfAway x (roundHalfAway x) := by
  rw [roundHalfAway_of_nonneg hx]
  have hle : (⌊x + 1 / 2⌋ : Rat) ≤ x + 1 / 2 := Int.floor_le _
  have hlt : x + 1 / 2 < ⌊x + 1 / 2⌋ + 1 := Int.lt_floor_add_one _
  refine ⟨abs_le.2 ⟨by linarith, by linarith⟩, fun htie => ?_⟩
  have hup : (⌊x + 1 / 2⌋ : Rat) = x + 1 / 2 := by
    rcases (abs_eq (by norm_num)).1 htie with h | h <;> linarith
  rw [hup, abs_of_nonneg hx, abs_of_nonneg (by linarith)]
  linarith

theorem nearestHalfAway_roundHalfAway (x : Rat) : NearestHalfAway x (roundHalfAway x) := by
  rcases le_total 0 x with hx | hx
  · exact nearestHalfAway_of_nonneg hx
  · have h := (nearestHalfAway_of_nonneg (neg_nonneg.2 hx)).neg
    rwa [neg_neg, roundHalfAway_neg, neg_neg] at h

/-- A third of an integer is never exactly a half away from an integer: twice the one and six times the other differ
by an even number, not by 3. -/
theorem abs_third_sub_ne_half (n k : Int) : |(n : Rat) / 3 - k| ≠ 1 / 2 := by
  intro h
  rcases (abs_eq (by norm_num)).1 h with h | h
  · have : ((2 * n - 6 * k : Int) : Rat) = (3 : Int) := by push_cast; linarith
    have := Int.cast_injective this
    omega
  · have : ((2 * n - 6 * k : Int) : Rat) = (-3 : Int) := by push_cast; linarith
    have := Int.cast_injective this
    omega

/-- Settles O49: rounding up from `x + 1/2` at and above zero, and rounding is odd. -/
theorem roundIsNearestHalfAway : Obligations.RoundIsNearestHalfAway :=
  ⟨nearestHalfAway_roundHalfAway,
    fun n => lt_of_le_of_ne (nearestHalfAway_roundHalfAway _).1 (abs_third_sub_ne_half n _)⟩

end Sys2Proof.Machine
end

section
/-!
SUPPORT. Away from the boundaries of 93_implementation_defined.md entry I1 a finite number format decides as exact
arithmetic does: the word (O51) and the phase (O53).
-/

namespace Sys2Proof.Machine

/-! ## The word -/

/-- A power farther from the threshold than the bound is present for a finite format exactly when it is for exact
numerics. -/
theorem bitPresent_bounded_of_far {b : Config.ErrorBound} (free free' : Bool) {q : TrigQuad}
    (h : |(b.power : ℝ)| < |q.value - 1 / 4|) : bitPresent (.bounded b) free q = bitPresent .exact free' q := by
  have hpos : q.compare (Config.bitThresh + |b.power|) = .pos ↔ (1 / 4 : ℝ) + |(b.power : ℝ)| < q.value := by
    rw [TrigQuad.compare_eq, show SignType.pos = 1 from rfl, sign_eq_one_iff, sub_pos, Config.bitThresh]
    push_cast
    rfl
  have hneg : q.compare (Config.bitThresh - |b.power|) = .neg ↔ q.value < (1 / 4 : ℝ) - |(b.power : ℝ)| := by
    rw [TrigQuad.compare_eq, show SignType.neg = -1 from rfl, sign_eq_neg_one_iff, sub_neg, Config.bitThresh]
    push_cast
    rfl
  have h0 : 0 ≤ |(b.power : ℝ)| := abs_nonneg _
  rw [Bool.eq_iff_iff, bitPresent_exact]
  simp only [bitPresent, hpos, hneg]
  rcases lt_abs.1 h with habove | hbelow
  · rw [if_pos (by linarith)]
    exact iff_of_true rfl (by linarith)
  · rw [if_neg (by linarith), if_pos (by linarith)]
    exact iff_of_false Bool.false_ne_true (by linarith)

/-- Words whose nine bit decisions agree are equal (R174). -/
theorem wordOf_congr {nm nm' : Config.Numerics} {d d' : Nat} {p p' : Pairs}
    (h : ∀ f : Fin 9, bitPresent nm (Config.freeBit d (f.val + 1)) (toFrequencies p f)
      = bitPresent nm' (Config.freeBit d' (f.val + 1)) (toFrequencies p' f)) :
    wordOf nm d p = wordOf nm' d' p' := by
  apply BitVec.eq_of_getLsbD_eq
  intro j hj
  have hf := h ⟨8 - j, by omega⟩
  rw [← wordOf_bit, ← wordOf_bit] at hf
  simpa only [show 8 - (8 - j) = j by omega] using hf

/-- Settles O51, bit by bit. -/
theorem boundedWordAgreesAwayFromThreshold : Obligations.BoundedWordAgreesAwayFromThreshold := by
  intro b d d' p hfar
  refine wordOf_congr fun f => bitPresent_bounded_of_far _ _ ?_
  rw [toFrequencies_value]
  exact hfar f

/-! ## The phase -/

/-- An integer closer than a half is the rounding. -/
theorem roundReal_eq_of_abs_lt {y : ℝ} {v : Int} (h : |y - v| < 1 / 2) : roundReal y = v := by
  obtain ⟨hlo, hhi⟩ := abs_lt.1 h
  unfold roundReal
  split_ifs
  · rw [Int.floor_eq_iff]
    constructor <;> linarith
  · rw [neg_eq_iff_eq_neg, Int.floor_eq_iff, Int.cast_neg]
    constructor <;> linarith

/-- Of the three ways into `phaseWithin`, the two past an end of the window are closed when y is farther than the bound
from ±N/2, and the first leaves the rounding of y alone when y is farther than the bound from the half-integers. -/
theorem eq_roundReal_of_phaseWithin {n : Nat} (hn : 1 ≤ n) {sn cs : TrigSum} (h : sn.value ≠ 0 ∨ cs.value ≠ 0)
    {e : Rat} (he : 0 ≤ e) {v : Int} {y : ℝ} (hy : y = atan2 cs.value sn.value / (2 * Real.pi) * n)
    (hties : ∀ k : Int, (e : ℝ) < |y - (k + 1 / 2)|) (hends : (e : ℝ) < n / 2 - |y|)
    (hv : phaseWithin e n sn cs v = true) : roundReal y = v := by
  have he' : (0 : ℝ) ≤ e := Rat.cast_nonneg.2 he
  have hyabs : -|y| ≤ y ∧ y ≤ |y| := ⟨neg_abs_le y, le_abs_self y⟩
  rcases (phaseWithin_iff hn h e v hy).1 hv with ⟨hlo, hhi⟩ | ⟨hend, -⟩ | ⟨hend, -⟩
  · have hbelow : y < v + 1 / 2 := by
      rcases lt_abs.1 (hties v) with ht | ht <;> linarith
    have habove : v - 1 / 2 < y := by
      have hprev := hties (v - 1)
      push_cast at hprev
      rcases lt_abs.1 hprev with ht | ht <;> linarith
    exact roundReal_eq_of_abs_lt (abs_lt.2 ⟨by linarith, by linarith⟩)
  · linarith
  · linarith

/-- A candidate other than the exact phase is one that `phaseWithin` admits. -/
theorem mem_phaseCandidates_cases {b : Config.ErrorBound} {n : Nat} {sn cs : TrigSum} {k v : Int}
    (h : v ∈ phaseCandidates b n sn cs k) : v = k ∨ phaseWithin |b.phase| n sn cs v = true := by
  simp only [phaseCandidates, List.mem_filter, Bool.and_eq_true, Bool.or_eq_true, decide_eq_true_eq] at h
  exact h.2.2

/-- Where the exact phase is the only candidate, a finite format measures it. -/
theorem measuredPhase_bounded_of_unique {b : Config.ErrorBound} {n : Nat} {p : Pair} (d : Nat)
    (h : p.sin.value ≠ 0 ∨ p.cos.value ≠ 0)
    (hunique : ∀ v ∈ phaseCandidates b n p.sin p.cos (roundedPhase n p.sin p.cos), v = roundedPhase n p.sin p.cos) :
    measuredPhase (.bounded b) d n p = roundedPhase n p.sin p.cos := by
  simp only [measuredPhase, if_neg (not_origin h), List.getD_eq_getElem?_getD]
  generalize Config.freeChoice d % _ = i
  cases hi : (phaseCandidates b n p.sin p.cos (roundedPhase n p.sin p.cos))[i]? with
  | none => rfl
  | some v => exact hunique v (List.mem_of_getElem? hi)

/-- Settles O53: the exact phase is the only candidate. -/
theorem boundedPhaseAgreesAwayFromTies : Obligations.BoundedPhaseAgreesAwayFromTies := by
  intro b d d' n p hn h hties hends
  refine measuredPhase_bounded_of_unique d h fun v hv => ?_
  rcases mem_phaseCandidates_cases hv with hexact | hwithin
  · exact hexact
  · have hround := eq_roundReal_of_phaseWithin hn h (abs_nonneg b.phase) rfl (by simpa only [Rat.cast_abs] using hties)
      (by simpa only [Rat.cast_abs] using hends) hwithin
    rw [roundedPhase_eq hn h, hround]

end Sys2Proof.Machine
end

section
/-!
SUPPORT. What the FEED of each decoder state does to the registers, and the three things a step can do to them: nothing,
a reset, or a FEED (43_commands.md rules R200 to R209).
-/

namespace Sys2Proof.Machine

/-- The registers after a FEED of `x` handled as in the state `d`, before the response is sent (R201 to R207). -/
def feedBody (d : DecState) (x : Sample) (s : State) : State :=
  match d with
  | .init => condInit x s
  | .detectPolarity => polarityFeed x s
  | .detectWaveFirstHalf => firstHalfFeed x s
  | .detectWaveSecondHalf => secondHalfFeed x s
  | .detectCalibrate => (gatedFeed calDecide x s).2
  | .decodeData => (gatedFeed dataDecide x s).2
  | .eof => s

/-- Every FEED row runs its body and then sends one response. -/
theorem exec_feedIn (d : DecState) (x : Sample) (s : State) :
    ∃ r, exec (feedIn d x) s = .next ((feedBody d x s).respond r) := by
  cases d <;> exact ⟨_, rfl⟩

theorem eq_respond_of_exec_feedIn {d : DecState} {x : Sample} {s t : State} (h : exec (feedIn d x) s = .next t) :
    ∃ r, t = (feedBody d x s).respond r := by
  obtain ⟨r, hr⟩ := exec_feedIn d x s
  exact ⟨r, Host.Outcome.next.inj (h.symm.trans hr)⟩

/-- An instruction other than RESET is the FEED row of some state. -/
theorem exists_feedIn_of_ne_reset {i : Instr} (h : i ≠ .reset) : ∃ d x, i = feedIn d x := by
  cases i with
  | feedInit x => exact ⟨.init, x, rfl⟩
  | feedDetectPolarity x => exact ⟨.detectPolarity, x, rfl⟩
  | feedDetectWaveFirstHalf x => exact ⟨.detectWaveFirstHalf, x, rfl⟩
  | feedDetectWaveSecondHalf x => exact ⟨.detectWaveSecondHalf, x, rfl⟩
  | feedDetectCalibrate x => exact ⟨.detectCalibrate, x, rfl⟩
  | feedDecodeData x => exact ⟨.decodeData, x, rfl⟩
  | feedEof x => exact ⟨.eof, x, rfl⟩
  | reset => exact absurd rfl h

/-- The registers of `s` with the ports of `p`. -/
def State.withPortsOf (s p : State) : State :=
  { s with inputs := p.inputs, responses := p.responses, taken := p.taken }

theorem takeResponse_eq_withPortsOf (s : State) : s.takeResponse = s.withPortsOf s.takeResponse := by
  unfold State.takeResponse
  split <;> rfl

/-- The two ways to a reset: the host's reset input, or the accepted command RESET (R208, R260). -/
def ResetNext (s : State) : Prop :=
  (s.ready = true ∧ ∃ rest, s.inputs = .command 0x4000#16 :: rest)
    ∨ ∃ cut rest, nextInput s.ready s.inputs = some (.resetInput cut, rest)

/-- What a step can do to the registers: it moves words at the ports only, it resets, or it runs the FEED of the state it
finds. -/
theorem step_registers {s t : State} (h : step s = .next t) :
    t = s.withPortsOf t
    ∨ (ResetNext s ∧ t = s.resetRegisters.withPortsOf t)
    ∨ ∃ x rest r, t = (feedBody s.state x { s with inputs := rest }).respond r := by
  rcases step_cases h with ⟨-, rfl⟩ | ⟨rest, -, rfl⟩ | ⟨rest, -, rfl⟩ | ⟨cut, rest, hin, rfl⟩ | ⟨w, rest, -, -, rfl⟩
    | ⟨x, rest, -, -, hexec⟩ | ⟨rest, hready, hin, hexec⟩
  · exact .inl rfl
  · exact .inl rfl
  · exact .inl (takeResponse_eq_withPortsOf _)
  · exact .inr (.inl ⟨.inr ⟨cut, rest, hin⟩, rfl⟩)
  · exact .inl rfl
  · obtain ⟨r, hr⟩ := eq_respond_of_exec_feedIn hexec
    exact .inr (.inr ⟨x, rest, r, hr⟩)
  · cases Host.Outcome.next.inj hexec
    exact .inr (.inl ⟨.inl ⟨hready, rest, hin⟩, rfl⟩)

/-- The first half-wave's FEED widens the extremes, counts, and may go on to the second half-wave (R203). -/
theorem firstHalfFeed_eq (x : Sample) (s : State) :
    firstHalfFeed x s = { seedCount (condTrackExtremes x s) with
      state := if firstHalfExit x s then .detectWaveSecondHalf else s.state } := by
  unfold firstHalfFeed
  split <;> rfl

/-- A sample within the threshold only smooths the baseline (R104). -/
theorem polarityFeed_of_not_commits {x : Sample} {s : State} (h : ¬ condCommits (condDiff x s) = true) :
    polarityFeed x s = condBaselineSmooth (condDiff x s) s := if_neg h

/-- A sample beyond the threshold commits the polarity and falls through to the first half-wave (R103, R105). -/
theorem polarityFeed_of_commits {x : Sample} {s : State} (h : condCommits (condDiff x s) = true) :
    polarityFeed x s = firstHalfFeed x (condPolarityCommit (condDiff x s) s) := if_pos h

end Sys2Proof.Machine
end

section
/-!
SUPPORT. The extremes over a FEED (10_state.md rule R41), and the statement O6.
-/

namespace Sys2Proof.Machine

/-- From `s` to `t` signal_min is not raised and signal_max is not lowered. -/
def Widens (s t : State) : Prop :=
  t.signalMin.toNat ≤ s.signalMin.toNat ∧ s.signalMax.toNat ≤ t.signalMax.toNat

/-- Extremes that are those of `s` and one more sample are not narrower than those of `s`. -/
theorem widens_of_sample {s t : State} (x : Sample) (hmin : t.signalMin = minSample s.signalMin x)
    (hmax : t.signalMax = maxSample s.signalMax x) : Widens s t := by
  rw [Widens, hmin, hmax, minSample_toNat, maxSample_toNat]
  omega

theorem track_widens (x : Sample) (s : State) : Widens s (seedCount (condTrackExtremes x s)) :=
  widens_of_sample x (by simp) (by simp)

theorem firstHalfFeed_widens (x : Sample) (s : State) : Widens s (firstHalfFeed x s) := by
  rw [firstHalfFeed_eq]
  exact track_widens x s

theorem secondHalfFeed_widens (x : Sample) (s : State) : Widens s (secondHalfFeed x s) := by
  unfold secondHalfFeed
  split
  · simpa [Widens] using track_widens x s
  · exact track_widens x s

theorem gatedFeed_widens {v : State → Result × State} (hv : Verdict v) (x : Sample) (s : State) :
    Widens s (gatedFeed v x s).2 := by
  obtain ⟨-, -, -, -, -, -, hmin, hmax⟩ := gatedFeed_kept hv x s
  exact widens_of_sample x (by simpa using hmin) (by simpa using hmax)

/-- Every FEED but one that commits a polarity. -/
theorem feedBody_widens (d : DecState) (x : Sample) (s : State)
    (h : d = .detectPolarity → ¬ condCommits (condDiff x s) = true) : Widens s (feedBody d x s) := by
  cases d with
  | init => exact ⟨le_rfl, le_rfl⟩
  | detectPolarity =>
    rw [feedBody, polarityFeed_of_not_commits (h rfl)]
    exact ⟨le_rfl, le_rfl⟩
  | detectWaveFirstHalf => exact firstHalfFeed_widens x s
  | detectWaveSecondHalf => exact secondHalfFeed_widens x s
  | detectCalibrate => exact gatedFeed_widens calDecide_verdict x s
  | decodeData => exact gatedFeed_widens dataDecide_verdict x s
  | eof => exact ⟨le_rfl, le_rfl⟩

/-- Settles O6: each of the seven FEED rows widens the extremes by its sample or leaves them. -/
theorem extremesNeverNarrow : Obligations.ExtremesNeverNarrow := by
  intro i s t hexec hi hpol
  obtain ⟨d, x, rfl⟩ := exists_feedIn_of_ne_reset hi
  obtain ⟨r, rfl⟩ := eq_respond_of_exec_feedIn hexec
  have hsmooth : d = .detectPolarity → ¬ condCommits (condDiff x s) = true := by
    rintro rfl
    rw [condCommits_iff, not_lt]
    exact hpol x rfl
  simpa [Widens] using feedBody_widens d x s hsmooth

end Sys2Proof.Machine
end

section
/-!
SUPPORT. Eof (10_state.md rule R43, 43_commands.md rule R207): the statement O7.
-/

namespace Sys2Proof.Machine

theorem commandAt_feed (s : State) (x : Sample) : commandAt s (x.setWidth 16) = .instr (feedIn s.state x) := by
  rw [commandAt_eq, decodeCommand_feed _ (feedWord_masked x), feedWord_sample]

/-- Settles O7: of what a step can do to the registers only a reset writes the state register in Eof. -/
theorem eofIsTerminal : Obligations.EofIsTerminal := by
  refine ⟨fun s x hs => ⟨?_, rfl⟩, fun s t hs hstep ht => ?_⟩
  · rw [commandAt_feed, hs, feedIn]
  · rcases step_registers hstep with hports | ⟨hreset, -⟩ | ⟨x, rest, r, rfl⟩
    · rw [hports] at ht
      exact absurd hs ht
    · exact hreset
    · simp [hs, feedBody] at ht

end Sys2Proof.Machine
end

section
/-!
SUPPORT. The invariant of 10_state.md rules R39 to R42 over the ports, a reset and each FEED, over a step and over a run:
the statements O1 to O5.
-/

namespace Sys2Proof.Machine

/-! ## Reset and the ports -/

/-- Settles O1. The accumulators are empty sums, the other registers stand in the definition. -/
theorem resetLeavesStatedValues : Obligations.ResetLeavesStatedValues :=
  ⟨rfl, rfl, rfl, rfl, rfl, rfl, rfl, Accumulator.zero_values, rfl, rfl, rfl, rfl, rfl⟩

theorem State.reset_inv : State.reset.Inv := by
  constructor <;> simp [State.reset, State.calibrated, State.committed]

/-- The invariant speaks of the registers only, not of the ports and the model's own fields. -/
theorem State.Inv.with_ports {s : State} (h : s.Inv) (inputs : List HostInput) (responses taken : List Word)
    (numerics : Config.Numerics) (draws : Nat) :
    { s with inputs := inputs, responses := responses, taken := taken, numerics := numerics, draws := draws }.Inv := by
  obtain ⟨index, rest, floor, extremes, range, skipping, phases, skipBound, syncless, seed, terminal⟩ := h
  exact ⟨index, rest, floor, extremes, range, skipping, phases, skipBound, syncless, seed, terminal⟩

/-- Settles O2: the number format and the host's list are no registers. -/
theorem invariantHoldsAtReset : Obligations.InvariantHoldsAtReset :=
  fun _ _ => State.reset_inv.with_ports ..

theorem State.Inv.respond {s : State} (h : s.Inv) (r : Result) : (s.respond r).Inv := h.with_ports ..

theorem State.resetRegisters_inv (s : State) : s.resetRegisters.Inv := State.reset_inv.with_ports ..

/-! ## The extremes -/

theorem State.Inv.extremes_of_widens {s t : State} (h : s.Inv) (hw : Widens s t) :
    t.signalMin.toNat ≤ t.signalMax.toNat :=
  hw.1.trans (h.extremes.trans hw.2)

theorem State.Inv.range_of_widens {s t : State} (h : s.Inv) (hw : Widens s t) (hs : s.committed) :
    t.signalMin.toNat + 65 ≤ t.signalMax.toNat :=
  (Nat.add_le_add_right hw.1 65).trans ((h.range hs).trans hw.2)

/-- Once the polarity is committed no sample leaves a zero range (R42, R110). -/
theorem State.Inv.widened_lt {s : State} (h : s.Inv) (hs : s.committed) (x : Sample) :
    widenedMin x s < widenedMax x s := by
  have := h.range hs
  unfold widenedMin widenedMax
  omega

/-! ## FEEDs before calibration -/

/-- The registers that no FEED writes before it enters DetectCalibrate. -/
structure SymbolKept (s t : State) : Prop where
  acc : t.acc = s.acc
  phase : t.phase = s.phase
  phase2 : t.phase2 = s.phase2
  phase3 : t.phase3 = s.phase3
  skip : t.skip = s.skip
  word : t.word = s.word

theorem SymbolKept.refl (s : State) : SymbolKept s s := ⟨rfl, rfl, rfl, rfl, rfl, rfl⟩

theorem SymbolKept.trans {a b c : State} (h : SymbolKept a b) (k : SymbolKept b c) : SymbolKept a c :=
  ⟨k.acc.trans h.acc, k.phase.trans h.phase, k.phase2.trans h.phase2, k.phase3.trans h.phase3, k.skip.trans h.skip,
    k.word.trans h.word⟩

theorem condPolarityCommit_symbolKept (diff : Int) (s : State) : SymbolKept s (condPolarityCommit diff s) :=
  ⟨by simp, by simp, by simp, by simp, by simp, by simp⟩

theorem track_symbolKept (x : Sample) (s : State) : SymbolKept s (seedCount (condTrackExtremes x s)) :=
  ⟨by simp, by simp, by simp, by simp, by simp, by simp⟩

theorem firstHalfFeed_symbolKept (x : Sample) (s : State) : SymbolKept s (firstHalfFeed x s) := by
  rw [firstHalfFeed_eq]
  exact (track_symbolKept x s).trans ⟨rfl, rfl, rfl, rfl, rfl, rfl⟩

/-- From one state before calibration to another the invariant asks about the extremes and the seed count only. -/
theorem State.Inv.uncalibrated {s t : State} (h : s.Inv) (hk : SymbolKept s t) (hs : ¬ s.calibrated)
    (ht : ¬ t.calibrated) (heof : t.state ≠ .eof) (hextremes : t.signalMin.toNat ≤ t.signalMax.toNat)
    (hrange : t.committed → t.signalMin.toNat + 65 ≤ t.signalMax.toNat)
    (hseed : t.state = .detectPolarity → t.sampleCount = 0#16) : t.Inv where
  index hc := absurd hc ht
  rest _ := hk.acc.trans (h.rest hs)
  floor hc := absurd hc ht
  extremes := hextremes
  range := hrange
  skipping _ := hk.acc.trans (h.rest hs)
  phases := by rw [hk.phase, hk.phase2, hk.phase3]; exact h.phases
  skipBound := by rw [hk.skip]; exact h.skipBound
  syncless := by rw [hk.word, hk.phase]; exact h.syncless
  seed := hseed
  terminal he := absurd he heof

theorem condInit_inv {s : State} (h : s.Inv) (hs : s.state = .init) (x : Sample) : (condInit x s).Inv :=
  h.uncalibrated ⟨rfl, rfl, rfl, rfl, rfl, rfl⟩ (by simp [State.calibrated, hs]) (by simp [State.calibrated])
    (by simp) h.extremes (by simp [State.committed, State.calibrated]) (fun _ => rfl)

/-- The state register after the first half-wave's FEED. -/
theorem firstHalfFeed_state {s : State} (hs : s.state = .detectWaveFirstHalf) (x : Sample) :
    (firstHalfFeed x s).state = .detectWaveFirstHalf ∨ (firstHalfFeed x s).state = .detectWaveSecondHalf := by
  rw [firstHalfFeed_eq, hs]
  cases firstHalfExit x s
  · exact .inl rfl
  · exact .inr rfl

/-- The first half-wave's FEED from `u` reaches the invariant where the symbol registers are those of a state before
calibration that meets it, and the new extremes have the range. -/
theorem firstHalfFeed_inv_of_range {s u : State} (h : s.Inv) (hs : ¬ s.calibrated) (hk : SymbolKept s u)
    (hu : u.state = .detectWaveFirstHalf) (x : Sample)
    (hrange : (firstHalfFeed x u).signalMin.toNat + 65 ≤ (firstHalfFeed x u).signalMax.toNat) :
    (firstHalfFeed x u).Inv := by
  have hkept := hk.trans (firstHalfFeed_symbolKept x u)
  have hextremes := (Nat.le_add_right _ 65).trans hrange
  rcases firstHalfFeed_state hu x with ht | ht <;>
    exact h.uncalibrated hkept hs (by simp [State.calibrated, ht]) (by simp [ht]) hextremes (fun _ => hrange)
      (by simp [ht])

theorem firstHalfFeed_inv {s : State} (h : s.Inv) (hs : s.state = .detectWaveFirstHalf) (x : Sample) :
    (firstHalfFeed x s).Inv :=
  firstHalfFeed_inv_of_range h (by simp [State.calibrated, hs]) (.refl s) hs x
    (h.range_of_widens (firstHalfFeed_widens x s) (.inl hs))

/-- The extremes start at the baseline, and the committing sample lies more than 64 from it (R103). -/
theorem commit_range {x : Sample} {s : State} (h : condCommits (condDiff x s) = true) :
    (firstHalfFeed x (condPolarityCommit (condDiff x s) s)).signalMin.toNat + 65
      ≤ (firstHalfFeed x (condPolarityCommit (condDiff x s) s)).signalMax.toNat := by
  rw [condCommits_iff] at h
  simp only [firstHalfFeed_eq, seedCount_signalMin, seedCount_signalMax, condTrackExtremes_signalMin,
    condTrackExtremes_signalMax, condPolarityCommit_signalMin, condPolarityCommit_signalMax, minSample_toNat,
    maxSample_toNat]
  omega

theorem polarityFeed_inv {s : State} (h : s.Inv) (hs : s.state = .detectPolarity) (x : Sample) :
    (polarityFeed x s).Inv := by
  have hcal : ¬ s.calibrated := by simp [State.calibrated, hs]
  by_cases hc : condCommits (condDiff x s) = true
  · rw [polarityFeed_of_commits hc]
    have hrange := commit_range hc
    exact firstHalfFeed_inv_of_range h hcal (condPolarityCommit_symbolKept _ s) (by simp) x hrange
  · rw [polarityFeed_of_not_commits hc]
    exact h.uncalibrated ⟨rfl, rfl, rfl, rfl, rfl, rfl⟩ hcal (by simp [State.calibrated, hs]) (by simp [hs]) h.extremes
      (by simp [State.committed, State.calibrated, hs]) (fun _ => h.seed hs)

/-- Entering DetectCalibrate clamps the period and clears the accumulator and the skip counter (R134). -/
theorem enterCalibrate_inv {s : State} (h : s.Inv) (hs : s.committed) : (enterCalibrate s).Inv where
  index _ := by
    rw [enterCalibrate_acc, enterCalibrate_sampleCount, satU16_clampLo, Accumulator.zero]
    simp
  rest _ := enterCalibrate_acc s
  floor _ := by rw [enterCalibrate_sampleCount, satU16_clampLo]; exact le_max_right _ _
  extremes := h.extremes
  range _ := h.range hs
  skipping _ := enterCalibrate_acc s
  phases := h.phases
  skipBound := by simp
  syncless := h.syncless
  seed he := by simp at he
  terminal he := by simp at he

theorem secondHalfFeed_inv {s : State} (h : s.Inv) (hs : s.state = .detectWaveSecondHalf) (x : Sample) :
    (secondHalfFeed x s).Inv := by
  have hcal : ¬ s.calibrated := by simp [State.calibrated, hs]
  have hw := track_widens x s
  have htracked : (seedCount (condTrackExtremes x s)).Inv :=
    h.uncalibrated (track_symbolKept x s) hcal (by simp [State.calibrated, hs]) (by simp [hs])
      (h.extremes_of_widens hw) (fun _ => h.range_of_widens hw (.inr (.inl hs))) (by simp [hs])
  unfold secondHalfFeed
  split
  · exact enterCalibrate_inv htracked (.inr (.inl (by simp [hs])))
  · exact htracked

/-! ## FEEDs in the calibrated states -/

theorem conditioned_inv {s : State} (h : s.Inv) (x : Sample) : (conditioned x s).2.Inv := by
  have hw : Widens s (condWiden x s) := widens_of_sample x (by simp) (by simp)
  have hwiden : (condWiden x s).Inv :=
    { h with extremes := h.extremes_of_widens hw, range := fun hc => h.range_of_widens hw hc }
  rw [conditioned_state]
  exact hwiden.with_ports ..

/-- A skipped sample counts the skip counter down; it was not 0, so no sample of the window is accumulated yet. -/
theorem State.Inv.skip_pred {s : State} (h : s.Inv) (hskip : s.skip ≠ 0#16) : { s with skip := s.skip - 1#16 }.Inv :=
  { h with
    skipping := fun _ => h.skipping hskip
    skipBound := by
      have := h.skipBound
      show (s.skip - 1#16).toNat ≤ 32768
      bv_omega }

/-- An accumulated sample that does not complete the symbol leaves the index below the period. -/
theorem addSample_inv {s : State} (h : s.Inv) (hs : s.calibrated) (hskip : s.skip = 0#16)
    (hi : s.acc.i + 1#16 ≠ s.sampleCount) (y : Rat) : (addSample y s).Inv := by
  have hindex : (s.acc.i + 1#16).toNat < s.sampleCount.toNat := by
    have := h.index hs
    bv_omega
  rw [addSample_frame]
  exact { h with
    index := fun _ => by rw [← addSample_i y s] at hindex; exact hindex
    rest := fun hc => absurd hs hc
    skipping := fun hc => absurd hskip hc }

/-- A verdict leaves the calibrated states on the all-zero word only, for Init or Eof (R139, R140). -/
def LeavesOnZeroWord (v : State → Result × State) : Prop :=
  ∀ s : State, s.calibrated →
    (v s).2.calibrated ∨ (s.word = 0#9 ∧ ((v s).2.state = .init ∨ (v s).2.state = .eof))

theorem calDecide_leavesOnZeroWord : LeavesOnZeroWord calDecide := by
  intro s hs
  simp only [State.calibrated, calDecide_state]
  split_ifs with hzero hmarker
  · exact .inr ⟨hzero, .inl rfl⟩
  · exact .inl (.inr rfl)
  · exact .inl hs

theorem dataDecide_leavesOnZeroWord : LeavesOnZeroWord dataDecide := by
  intro s hs
  simp only [State.calibrated, dataDecide_state]
  split_ifs with hzero
  · exact .inr ⟨hzero, .inr rfl⟩
  · exact .inl hs

section

variable {v : State → Result × State} {x : Sample} {s t : State}

/-- The three courses of the re-alignment (R145, R146). -/
theorem Completed.realigned (h : Completed v x s t) :
    (t.phase.toInt < 0 ∧ t.skip = BitVec.ofInt 16 (-t.phase.toInt) ∧ t.acc = .zero)
    ∨ (t.phase = 0#17 ∧ t.skip = 0#16 ∧ t.acc = .zero)
    ∨ (0 < t.phase.toInt ∧ t.skip = 0#16 ∧ t.acc.i = 1#16) := by
  rcases lt_trichotomy t.phase.toInt 0 with hlate | hzero | hearly
  · exact .inl ⟨hlate, h.late hlate⟩
  · have hphase : t.phase = 0#17 := BitVec.eq_of_toInt_eq hzero
    exact .inr (.inl ⟨hphase, h.onTime hphase⟩)
  · obtain ⟨hskip, hacc⟩ := h.early hearly
    exact .inr (.inr ⟨hearly, hskip, by rw [hacc]⟩)

/-- The period after a completed symbol is that of the drift rule. -/
theorem Completed.period_floor (h : Completed v x s t) (hN : 19 ≤ s.sampleCount.toNat) : 19 ≤ t.sampleCount.toNat := by
  have hfloor := driftRule_floor { s with phase := t.phase } hN
  rw [driftRule_eq] at hfloor
  rw [h.period]
  exact hfloor

theorem Completed.index_le_one (h : Completed v x s t) : t.acc.i.toNat ≤ 1 := by
  rcases h.realigned with ⟨-, -, hacc⟩ | ⟨-, -, hacc⟩ | ⟨-, -, hi⟩
  · simp [hacc, Accumulator.zero]
  · simp [hacc, Accumulator.zero]
  · simp [hi]

/-- A phase is at most half of the longest period, rounded up (R137). -/
theorem Completed.phase_bound (h : Completed v x s t) : t.phase.toInt.natAbs ≤ 32768 := by
  have hle := completedPhase_natAbs_le (conditioned x s).1 (conditioned x s).2
  have := (conditioned x s).2.sampleCount.isLt
  rw [h.phase]
  omega

theorem Completed.phase_syncless (h : Completed v x s t) (hw : t.word &&& Config.syncBit = 0#9) : t.phase = 0#17 := by
  rw [h.phase]
  exact completedPhase_syncless (h.word ▸ hw)

theorem Completed.acc_zero_of_skip (h : Completed v x s t) (hskip : t.skip ≠ 0#16) : t.acc = .zero := by
  rcases h.realigned with ⟨-, -, hacc⟩ | ⟨-, -, hacc⟩ | ⟨-, hno, -⟩
  · exact hacc
  · exact hacc
  · exact absurd hno hskip

theorem Completed.skip_bound (h : Completed v x s t) : t.skip.toNat ≤ 32768 := by
  rcases h.realigned with ⟨hneg, hskip, -⟩ | ⟨-, hskip, -⟩ | ⟨-, hskip, -⟩
  · have hbound := h.phase_bound
    have := ofInt16_toNat (-t.phase.toInt) (by omega) (by omega)
    rw [hskip]
    omega
  · simp [hskip]
  · simp [hskip]

/-- The state after a completed symbol: calibrated still, or Init or Eof after the all-zero word. -/
theorem Completed.state_cases (h : Completed v x s t) (hv : LeavesOnZeroWord v) (hs : s.calibrated) :
    t.calibrated ∨ (t.word = 0#9 ∧ (t.state = .init ∨ t.state = .eof)) := by
  have hcases := hv { s with word := t.word } hs
  simp only [State.calibrated, ← h.state] at hcases
  exact hcases

theorem Completed.widens (h : Completed v x s t) : Widens s t :=
  widens_of_sample x (congrArg State.signalMin h.frame) (congrArg State.signalMax h.frame)

/-- A completed symbol keeps the invariant. The all-zero word has no sync bit, so the phase is 0 and the accumulator is
left reset where the calibrated states are left. -/
theorem Completed.inv (h : Completed v x s t) (hv : LeavesOnZeroWord v) (hinv : s.Inv) (hs : s.calibrated) : t.Inv where
  index _ := h.index_le_one.trans_lt (Nat.lt_of_lt_of_le (by decide) (h.period_floor (hinv.floor hs)))
  rest hleft := by
    obtain ⟨hword, -⟩ := (h.state_cases hv hs).resolve_left hleft
    exact (h.onTime (h.phase_syncless (by rw [hword]; rfl))).2
  floor _ := h.period_floor (hinv.floor hs)
  extremes := hinv.extremes_of_widens h.widens
  range _ := hinv.range_of_widens h.widens (.inr (.inr hs))
  skipping := h.acc_zero_of_skip
  phases := by
    refine ⟨h.phase_bound, h.phase2 ▸ h.phase_bound, ?_⟩
    rw [h.phase3]
    split
    · simp
    · exact hinv.phases.2.1
  skipBound := h.skip_bound
  syncless := h.phase_syncless
  seed he := by
    rcases h.state_cases hv hs with hcal | ⟨-, hinit | heof⟩
    · simp [State.calibrated, he] at hcal
    · simp [he] at hinit
    · simp [he] at heof
  terminal he := by
    rcases h.state_cases hv hs with hcal | ⟨hword, -⟩
    · simp [State.calibrated, he] at hcal
    · exact hword

end

/-- A FEED in a calibrated state keeps the invariant in each of its three courses: skipped, inside a window, and
completing a symbol. -/
theorem gatedFeed_inv {v : State → Result × State} (hv : Verdict v) (hleaves : LeavesOnZeroWord v) {s : State}
    (h : s.Inv) (hs : s.calibrated) (x : Sample) : (gatedFeed v x s).2.Inv := by
  have hc := conditioned_inv h x
  have hframe := conditioned_state x s
  by_cases hskip : s.skip = 0#16
  · by_cases hi : s.acc.i + 1#16 = s.sampleCount
    · exact (gatedFeed_boundary v hv x s hskip hi (h.floor hs)).inv hleaves h hs
    · rw [gatedFeed_inside v x s hskip hi]
      refine addSample_inv hc ?_ ?_ ?_ _
      · rw [hframe]; exact hs
      · rw [hframe]; exact hskip
      · rw [hframe]; exact hi
  · have hkept : (conditioned x s).2.skip = s.skip := by rw [hframe]; rfl
    rw [gatedFeed_skipped v x s hskip, ← hkept]
    exact hc.skip_pred (hkept ▸ hskip)

/-! ## Every step, every run -/

theorem feedBody_inv {s : State} (h : s.Inv) (x : Sample) : (feedBody s.state x s).Inv := by
  cases hs : s.state with
  | init => exact condInit_inv h hs x
  | detectPolarity => exact polarityFeed_inv h hs x
  | detectWaveFirstHalf => exact firstHalfFeed_inv h hs x
  | detectWaveSecondHalf => exact secondHalfFeed_inv h hs x
  | detectCalibrate => exact gatedFeed_inv calDecide_verdict calDecide_leavesOnZeroWord h (.inl hs) x
  | decodeData => exact gatedFeed_inv dataDecide_verdict dataDecide_leavesOnZeroWord h (.inr hs) x
  | eof => exact h

/-- Settles O3: the ports are no part of the invariant, a reset reaches it, and the FEED of each state keeps it. -/
theorem everyStepKeepsInvariant : Obligations.EveryStepKeepsInvariant := by
  intro s t h hstep
  rcases step_registers hstep with hports | ⟨-, hreset⟩ | ⟨x, rest, r, rfl⟩
  · rw [hports]
    exact h.with_ports ..
  · rw [hreset]
    exact s.resetRegisters_inv.with_ports ..
  · have hrest : ({ s with inputs := rest } : State).Inv := h.with_ports ..
    exact (feedBody_inv hrest x).respond r

theorem steps_inv {k : Nat} {s t : State} (h : s.Inv) (hrun : steps k s = .next t) : t.Inv := by
  induction k generalizing s with
  | zero => exact Host.Outcome.next.inj hrun ▸ h
  | succ k ih =>
    unfold steps at hrun
    split at hrun
    · rename_i u hu
      exact ih (everyStepKeepsInvariant s u h hu) hrun
    · cases hrun
    · cases hrun

/-- The invariant on every run from reset. -/
theorem inv_of_run {nm : Config.Numerics} {host : List HostInput} {k : Nat} {t : State}
    (hrun : steps k (State.start nm host) = .next t) : t.Inv :=
  steps_inv (invariantHoldsAtReset nm host) hrun

/-- Settles O4: the index, the floor and the accumulator at rest are parts of the invariant. -/
theorem runsKeepIndexAndPeriod : Obligations.RunsKeepIndexAndPeriod := by
  intro nm host k t hrun
  have h := inv_of_run hrun
  exact ⟨fun hc => ⟨h.index hc, h.floor hc⟩, fun hc => by rw [h.rest hc, Accumulator.zero]⟩

/-- Settles O5: a range of 65 stays at least 65 whatever sample widens it. -/
theorem runsKeepRange : Obligations.RunsKeepRange := by
  intro nm host k t hrun
  have h := inv_of_run hrun
  refine ⟨h.extremes, fun hc => ⟨?_, h.widened_lt (.inr (.inr hc))⟩⟩
  have := h.range (.inr (.inr hc))
  omega

end Sys2Proof.Machine
end

section
/-!
SUPPORT. With exact numerics nothing is drawn (00_scope.md rule R8, 10_state.md rule R42): the statement O50.
-/

namespace Sys2Proof.Machine

/-- From `s` to `t` the counter of draws and the number format stay. -/
def DrawsKept (s t : State) : Prop := t.draws = s.draws ∧ t.numerics = s.numerics

theorem firstHalfFeed_drawsKept (x : Sample) (s : State) : DrawsKept s (firstHalfFeed x s) := by
  rw [firstHalfFeed_eq]
  exact ⟨by simp, by simp⟩

theorem secondHalfFeed_drawsKept (x : Sample) (s : State) : DrawsKept s (secondHalfFeed x s) := by
  unfold secondHalfFeed
  split <;> exact ⟨by simp, by simp⟩

theorem polarityFeed_drawsKept (x : Sample) (s : State) : DrawsKept s (polarityFeed x s) := by
  by_cases hc : condCommits (condDiff x s) = true
  · rw [polarityFeed_of_commits hc]
    exact firstHalfFeed_drawsKept x (condPolarityCommit (condDiff x s) s)
  · rw [polarityFeed_of_not_commits hc]
    exact ⟨rfl, rfl⟩

/-- In a calibrated state that meets the invariant the range is not zero and the period is not zero, and exact numerics
decides a completed symbol without a draw. -/
theorem gatedFeed_drawsKept {v : State → Result × State} (hv : Verdict v) {s : State} (h : s.Inv) (hs : s.calibrated)
    (hexact : s.numerics = .exact) (x : Sample) : DrawsKept s (gatedFeed v x s).2 := by
  have hcond : (conditioned x s).2 = condWiden x s := by rw [conditioned_eq x s (h.widened_lt (.inr (.inr hs)) x)]
  refine ⟨?_, by simpa using (gatedFeed_kept hv x s).numerics⟩
  by_cases hskip : s.skip = 0#16
  · by_cases hi : s.acc.i + 1#16 = s.sampleCount
    · rw [(gatedFeed_boundary v hv x s hskip hi (h.floor hs)).draws hexact, hcond, condWiden_draws]
    · have hN : s.sampleCount ≠ 0#16 := State.sampleCount_ne_zero (Nat.lt_of_lt_of_le (by decide) (h.floor hs))
      rw [gatedFeed_inside v x s hskip hi, hcond, addSample_eq _ _ (by simpa using hN), condWiden_draws]
  · rw [gatedFeed_skipped v x s hskip, hcond, condWiden_draws]

theorem feedBody_drawsKept {s : State} (h : s.Inv) (hexact : s.numerics = .exact) (x : Sample) :
    DrawsKept s (feedBody s.state x s) := by
  cases hs : s.state with
  | init => exact ⟨rfl, rfl⟩
  | detectPolarity => exact polarityFeed_drawsKept x s
  | detectWaveFirstHalf => exact firstHalfFeed_drawsKept x s
  | detectWaveSecondHalf => exact secondHalfFeed_drawsKept x s
  | detectCalibrate => exact gatedFeed_drawsKept calDecide_verdict h (.inl hs) hexact x
  | decodeData => exact gatedFeed_drawsKept dataDecide_verdict h (.inr hs) hexact x
  | eof => exact ⟨rfl, rfl⟩

/-- Settles O50: neither the ports nor a reset nor a FEED touches the counter or the number format. -/
theorem exactNumericsDrawsNothing : Obligations.ExactNumericsDrawsNothing := by
  intro s t h hexact hstep
  rcases step_registers hstep with hports | ⟨-, hreset⟩ | ⟨x, rest, r, rfl⟩
  · rw [hports]
    exact ⟨rfl, hexact⟩
  · rw [hreset]
    exact ⟨rfl, hexact⟩
  · have hrest : ({ s with inputs := rest } : State).Inv := h.with_ports ..
    obtain ⟨hdraws, hnumerics⟩ := feedBody_drawsKept hrest hexact x
    exact ⟨by simpa using hdraws, by simpa [hexact] using hnumerics⟩

end Sys2Proof.Machine
end

section
/-!
SUPPORT. The port side of the block: what an accepted command word and a step do to the words offered and to the responses
sent (30_encoding.md rule R70, 43_commands.md rule R210, 70_reset_and_hazards.md rule R265).
-/

namespace Sys2Proof.Machine

/-- From `s` to `t` no word moves at a port. -/
def PortsKept (s t : State) : Prop := t.inputs = s.inputs ∧ t.responses = s.responses ∧ t.taken = s.taken

theorem firstHalfFeed_portsKept (x : Sample) (s : State) : PortsKept s (firstHalfFeed x s) := by
  rw [firstHalfFeed_eq]
  exact ⟨by simp, by simp, by simp⟩

theorem secondHalfFeed_portsKept (x : Sample) (s : State) : PortsKept s (secondHalfFeed x s) := by
  unfold secondHalfFeed
  split <;> exact ⟨by simp, by simp, by simp⟩

theorem polarityFeed_portsKept (x : Sample) (s : State) : PortsKept s (polarityFeed x s) := by
  by_cases hc : condCommits (condDiff x s) = true
  · rw [polarityFeed_of_commits hc]
    exact firstHalfFeed_portsKept x (condPolarityCommit (condDiff x s) s)
  · rw [polarityFeed_of_not_commits hc]
    exact ⟨rfl, rfl, rfl⟩

theorem gatedFeed_portsKept {v : State → Result × State} (hv : Verdict v) (x : Sample) (s : State) :
    PortsKept s (gatedFeed v x s).2 := by
  have hkept := gatedFeed_kept hv x s
  exact ⟨hkept.inputs, hkept.responses, hkept.taken⟩

theorem feedBody_portsKept (d : DecState) (x : Sample) (s : State) : PortsKept s (feedBody d x s) := by
  cases d with
  | init => exact ⟨rfl, rfl, rfl⟩
  | detectPolarity => exact polarityFeed_portsKept x s
  | detectWaveFirstHalf => exact firstHalfFeed_portsKept x s
  | detectWaveSecondHalf => exact secondHalfFeed_portsKept x s
  | detectCalibrate => exact gatedFeed_portsKept calDecide_verdict x s
  | decodeData => exact gatedFeed_portsKept dataDecide_verdict x s
  | eof => exact ⟨rfl, rfl, rfl⟩

/-- Every instruction writes registers only and then sends one response (R210). -/
theorem exec_eq_respond (i : Instr) (s : State) :
    ∃ u r, exec i s = .next (u.respond r) ∧ PortsKept s u := by
  by_cases hi : i = .reset
  · exact ⟨s.resetRegisters, .noData, by rw [hi]; rfl, rfl, rfl, rfl⟩
  · obtain ⟨d, x, rfl⟩ := exists_feedIn_of_ne_reset hi
    obtain ⟨r, hr⟩ := exec_feedIn d x s
    exact ⟨feedBody d x s, r, hr, feedBody_portsKept d x s⟩

/-- An accepted command word, of whatever kind, leaves the command port and gets one response. -/
theorem step_accepts {s : State} {w : Word} {rest : List HostInput} (hready : s.ready = true)
    (hin : s.inputs = .command w :: rest) :
    ∃ t r, step s = .next t ∧ t.inputs = rest ∧ t.responses = s.responses ++ [responseWord r] ∧ t.taken = s.taken := by
  rw [step_command hready hin]
  cases commandAt s w with
  | instr i =>
    obtain ⟨u, r, hexec, hinputs, hresponses, htaken⟩ := exec_eq_respond i { s with inputs := rest }
    exact ⟨u.respond r, r, hexec, by simpa using hinputs, by simpa using hresponses, by simpa using htaken⟩
  | reserved why => exact ⟨_, .noData, rfl, rfl, rfl, rfl⟩

theorem step_take {s : State} {rest : List HostInput} (hin : s.inputs = .take :: rest) :
    step s = .next (State.takeResponse { s with inputs := rest }) := by
  simp only [step, hin, nextInput_take]

/-- A step accepts no command word and sends no response, or it accepts the first word offered and sends one response
after all the others. -/
theorem step_sent {s t : State} (h : step s = .next t) :
    (commandWords t.inputs = commandWords s.inputs ∧ t.sent = s.sent)
    ∨ (s.ready = true ∧ ∃ w r, commandWords s.inputs = w :: commandWords t.inputs
        ∧ t.sent = s.sent ++ [responseWord r]) := by
  have accepted {w rest} (hready : s.ready = true) (hin : s.inputs = .command w :: rest) :
      s.ready = true ∧ ∃ w r, commandWords s.inputs = w :: commandWords t.inputs
        ∧ t.sent = s.sent ++ [responseWord r] := by
    obtain ⟨u, r, hstep, hinputs, hresponses, htaken⟩ := step_accepts hready hin
    cases Host.Outcome.next.inj (h.symm.trans hstep)
    exact ⟨hready, w, r, by rw [hin, hinputs, commandWords], by simp [State.sent, hresponses, htaken]⟩
  rcases step_cases h with ⟨-, rfl⟩ | ⟨rest, hnext, rfl⟩ | ⟨rest, hnext, rfl⟩ | ⟨cut, rest, hnext, rfl⟩
    | ⟨w, rest, hready, hin, -⟩ | ⟨x, rest, hready, hin, -⟩ | ⟨rest, hready, hin, -⟩
  · exact .inl ⟨rfl, rfl⟩
  · exact .inl ⟨(nextInput_commandWords hnext).symm, rfl⟩
  · exact .inl ⟨by rw [State.takeResponse_inputs, nextInput_commandWords hnext, commandWords],
      State.takeResponse_sent _⟩
  · exact .inl ⟨(nextInput_commandWords hnext).symm, rfl⟩
  · exact .inr (accepted hready hin)
  · exact .inr (accepted hready hin)
  · exact .inr (accepted hready hin)

end Sys2Proof.Machine
end

section
/-!
SUPPORT. Runs one step at a time, and the responses that a run sends (20_memory.md rule R56, 70_reset_and_hazards.md rule
R265): the statement O21.
-/

namespace Sys2Proof.Machine

theorem steps_succ_of_step {s t : State} (h : step s = .next t) (k : Nat) : steps (k + 1) s = steps k t := by
  rw [steps, h]

/-- A run of one step or more takes its first step and then runs on. -/
theorem exists_step_of_steps_succ {k : Nat} {s t : State} (h : steps (k + 1) s = .next t) :
    ∃ u, step s = .next u ∧ steps k u = .next t := by
  unfold steps at h
  split at h
  · exact ⟨_, ‹_›, h⟩
  · cases h
  · cases h

/-- From `s` to `t` the first words offered were accepted and one response was sent for each, after all the others. -/
def AnsweredInOrder (s t : State) : Prop :=
  ∃ (ws : List Word) (rs : List Result), commandWords s.inputs = ws ++ commandWords t.inputs
    ∧ rs.length = ws.length ∧ t.sent = s.sent ++ rs.map responseWord

theorem AnsweredInOrder.refl (s : State) : AnsweredInOrder s s := ⟨[], [], rfl, rfl, by simp⟩

theorem AnsweredInOrder.trans {s t u : State} (h : AnsweredInOrder s t) (k : AnsweredInOrder t u) :
    AnsweredInOrder s u := by
  obtain ⟨ws, rs, hwords, hlen, hsent⟩ := h
  obtain ⟨ws', rs', hwords', hlen', hsent'⟩ := k
  exact ⟨ws ++ ws', rs ++ rs', by rw [hwords, hwords', List.append_assoc], by simp [hlen, hlen'],
    by rw [hsent', hsent, List.map_append, List.append_assoc]⟩

theorem step_answeredInOrder {s t : State} (h : step s = .next t) : AnsweredInOrder s t := by
  rcases step_sent h with ⟨hwords, hsent⟩ | ⟨-, w, r, hwords, hsent⟩
  · exact ⟨[], [], hwords.symm, rfl, by simp [hsent]⟩
  · exact ⟨[w], [r], hwords, rfl, hsent⟩

theorem steps_answeredInOrder {k : Nat} {s t : State} (h : steps k s = .next t) : AnsweredInOrder s t := by
  induction k generalizing s with
  | zero => exact Host.Outcome.next.inj h ▸ .refl s
  | succ k ih =>
    obtain ⟨u, hstep, hrun⟩ := exists_step_of_steps_succ h
    exact (step_answeredInOrder hstep).trans (ih hrun)

/-- Two steps: a core with no response waiting accepts a command word, and the host takes its response. -/
theorem steps_two_of_command_take {s : State} {w : Word} {rest : List HostInput} (hempty : s.responses = [])
    (hin : s.inputs = .command w :: .take :: rest) :
    ∃ t r, (∀ k, steps (k + 2) s = steps k t) ∧ t.inputs = rest ∧ t.responses = []
      ∧ t.taken = s.taken ++ [responseWord r] := by
  obtain ⟨u, r, hstep, hinputs, hresponses, htaken⟩ := step_accepts (State.ready_of_untaken_nil hempty) hin
  refine ⟨State.takeResponse { u with inputs := rest }, r, fun k => ?_, ?_⟩
  · rw [steps_succ_of_step hstep, steps_succ_of_step (step_take hinputs)]
  · simp [State.takeResponse, hresponses, hempty, htaken]

/-- A host that takes each response gets one response for each command word, two steps for each. -/
theorem steps_takingEach (ws : List Word) {s : State} {rest : List HostInput} (hempty : s.responses = [])
    (hin : s.inputs = takingEach ws ++ rest) :
    ∃ (t : State) (rs : List Result), steps (2 * ws.length) s = .next t ∧ t.inputs = rest ∧ t.responses = []
      ∧ rs.length = ws.length ∧ t.taken = s.taken ++ rs.map responseWord := by
  induction ws generalizing s with
  | nil => exact ⟨s, [], rfl, hin, hempty, rfl, by simp⟩
  | cons w ws ih =>
    obtain ⟨u, r, hrun, hinputs, hresponses, htaken⟩ := steps_two_of_command_take hempty hin
    obtain ⟨t, rs, hrest, hout, hnone, hlen, htakenAll⟩ := ih hresponses hinputs
    exact ⟨t, r :: rs, (hrun _).trans hrest, hout, hnone, by simp [hlen], by simp [htakenAll, htaken]⟩

/-- Settles O21: each step answers what it accepts, and so does a run; a host that takes each response leaves none waiting,
so the core accepts each word. -/
theorem commandsAndResponsesMatch : Obligations.CommandsAndResponsesMatch :=
  ⟨fun _ _ _ h => steps_answeredInOrder h, fun ws _ _ hempty hin => steps_takingEach ws hempty hin⟩

end Sys2Proof.Machine
end

section
/-!
SUPPORT. Decoding against encoding, in both directions, over the dispatch key (30_encoding.md rules R71 to R73, R77 and R78):
the statements O8, O11, O12 and O13.
-/

namespace Sys2Proof.Machine

theorem encodeKeyWith_feedIn (any : BitVec 3) (d : DecState) (x : Sample) :
    encodeKeyWith any (feedIn d x) = d.code ++ (x.setWidth 16 : Word) := by
  rw [encodeKeyWith, feedIn_state, encodeCommand_feedIn]

theorem encodeKeyWith_reset (any : BitVec 3) : encodeKeyWith any .reset = any ++ 0x4000#16 := rfl

theorem keyCommand_encodeKeyWith (any : BitVec 3) (i : Instr) : keyCommand (encodeKeyWith any i) = encodeCommand i :=
  keyCommand_append _ _

/-- Settles O11: a FEED's key carries the code of its state over a word under R72's mask, and RESET's carries 0x4000. -/
theorem decodeOfEncodeIsIdentity : Obligations.DecodeOfEncodeIsIdentity := by
  intro i any
  rw [decodeKey_eq_instr]
  by_cases hi : i = .reset
  · rw [hi, encodeKeyWith_reset, keyCommand_append]
    exact .inr ⟨rfl, rfl⟩
  · obtain ⟨d, x, rfl⟩ := exists_feedIn_of_ne_reset hi
    rw [encodeKeyWith_feedIn, keyState_append, keyCommand_append, feedWord_sample]
    exact .inl ⟨d, rfl, feedWord_masked x, rfl⟩

/-- Settles O12: the two fields of the key determine it, and a masked word is its own sample. -/
theorem encodeOfDecodeIsIdentity : Obligations.EncodeOfDecodeIsIdentity := by
  intro k i h
  rcases decodeKey_eq_instr.mp h with ⟨d, hstate, hmasked, rfl⟩ | ⟨hword, rfl⟩
  · rw [encodeKeyWith_feedIn, feedWord_of_masked hmasked, ← hstate, key_append]
  · rw [encodeKeyWith_reset, ← hword, key_append]

/-- Settles O8: a key with the code of a state decodes as its command word does in that state. -/
theorem commandWordsDecode : Obligations.CommandWordsDecode := by
  intro d w
  rw [decodeKey_dispatchKey]
  refine ⟨decodeCommand_feed d, ?_, decodeCommand_reserved d⟩
  rintro rfl
  exact decodeCommand_reset d

/-- Settles O13, by evaluating the decoder on the eight keys. -/
theorem knownWordsDecode : Obligations.KnownWordsDecode := by
  unfold Obligations.KnownWordsDecode
  decide

end Sys2Proof.Machine
end

section
/-!
SUPPORT. The rows of the opcode table as masks and matches over the 19-bit key (30_encoding.md rule R78): the statement O10.
-/

namespace Sys2Proof.Machine

theorem key_append_inj {c c' : BitVec 3} {w w' : Word} : (c ++ w : Key) = c' ++ w' ↔ c = c' ∧ w = w' := by
  refine ⟨fun h => ⟨?_, ?_⟩, ?_⟩
  · rw [← keyState_append c w, h, keyState_append]
  · rw [← keyCommand_append c w, h, keyCommand_append]
  · rintro ⟨rfl, rfl⟩
    rfl

/-- The mask of the FEED rows keeps the state field and the fields CMD and RSV. -/
theorem key_and_feedMask (k : Key) : k &&& 0x7F800#19 = keyState k ++ (keyCommand k &&& 0xF800#16) := by
  calc k &&& 0x7F800#19 = (keyState k ++ keyCommand k) &&& (BitVec.allOnes 3 ++ 0xF800#16) := by rw [key_append]; rfl
    _ = keyState k ++ (keyCommand k &&& 0xF800#16) := by rw [BitVec.and_append, BitVec.and_allOnes]

/-- The mask of the RESET row keeps the command word. -/
theorem key_and_resetMask (k : Key) : k &&& 0x0FFFF#19 = 0#3 ++ keyCommand k := by
  calc k &&& 0x0FFFF#19 = (keyState k ++ keyCommand k) &&& (0#3 ++ BitVec.allOnes 16) := by rw [key_append]; rfl
    _ = 0#3 ++ keyCommand k := by rw [BitVec.and_append, BitVec.and_allOnes, BitVec.and_zero]

theorem keyCommand_setWidth (k : Key) : (keyCommand k).setWidth 11 = k.setWidth 11 := by
  rw [keyCommand, ← BitVec.setWidth_eq_extractLsb' (by decide), BitVec.setWidth_setWidth_of_le _ (by decide)]

/-- A key decodes to the FEED row of a state exactly where its masked bits are that state's code over a zero word. -/
theorem decodeKey_eq_feedIn_iff (k : Key) (d : DecState) :
    k &&& 0x7F800#19 = d.code ++ (0#16 : Word) ↔ decodeKey k = .instr (feedIn d (k.setWidth 11)) := by
  rw [key_and_feedMask, key_append_inj, decodeKey_eq_instr, ← keyCommand_setWidth]
  constructor
  · rintro ⟨hstate, hmasked⟩
    exact .inl ⟨d, hstate, hmasked, rfl⟩
  · rintro (⟨d', hstate, hmasked, hrow⟩ | ⟨-, hrow⟩)
    · have hd : some d = some d' := by rw [← feedIn_state d, hrow, feedIn_state]
      exact ⟨Option.some.inj hd ▸ hstate, hmasked⟩
    · exact absurd hrow (feedIn_ne_reset d _)

theorem decodeKey_eq_reset_iff (k : Key) : k &&& 0x0FFFF#19 = 0x04000#19 ↔ decodeKey k = .instr .reset := by
  rw [key_and_resetMask, show (0x04000#19 : Key) = 0#3 ++ 0x4000#16 from rfl, key_append_inj, decodeKey_eq_instr]
  constructor
  · rintro ⟨-, hword⟩
    exact .inr ⟨hword, rfl⟩
  · rintro (⟨d, -, -, hrow⟩ | ⟨hword, -⟩)
    · exact absurd hrow.symm (feedIn_ne_reset d _)
    · exact ⟨rfl, hword⟩

/-- Settles O10: a FEED row's match is its state's code over a zero word. -/
theorem keysMatchTableRows : Obligations.KeysMatchTableRows := fun k =>
  ⟨decodeKey_eq_feedIn_iff k .init, decodeKey_eq_feedIn_iff k .detectPolarity,
    decodeKey_eq_feedIn_iff k .detectWaveFirstHalf, decodeKey_eq_feedIn_iff k .detectWaveSecondHalf,
    decodeKey_eq_feedIn_iff k .detectCalibrate, decodeKey_eq_feedIn_iff k .decodeData, decodeKey_eq_feedIn_iff k .eof,
    decodeKey_eq_reset_iff k⟩

end Sys2Proof.Machine
end

section
/-!
SUPPORT. Command words at the port: the reserved ranges, a reserved word and a placed word over a step (30_encoding.md rules
R74 and R78, 43_commands.md rules R200 and R209): the statements O9 and O16.
-/

namespace Sys2Proof.Machine

/-- The words under the mask of R72 are those below 0x0800. -/
theorem feedMask_iff_lt (w : Word) : w &&& 0xF800#16 = 0#16 ↔ w.toNat < 0x0800 := by
  constructor
  · intro h
    rw [← feedWord_of_masked h, BitVec.toNat_setWidth, BitVec.toNat_setWidth]
    omega
  · intro h
    have hw : (w.setWidth 11).setWidth 16 = w := by
      apply BitVec.eq_of_toNat_eq
      rw [BitVec.toNat_setWidth, BitVec.toNat_setWidth]
      omega
    rw [← hw, feedWord_masked]

/-- An accepted word that is neither FEED nor RESET only gets the response NODATA (R209). -/
theorem step_reserved {s : State} {w : Word} {rest : List HostInput} (hready : s.ready = true)
    (hin : s.inputs = .command w :: rest) (hfeed : w &&& 0xF800#16 ≠ 0#16) (hreset : w ≠ 0x4000#16) :
    step s = execReserved { s with inputs := rest } := by
  obtain ⟨why, hwhy⟩ := decodeCommand_reserved s.state hfeed hreset
  rw [step_command hready hin, commandAt_eq, hwhy]

/-- Settles O9: the words below 0x0800 are the FEED words, 0x4000 is RESET, and between and above them all is reserved. -/
theorem reservedWordChangesNothing : Obligations.ReservedWordChangesNothing := by
  refine ⟨fun w => ?_, fun s w rest => step_reserved⟩
  rw [Ne, Ne, feedMask_iff_lt, ← BitVec.toNat_inj, BitVec.toNat_ofNat]
  omega

/-- A sample's own word is FEED of that sample in every state (R72). -/
theorem decodeCommand_feedWord (d : DecState) (x : Sample) : decodeCommand d (x.setWidth 16) = .instr (feedIn d x) := by
  rw [decodeCommand_feed d (feedWord_masked x), feedWord_sample]

/-- In the state whose row an instruction is, its command word decodes to it; RESET's does in every state. -/
theorem decodeCommand_encodeCommand (d : DecState) (i : Instr) :
    decodeCommand (i.state.getD d) (encodeCommand i) = .instr i := by
  by_cases hi : i = .reset
  · rw [hi]
    exact decodeCommand_reset d
  · obtain ⟨d', x, rfl⟩ := exists_feedIn_of_ne_reset hi
    rw [feedIn_state, encodeCommand_feedIn, Option.getD_some, decodeCommand_feedWord]

/-- Placing an instruction's key sets the state its row names, offers its command word and takes the waiting responses. -/
theorem withFetchWord_encodeKeyWith (s : State) (i : Instr) (any : BitVec 3) :
    s.withFetchWord 19 (encodeKeyWith any i).toNat = { s with
      state := i.state.getD s.state, inputs := .command (encodeCommand i) :: s.inputs
      responses := [], taken := s.taken ++ s.responses } := by
  simp only [State.withFetchWord, placeWord, BitVec.ofNat_toNat, BitVec.setWidth_eq, decodeOfEncodeIsIdentity i any,
    keyCommand_encodeKeyWith]

/-- Settles O16: with no response waiting the core accepts the placed word and decodes it back to its instruction. -/
theorem placedWordRuns : Obligations.PlacedWordRuns := by
  intro s i any
  rw [withFetchWord_encodeKeyWith, step_command (State.ready_of_untaken_nil rfl) rfl, commandAt_eq,
    decodeCommand_encodeCommand]

end Sys2Proof.Machine
end

section
/-!
SUPPORT. The response words and the textual form of the commands (30_encoding.md rules R75, R76 and R81): the statements O14
and O26.
-/

namespace Sys2Proof.Machine

/-- The high byte of a data response is 0 and its low byte is the data (R75). -/
theorem readResponse_data (b : Byte) : readResponse (responseWord (.data b)) = some (.data b) := by
  have hhigh : (b.setWidth 16).extractLsb' 8 8 = 0#8 := by
    apply BitVec.eq_of_toNat_eq
    simp [BitVec.extractLsb'_toNat]
    omega
  have hlow : (b.setWidth 16).extractLsb' 0 8 = b := by
    rw [← BitVec.setWidth_eq_extractLsb' (by decide), BitVec.setWidth_setWidth_of_le _ (by decide), BitVec.setWidth_eq]
  rw [responseWord, readResponse, if_pos hhigh, hlow]

/-- Settles O14: a byte is told by its high byte, and the two codes by bit 0. -/
theorem responseWordsAreReadBack : Obligations.ResponseWordsAreReadBack := by
  refine ⟨rfl, rfl, fun b => BitVec.toNat_setWidth_of_le (by decide), fun r => ?_⟩
  cases r with
  | noData => rfl
  | eof => rfl
  | data b => exact readResponse_data b

theorem assemble_feed {n : Nat} (h : n ≤ 2047) : assemble (.feed n) = some [encodeFeed (BitVec.ofNat 11 n)] :=
  if_pos (decide_eq_true h)

theorem assemble_feedTimes {n : Nat} (h : n ≤ 2047) (k : Nat) :
    assemble (.feedTimes n k) = some (List.replicate k (encodeFeed (BitVec.ofNat 11 n))) :=
  if_pos (decide_eq_true h)

theorem assemble_word {n : Nat} (h : n ≤ 65535) : assemble (.word n) = some [BitVec.ofNat 16 n] :=
  if_pos (decide_eq_true h)

/-- An ill-formed line has no words. -/
theorem assemble_of_not_wellFormed {a : AsmLine} (h : ¬ a.wellFormed = true) : assemble a = none := if_neg h

theorem decodeKey_encodeFeed (d : DecState) (x : Sample) :
    decodeKey (dispatchKey d (encodeFeed x)) = .instr (feedIn d x) := by
  rw [decodeKey_dispatchKey, encodeFeed_eq, decodeCommand_feedWord]

/-- The word of a FEED line has the value of the line's sample (R72). -/
theorem encodeFeed_ofNat_toNat {n : Nat} (h : n ≤ 2047) : (encodeFeed (BitVec.ofNat 11 n)).toNat = n := by
  rw [encodeFeed_eq, BitVec.toNat_setWidth, BitVec.toNat_ofNat]
  omega

/-- Settles O26: a line within R81's limits is assembled with its number as the word's value, and the check refuses the
others. -/
theorem linesAssemble : Obligations.LinesAssemble := by
  refine ⟨fun n d hn => ?_, rfl, fun n hn => ?_, fun n k hn => ⟨?_, ?_⟩, fun n hn => ?_⟩
  · exact ⟨_, assemble_feed hn, encodeFeed_ofNat_toNat hn, decodeKey_encodeFeed d _, assemble_feedTimes hn⟩
  · exact ⟨_, assemble_word hn, BitVec.toNat_ofNat .. |>.trans (Nat.mod_eq_of_lt (by omega))⟩
  · exact assemble_of_not_wellFormed (by simpa [AsmLine.wellFormed] using hn)
  · exact assemble_of_not_wellFormed (by simpa [AsmLine.wellFormed] using hn)
  · exact assemble_of_not_wellFormed (by simpa [AsmLine.wellFormed] using hn)

end Sys2Proof.Machine
end

section
/-!
SUPPORT. The conditioner over the FEED rows that use it (40_conditioner.md rules R101 to R110): the statements O28,
O29, O30, O33 and O34.
-/

namespace Sys2Proof.Machine

/-! ## Init and DetectPolarity -/

/-- Settles O28: the handler of Init is COND_INIT and the response NODATA. -/
theorem feedInInit : Obligations.FeedInInit := fun _ _ => rfl

theorem condDiff_eq (x : Sample) (s : State) : condDiff x s = (x.toNat : Int) - s.baseline.toNat := rfl

theorem exec_feedDetectPolarity (x : Sample) (s : State) :
    exec (.feedDetectPolarity x) s = .next ((polarityFeed x s).respond .noData) := rfl

/-- No bit is lost when the smoothed baseline is stored, since it lies between the old one and the sample (R104). -/
theorem condBaselineSmooth_baseline_toNat (x : Sample) (s : State) :
    ((condBaselineSmooth (condDiff x s) s).baseline.toNat : Int) = s.baseline.toNat + truncDiv (condDiff x s) 8 := by
  have hbetween := truncDiv_between (condDiff x s)
  have hdiff := condDiff_eq x s
  rw [condBaselineSmooth_baseline, sampleInt, Config.smoothDiv, toSample_toNat] <;> omega

/-- Settles O29: within the threshold the handler is COND_BASELINE_SMOOTH, whose step lies between 0 and diff. -/
theorem feedSmoothsBaseline : Obligations.FeedSmoothsBaseline := by
  intro x s hdiff
  have hstay : ¬ condCommits (condDiff x s) = true := by rwa [condCommits_iff, not_lt]
  have hbaseline := condBaselineSmooth_baseline_toNat x s
  have hbetween := truncDiv_between (condDiff x s)
  have heq := condDiff_eq x s
  rw [exec_feedDetectPolarity, polarityFeed_of_not_commits hstay]
  refine ⟨_, rfl, hbaseline, ?_, ?_, rfl⟩ <;> rw [State.respond_baseline] <;> omega

/-- The polarity committed by a sample (R103). -/
theorem condPolarityCommit_polarity_iff (x : Sample) (s : State) :
    (condPolarityCommit (condDiff x s) s).polarity = true ↔ s.baseline.toNat < x.toNat := by
  rw [condPolarityCommit_polarity, polarityOf, decide_eq_true_iff, condDiff_eq]
  omega

/-- Both extremes are at the baseline and the sample lies on the polarity's side of it, so the sample that commits the
polarity does not leave the first half-wave (R105). -/
theorem firstHalfExit_condPolarityCommit (x : Sample) (s : State) :
    firstHalfExit x (condPolarityCommit (condDiff x s) s) = false := by
  rw [← Bool.not_eq_true, firstHalfExit_iff, condPolarityCommit_signalMin, condPolarityCommit_signalMax]
  simp only [condPolarityCommit_polarity_iff]
  split <;> omega

/-- A FEED that commits the polarity stays in the first half-wave that it falls through to (R103, R105). -/
theorem polarityFeed_eq_of_commits {x : Sample} {s : State} (h : condCommits (condDiff x s) = true) :
    polarityFeed x s = seedCount (condTrackExtremes x (condPolarityCommit (condDiff x s) s)) := by
  rw [polarityFeed_of_commits h, firstHalfFeed, firstHalfExit_condPolarityCommit]
  rfl

/-- Settles O30: beyond the threshold the handler commits, tracks the extremes from the baseline on and counts. -/
theorem feedCommitsPolarity : Obligations.FeedCommitsPolarity := by
  intro x s hdiff
  rw [exec_feedDetectPolarity, polarityFeed_eq_of_commits ((condCommits_iff x s).2 hdiff)]
  refine ⟨_, rfl, condPolarityCommit_polarity_iff x s, minSample_toNat .., maxSample_toNat .., satU16_succ _, rfl⟩

/-! ## fsample in the calibrated states -/

/-- Settles O33: with a range the conditioner is the quotient over the widened extremes, and draws nothing. -/
theorem fsampleIsNormalized : Obligations.FsampleIsNormalized := by
  intro x s hrange
  rw [conditioned_eq x s hrange]
  exact ⟨rfl, minSample_toNat .., maxSample_toNat .., rfl⟩

/-- A sample between the extremes normalizes into [0, 1], and so does the free value of the zero range (R108, R110). -/
theorem condNormalize_range {x : Sample} {s : State} (hmin : s.signalMin.toNat ≤ x.toNat)
    (hmax : x.toNat ≤ s.signalMax.toNat) : 0 ≤ (condNormalize x s).1 ∧ (condNormalize x s).1 ≤ 1 := by
  have hnum : 0 ≤ sampleInt x - sampleInt s.signalMin := by unfold sampleInt; omega
  have hden : sampleInt x - sampleInt s.signalMin ≤ sampleInt s.signalMax - sampleInt s.signalMin := by
    unfold sampleInt; omega
  unfold condNormalize
  split
  · exact freeFraction_range _
  · exact ⟨div_nonneg (mod_cast hnum) (mod_cast hnum.trans hden),
      div_le_one_of_le₀ (mod_cast hden) (mod_cast hnum.trans hden)⟩

/-- Turning a value of [0, 1] over keeps it there (R109). -/
theorem condPolarityFix_range (polarity : Bool) {q : Rat} (h : 0 ≤ q ∧ q ≤ 1) :
    0 ≤ condPolarityFix polarity q ∧ condPolarityFix polarity q ≤ 1 := by
  obtain ⟨h0, h1⟩ := h
  cases polarity with
  | true => exact ⟨h0, h1⟩
  | false => exact ⟨sub_nonneg.2 h1, sub_le_self 1 h0⟩

/-- Settles O34: the sample lies between the extremes once they are widened by it, in every state. -/
theorem fsampleInUnitInterval : Obligations.FsampleInUnitInterval := by
  intro x s
  refine condPolarityFix_range s.polarity (condNormalize_range ?_ ?_)
  · rw [condWiden_signalMin, minSample_toNat]
    exact min_le_right _ _
  · rw [condWiden_signalMax, maxSample_toNat]
    exact le_max_right _ _

end Sys2Proof.Machine
end

section
/-!
SUPPORT. The skip gate (41_synchronizer.md rule R135) and the FEEDs away from a symbol boundary (R147): the statements
O35 and O45.
-/

namespace Sys2Proof.Machine

/-! ## The two FEED rows of the calibrated states -/

/-- Both FEED rows of the calibrated states are the gated feed with a verdict, and then one response: the NODATA of the
gate where the gate answers it. -/
theorem exec_calibrated {x : Sample} {i : Instr} (hi : i = .feedDetectCalibrate x ∨ i = .feedDecodeData x) (s : State) :
    ∃ v r, Verdict v ∧ exec i s = .next ((gatedFeed v x s).2.respond r)
      ∧ ((gatedFeed v x s).1 = .noData → r = .noData) := by
  rcases hi with rfl | rfl
  · exact ⟨calDecide, .noData, calDecide_verdict, exec_feedDetectCalibrate x s, fun _ => rfl⟩
  · exact ⟨dataDecide, _, dataDecide_verdict, exec_feedDecodeData x s, id⟩

/-- The extremes after a FEED in a calibrated state, in each of its courses (R107). -/
theorem gatedFeed_extremes {v : State → Result × State} (hv : Verdict v) (x : Sample) (s : State) :
    (gatedFeed v x s).2.signalMin.toNat = widenedMin x s ∧ (gatedFeed v x s).2.signalMax.toNat = widenedMax x s := by
  obtain ⟨-, -, -, -, -, -, hmin, hmax⟩ := gatedFeed_kept hv x s
  rw [hmin, hmax]
  exact ⟨minSample_toNat .., maxSample_toNat ..⟩

/-! ## Away from a boundary -/

theorem skip_pred_toNat {n : Count} (h : n ≠ 0#16) : (n - 1#16).toNat + 1 = n.toNat := by bv_omega

/-- Settles O35: the gate counts skip down on what the conditioner left, and the conditioner widens the extremes and draws
only where there is no range. -/
theorem skippedFeed : Obligations.SkippedFeed := by
  intro x s i hi hskip
  obtain ⟨v, r, hv, hexec, hresponse⟩ := exec_calibrated hi s
  have hfeed := gatedFeed_skipped v x s hskip
  obtain ⟨hmin, hmax⟩ := gatedFeed_extremes hv x s
  rw [hresponse (by rw [hfeed])] at hexec
  rw [hfeed] at hexec hmin hmax
  refine ⟨_, hexec, skip_pred_toNat hskip, hmin, hmax, fun hrange => ?_, ?_⟩
  · show (conditioned x s).2.draws = s.draws
    rw [conditioned_eq x s hrange, condWiden_draws]
  · rw [conditioned_state]
    rfl

/-- The registers of the symbol clock that only a symbol boundary writes (R147). -/
structure ClockKept (s t : State) : Prop where
  sampleCount : t.sampleCount = s.sampleCount
  phase : t.phase = s.phase
  phase2 : t.phase2 = s.phase2
  phase3 : t.phase3 = s.phase3
  word : t.word = s.word
  state : t.state = s.state

theorem conditioned_clockKept (x : Sample) (s : State) : ClockKept s (conditioned x s).2 := by
  rw [conditioned_state]
  exact ⟨rfl, rfl, rfl, rfl, rfl, rfl⟩

/-- Away from a boundary a FEED is skipped or adds one sample inside the window. -/
theorem gatedFeed_away (v : State → Result × State) (x : Sample) {s : State} (hb : ¬ s.boundary)
    (hi : s.acc.i.toNat < s.sampleCount.toNat) :
    (gatedFeed v x s).1 = .noData ∧ ClockKept s (gatedFeed v x s).2
      ∧ (gatedFeed v x s).2.skip.toNat = s.skip.toNat - 1
      ∧ (gatedFeed v x s).2.acc.i.toNat = (if s.skip = 0#16 then s.acc.i.toNat + 1 else s.acc.i.toNat) := by
  obtain ⟨hN, hp, hp2, hp3, hw, hst⟩ := conditioned_clockKept x s
  have hacc : (conditioned x s).2.acc = s.acc := by rw [conditioned_state]; rfl
  have hskip : (conditioned x s).2.skip = s.skip := by rw [conditioned_state]; rfl
  by_cases h0 : s.skip = 0#16
  · rw [gatedFeed_inside v x s h0 (State.index_succ_ne hi fun h => hb ⟨h0, h⟩), if_pos h0]
    refine ⟨rfl, ?_, ?_, ?_⟩
    · rw [addSample_frame]
      exact ⟨hN, hp, hp2, hp3, hw, hst⟩
    · rw [addSample_skip, hskip, h0]
      rfl
    · rw [addSample_i, hacc, State.index_succ_toNat hi]
  · rw [gatedFeed_skipped v x s h0, if_neg h0]
    have := skip_pred_toNat h0
    exact ⟨rfl, ⟨hN, hp, hp2, hp3, hw, hst⟩, by dsimp only; omega, by rw [hacc]⟩

/-- Settles O45: the fields that the response adds to are those of the gated feed. -/
theorem correctionsOnlyAtBoundaries : Obligations.CorrectionsOnlyAtBoundaries := by
  intro x s i hi hb hindex
  obtain ⟨v, r, hv, hexec, hresponse⟩ := exec_calibrated hi s
  obtain ⟨hnoData, ⟨hN, hp, hp2, hp3, hw, hst⟩, hskip, hacc⟩ := gatedFeed_away v x hb hindex
  have hresponses := (gatedFeed_kept hv x s).responses
  have hr := hresponse hnoData
  generalize (gatedFeed v x s).2 = t at *
  refine ⟨_, hexec, hN, hp, hp2, hp3, hw, hst, hskip, hacc, ?_⟩
  rw [State.respond_responses, hresponses, condWiden_responses, hr, responseWord]

end Sys2Proof.Machine
end

section
/-!
SUPPORT. A FEED that completes a symbol (41_synchronizer.md rules R136 to R146): its phase, its verdict, the drift rule
and the re-alignment. The statements O38 to O44.
-/

namespace Sys2Proof.Machine

/-- A FEED at a boundary leaves a completed symbol, whichever of the two rows it is, and then one response. -/
theorem exec_boundary {x : Sample} {i : Instr} (hi : i = .feedDetectCalibrate x ∨ i = .feedDecodeData x) {s : State}
    (hb : s.boundary) (hN : 19 ≤ s.sampleCount.toNat) :
    ∃ v t r, Completed v x s t ∧ exec i s = .next (t.respond r) := by
  obtain ⟨v, r, hv, hexec, -⟩ := exec_calibrated hi s
  exact ⟨v, _, r, gatedFeed_boundary v hv x s hb.1 (State.boundary_add hb) hN, hexec⟩

section

variable {v : State → Result × State} {x : Sample} {s t : State}

/-! ## The phase -/

/-- With exact numerics and a range the phase of a completed symbol is that of R137 and R138. -/
theorem Completed.phase_exact (h : Completed v x s t) (hex : s.numerics = .exact) (hN : 0 < s.sampleCount.toNat)
    (hrange : widenedMin x s < widenedMax x s) :
    t.phase.toInt =
      if t.word &&& 0x100#9 = 0#9 then 0 else roundReal (s.scaledPhaseAfter (expectedFsample x s)) := by
  split_ifs with hsync
  · rw [h.phase_syncless hsync]
    rfl
  · have hword := h.word
    rw [conditioned_eq x s hrange] at hword
    rw [h.phase, conditioned_eq x s hrange, completedPhase_exact (by simpa using hex) (by simpa using hN) (hword ▸ hsync)]
    rfl

/-- A phase is at most half its window, rounded up (R137). -/
theorem Completed.phase_half_window (h : Completed v x s t) :
    t.phase.toInt.natAbs ≤ (s.sampleCount.toNat + 1) / 2 := by
  have hle := completedPhase_natAbs_le (conditioned x s).1 (conditioned x s).2
  rwa [← h.phase, (conditioned_clockKept x s).sampleCount] at hle

/-! ## The re-alignment -/

theorem Completed.skip_of_neg (h : Completed v x s t) (hneg : t.phase.toInt < 0) :
    (t.skip.toNat : Int) = -t.phase.toInt := by
  have := h.phase_bound
  rw [(h.late hneg).1, ofInt16_toNat _ (by omega) (by omega)]

theorem Completed.skip_of_nonneg (h : Completed v x s t) (hnn : 0 ≤ t.phase.toInt) : t.skip = 0#16 := by
  rcases h.realigned with ⟨hneg, -, -⟩ | ⟨-, hskip, -⟩ | ⟨-, hskip, -⟩
  · omega
  · exact hskip
  · exact hskip

theorem Completed.acc_of_nonpos (h : Completed v x s t) (hnp : t.phase.toInt ≤ 0) : t.acc = .zero := by
  rcases h.realigned with ⟨-, -, hacc⟩ | ⟨-, -, hacc⟩ | ⟨hpos, -, -⟩
  · exact hacc
  · exact hacc
  · omega

/-- The refeed adds the sample at index 0 of an empty window, where every sine is 0 and every cosine is 1 (R146, R171). -/
theorem accumulate_first (n : Nat) (y : Rat) (f : Nat) :
    (accumulate n 0 y f .zero).sin.value = 0 ∧ (accumulate n 0 y f .zero).cos.value = (y : ℝ) * 25 / (n : ℝ) := by
  rw [accumulate_sin_value, accumulate_cos_value]
  simp [Pair.zero]

/-- The pairs after a refeed. -/
theorem Completed.acc_of_pos (h : Completed v x s t) (hpos : 0 < t.phase.toInt) (f : Fin 9) :
    (t.acc.pairs.get f).sin.value = 0
      ∧ (t.acc.pairs.get f).cos.value = ((conditioned x s).1 : ℝ) * 25 / (t.sampleCount.toNat : ℝ) := by
  rw [(h.early hpos).2, Pairs.get_update, Pairs.get_zero]
  exact accumulate_first ..

/-! ## The drift rule -/

/-- The rational rounding of the model and the real rounding of the claims agree (R10). -/
theorem roundReal_ratCast (q : Rat) : roundReal (q : ℝ) = roundHalfAway q := by
  have hfloor (p : Rat) : ⌊(p : ℝ) + 1 / 2⌋ = ⌊p + 1 / 2⌋ := by
    rw [← Rat.floor_cast (α := ℝ)]
    norm_num
  simp only [roundReal, roundHalfAway, Rat.cast_nonneg, ← Rat.cast_neg, hfloor]
  rfl

/-- The corrected period over the integers (R142, R12). -/
theorem satU16_clampLo_toNat (m : Int) : ((satU16 (clampLo m)).toNat : Int) = min (max m 19) 65535 := by
  rw [satU16_toNat, clampLo, Config.minN]
  omega

/-- Three phases of one sign correct the period by their rounded mean, and clear phase3 (R142 to R144). -/
theorem Completed.drift_of_sameSign (h : Completed v x s t)
    (hsame : sameSign t.phase.toInt s.phase2.toInt s.phase3.toInt) :
    t.phase3 = 0#17
      ∧ (t.sampleCount.toNat : Int) = min (max ((s.sampleCount.toNat : Int)
          - roundReal (((t.phase.toInt + s.phase2.toInt + s.phase3.toInt : Int) : ℝ) / 3)) 19) 65535 := by
  have hcheck := (driftCheck_iff { s with phase := t.phase }).2 hsame
  have hmean : roundReal (((t.phase.toInt + s.phase2.toInt + s.phase3.toInt : Int) : ℝ) / 3)
      = driftMean { s with phase := t.phase } := by
    rw [driftMean, ← roundReal_ratCast]
    norm_num
  rw [h.phase3, h.period, if_pos hcheck, if_pos hcheck, satU16_clampLo_toNat, hmean]
  exact ⟨rfl, rfl⟩

/-- Otherwise the history shifts and the period stays (R141, R144). -/
theorem Completed.drift_of_not_sameSign (h : Completed v x s t)
    (hdiffer : ¬ sameSign t.phase.toInt s.phase2.toInt s.phase3.toInt) :
    t.phase3 = s.phase2 ∧ t.sampleCount = s.sampleCount := by
  have hcheck := mt (driftCheck_iff { s with phase := t.phase }).1 hdiffer
  rw [h.phase3, h.period, if_neg hcheck, if_neg hcheck]
  exact ⟨rfl, rfl⟩

/-! ## The frame -/

/-- What a completed symbol and its response leave in the state: the fields that R136 does not name are as before. -/
theorem Completed.frame_respond (h : Completed v x s t) (r : Result) :
    t.respond r = { s with
      state := (t.respond r).state, signalMin := (t.respond r).signalMin, signalMax := (t.respond r).signalMax
      sampleCount := (t.respond r).sampleCount, acc := (t.respond r).acc, phase := (t.respond r).phase
      phase2 := (t.respond r).phase2, phase3 := (t.respond r).phase3, skip := (t.respond r).skip
      word := (t.respond r).word, responses := (t.respond r).responses, draws := (t.respond r).draws } := by
  rw [h.frame]
  rfl

end

/-! ## The statements -/

/-- Settles O38: the completed phase is that of R137 and R138, and never beyond half the window. -/
theorem completedPhaseIsExact : Obligations.CompletedPhaseIsExact := by
  intro x s i hi hb hN hrange hex
  obtain ⟨v, t, r, h, hexec⟩ := exec_boundary hi hb hN
  exact ⟨_, hexec, h.phase_exact hex (by omega) hrange, h.phase_half_window⟩

/-- Settles O39: CAL_DECIDE on the completed word, and NODATA whatever it answers. -/
theorem calibrateDecidesByWord : Obligations.CalibrateDecidesByWord := by
  intro x s hs hb hN
  have h := gatedFeed_boundary calDecide calDecide_verdict x s hb.1 (State.boundary_add hb) hN
  have hresponses := (gatedFeed_kept calDecide_verdict x s).responses
  obtain ⟨hmin, hmax⟩ := gatedFeed_extremes calDecide_verdict x s
  rw [exec_feedDetectCalibrate]
  generalize (gatedFeed calDecide x s).2 = t at *
  refine ⟨_, rfl, ?_, ?_, hmin, hmax, h.frame_respond _⟩
  · rw [State.respond_state, State.respond_word, h.state, calDecide_state, hs]
  · rw [State.respond_responses, hresponses, condWiden_responses, responseWord]

/-- The response of a data byte is the word without its sync bit (R75, R140). -/
theorem responseWord_dataByte (w : SymbolWord) :
    responseWord (.data (dataByte w)) = (w &&& 0x0FF#9).setWidth 16 := by
  have hlow : (w &&& 0x0FF#9).toNat = w.toNat % 256 := Nat.and_two_pow_sub_one_eq_mod w.toNat 8
  apply BitVec.eq_of_toNat_eq
  rw [BitVec.toNat_setWidth, hlow, responseWord, dataByte, BitVec.toNat_setWidth, BitVec.extractLsb'_toNat,
    Nat.shiftRight_zero]

/-- Settles O40: DATA_DECIDE on the completed word, and the response it answers. -/
theorem dataDecidesByWord : Obligations.DataDecidesByWord := by
  intro x s hs hb hN
  have h := gatedFeed_boundary dataDecide dataDecide_verdict x s hb.1 (State.boundary_add hb) hN
  have hresult := h.result
  have hresponses := (gatedFeed_kept dataDecide_verdict x s).responses
  obtain ⟨hmin, hmax⟩ := gatedFeed_extremes dataDecide_verdict x s
  rw [exec_feedDecodeData]
  generalize gatedFeed dataDecide x s = g at *
  refine ⟨_, rfl, ?_, ?_, hmin, hmax, h.frame_respond _⟩
  · rw [State.respond_state, State.respond_word, h.state, dataDecide_state, hs]
  · rw [State.respond_responses, State.respond_word, hresponses, condWiden_responses, hresult, dataDecide_result]
    split_ifs with hword
    · rfl
    · rw [responseWord_dataByte]

/-- Settles O41: the drift check is `sameSign`, and its two outcomes are those of `Completed`. -/
theorem driftRuleAtBoundary : Obligations.DriftRuleAtBoundary := by
  intro x s i hi hb hN
  obtain ⟨v, t, r, h, hexec⟩ := exec_boundary hi hb hN
  exact ⟨_, hexec, h.phase2, h.drift_of_sameSign, h.drift_of_not_sameSign⟩

/-- A phase of 0 two symbols back blocks the trigger (R141). -/
theorem not_sameSign_zero (a b : Int) : ¬ sameSign a b 0 := by
  rintro (⟨-, -, h⟩ | ⟨-, -, h⟩) <;> omega

/-- Settles O42: the correction leaves phase3 at 0, which blocks the trigger at the next boundary. -/
theorem correctionNeedsTwoMoreSymbols : Obligations.CorrectionNeedsTwoMoreSymbols := by
  intro x y i j s t u v hi hj hs hsN hexec hsame hu huN hphase2 hphase3 hexec'
  obtain ⟨t', ht', ht2, htrigger, -⟩ := driftRuleAtBoundary x s i hi hs hsN
  obtain rfl := Host.Outcome.next.inj (hexec.symm.trans ht')
  obtain ⟨v', hv', hv2, -, hshift⟩ := driftRuleAtBoundary y u j hj hu huN
  obtain rfl := Host.Outcome.next.inj (hexec'.symm.trans hv')
  have hblocked : ¬ sameSign v.phase.toInt u.phase2.toInt u.phase3.toInt := by
    rw [hphase3, (htrigger hsame).1]
    exact not_sameSign_zero _ _
  obtain ⟨hv3, hperiod⟩ := hshift hblocked
  exact ⟨hperiod, hv2, by rw [hv3, hphase2, ht2]⟩

/-- Settles O43, by the sign of the phase. -/
theorem realignAtBoundary : Obligations.RealignAtBoundary := by
  intro x s i hi hb hN hrange
  obtain ⟨v, t, r, h, hexec⟩ := exec_boundary hi hb hN
  refine ⟨_, hexec, h.skip_of_neg, h.skip_of_nonneg, fun hnp => ?_, fun hpos => ⟨?_, fun f => ?_⟩⟩
  · rw [State.respond_acc, h.acc_of_nonpos hnp]
    exact ⟨rfl, Accumulator.zero_values⟩
  · rw [State.respond_acc, (h.early hpos).2]
  · have hpairs := h.acc_of_pos hpos f
    rwa [conditioned_eq x s hrange] at hpairs

/-- Settles O44: the phase is 0, so the drift rule does not trigger and nothing is re-aligned. -/
theorem synclessSymbolLeavesClock : Obligations.SynclessSymbolLeavesClock := by
  intro x s i hi hb hN
  obtain ⟨v, t, r, h, hexec⟩ := exec_boundary hi hb hN
  refine ⟨_, hexec, fun hsync => ?_⟩
  have hphase : t.phase = 0#17 := h.phase_syncless hsync
  have hdiffer : ¬ sameSign t.phase.toInt s.phase2.toInt s.phase3.toInt := by
    rw [hphase]
    rintro (⟨hpos, -⟩ | ⟨hneg, -⟩)
    · exact absurd hpos (by decide)
    · exact absurd hneg (by decide)
  obtain ⟨hphase3, hperiod⟩ := h.drift_of_not_sameSign hdiffer
  obtain ⟨hskip, hacc⟩ := h.onTime hphase
  exact ⟨hphase, hperiod, hskip, congrArg Accumulator.i hacc, h.phase2.trans hphase, hphase3⟩

end Sys2Proof.Machine
end

section
/-!
SUPPORT. The transition table (41_synchronizer.md rule R130): the statement O27.
-/

namespace Sys2Proof.Machine

/-! ## Before calibration -/

/-- The state register after H_POL (R103, R104). -/
theorem polarityFeed_state (x : Sample) (s : State) :
    (polarityFeed x s).state =
      if 64 < ((x.toNat : Int) - s.baseline.toNat).natAbs then .detectWaveFirstHalf else s.state := by
  by_cases h : condCommits (condDiff x s) = true
  · rw [polarityFeed_eq_of_commits h, if_pos ((condCommits_iff x s).1 h)]
    simp
  · rw [polarityFeed_of_not_commits h, if_neg (mt (condCommits_iff x s).2 h), condBaselineSmooth_state]

/-- The exit of the first half-wave as R132 restates it: the sample is beyond the extreme opposite to the polarity. -/
theorem firstHalfExit_iff_beyond (x : Sample) (s : State) :
    firstHalfExit x s = true ↔
      (s.polarity = true ∧ x.toNat < s.signalMin.toNat) ∨ (s.polarity = false ∧ s.signalMax.toNat < x.toNat) := by
  rw [firstHalfExit_iff]
  cases s.polarity <;> simp

/-- The exit of the second half-wave: the sample crosses the midpoint in the direction of the polarity (R133). -/
theorem secondHalfExit_iff_crosses (x : Sample) (s : State) :
    secondHalfExit x s = true ↔
      (s.polarity = true ∧ (s.signalMin.toNat + s.signalMax.toNat) / 2 < x.toNat)
        ∨ (s.polarity = false ∧ x.toNat < (s.signalMin.toNat + s.signalMax.toNat) / 2) := by
  rw [secondHalfExit_iff]
  cases s.polarity <;> simp

/-- The state register after H_SH (R134). -/
theorem secondHalfFeed_state (x : Sample) (s : State) :
    (secondHalfFeed x s).state = if secondHalfExit x s = true then .detectCalibrate else s.state := by
  unfold secondHalfFeed
  split
  · exact enterCalibrate_state _
  · simp

/-! ## In the calibrated states -/

/-- A FEED that completes no symbol keeps the state register (R147). -/
theorem state_of_not_boundary {s t : State} {x : Sample} {i : Instr}
    (hi : i = .feedDetectCalibrate x ∨ i = .feedDecodeData x) (hinv : s.Inv) (hs : s.calibrated) (hb : ¬ s.boundary)
    (hexec : exec i s = .next t) : t.state = s.state := by
  obtain ⟨u, hu, -, -, -, -, -, hstate, -⟩ := correctionsOnlyAtBoundaries x s i hi hb (hinv.index hs)
  obtain rfl := Host.Outcome.next.inj (hexec.symm.trans hu)
  exact hstate

/-- The row of R130 for DetectCalibrate. -/
theorem state_of_feedDetectCalibrate {s t : State} {x : Sample} (hinv : s.Inv) (hs : s.state = .detectCalibrate)
    (hexec : exec (.feedDetectCalibrate x) s = .next t) :
    t.state =
      if s.skip = 0#16 ∧ s.acc.i.toNat + 1 = s.sampleCount.toNat then
        (if t.word = 0x13E#9 then .decodeData else if t.word = 0x000#9 then .init else .detectCalibrate)
      else .detectCalibrate := by
  by_cases hb : s.skip = 0#16 ∧ s.acc.i.toNat + 1 = s.sampleCount.toNat
  · obtain ⟨u, hu, hstate, -⟩ := calibrateDecidesByWord x s hs hb (hinv.floor (.inl hs))
    obtain rfl := Host.Outcome.next.inj (hexec.symm.trans hu)
    rw [if_pos hb, hstate]
    -- The table tests for the marker first, CAL_DECIDE for the zero word; no word is both.
    by_cases hzero : t.word = 0x000#9 <;> simp [hzero]
  · rw [if_neg hb, state_of_not_boundary (.inl rfl) hinv (.inl hs) hb hexec, hs]

/-- The row of R130 for DecodeData. -/
theorem state_of_feedDecodeData {s t : State} {x : Sample} (hinv : s.Inv) (hs : s.state = .decodeData)
    (hexec : exec (.feedDecodeData x) s = .next t) :
    t.state =
      if s.skip = 0#16 ∧ s.acc.i.toNat + 1 = s.sampleCount.toNat ∧ t.word = 0x000#9 then .eof else .decodeData := by
  by_cases hb : s.skip = 0#16 ∧ s.acc.i.toNat + 1 = s.sampleCount.toNat
  · obtain ⟨u, hu, hstate, -⟩ := dataDecidesByWord x s hs hb (hinv.floor (.inr hs))
    obtain rfl := Host.Outcome.next.inj (hexec.symm.trans hu)
    simp only [hstate, hb, true_and]
  · rw [if_neg fun h => hb ⟨h.1, h.2.1⟩, state_of_not_boundary (.inr rfl) hinv (.inr hs) hb hexec, hs]

/-! ## The table -/

/-- The table of R130: the state after a FEED of `x` in `s` where a symbol that it completes has the word `w`. -/
def tableState (x : Sample) (w : SymbolWord) (s : State) : DecState :=
  match s.state with
  | .init => .detectPolarity
  | .detectPolarity =>
    if 64 < ((x.toNat : Int) - s.baseline.toNat).natAbs then .detectWaveFirstHalf else .detectPolarity
  | .detectWaveFirstHalf =>
    if (s.polarity = true ∧ x.toNat < s.signalMin.toNat) ∨ (s.polarity = false ∧ s.signalMax.toNat < x.toNat)
    then .detectWaveSecondHalf else .detectWaveFirstHalf
  | .detectWaveSecondHalf =>
    if (s.polarity = true ∧ (s.signalMin.toNat + s.signalMax.toNat) / 2 < x.toNat)
        ∨ (s.polarity = false ∧ x.toNat < (s.signalMin.toNat + s.signalMax.toNat) / 2)
    then .detectCalibrate else .detectWaveSecondHalf
  | .detectCalibrate =>
    if s.skip = 0#16 ∧ s.acc.i.toNat + 1 = s.sampleCount.toNat then
      (if w = 0x13E#9 then .decodeData else if w = 0x000#9 then .init else .detectCalibrate)
    else .detectCalibrate
  | .decodeData =>
    if s.skip = 0#16 ∧ s.acc.i.toNat + 1 = s.sampleCount.toNat ∧ w = 0x000#9 then .eof else .decodeData
  | .eof => .eof

/-- The FEED row of each state follows the table. -/
theorem exec_feedIn_state {s t : State} (hinv : s.Inv) (x : Sample) (hexec : exec (feedIn s.state x) s = .next t) :
    t.state = tableState x t.word s := by
  obtain ⟨r, hbody⟩ := eq_respond_of_exec_feedIn hexec
  have hstate : t.state = (feedBody s.state x s).state := by rw [hbody, State.respond_state]
  cases hs : s.state with
  | init =>
    rw [hstate, tableState, hs, feedBody, condInit_state]
  | detectPolarity =>
    rw [hstate, tableState, hs, feedBody, polarityFeed_state, hs]
  | detectWaveFirstHalf =>
    rw [hstate, tableState, hs, feedBody, firstHalfFeed_eq]
    simp only [firstHalfExit_iff_beyond, hs]
  | detectWaveSecondHalf =>
    rw [hstate, tableState, hs, feedBody, secondHalfFeed_state]
    simp only [secondHalfExit_iff_crosses, hs]
  | detectCalibrate =>
    rw [hs] at hexec
    rw [tableState, hs]
    exact state_of_feedDetectCalibrate hinv hs hexec
  | decodeData =>
    rw [hs] at hexec
    rw [tableState, hs]
    exact state_of_feedDecodeData hinv hs hexec
  | eof =>
    rw [hstate, tableState, hs, feedBody, hs]

/-- An accepted FEED runs the row of the state that it finds (R78, R265). -/
theorem exec_of_step_feed {s t : State} {x : Sample} {rest : List HostInput} (hready : s.ready = true)
    (hin : s.inputs = .command (x.setWidth 16) :: rest) (hstep : step s = .next t) :
    exec (feedIn s.state x) { s with inputs := rest } = .next t := by
  rw [step_command hready hin, commandAt_feed] at hstep
  exact hstep

/-- Settles O27: the step runs the row of the state it finds, and the words still to come are no part of the table. -/
theorem feedFollowsTransitionTable : Obligations.FeedFollowsTransitionTable := by
  intro s t x rest hinv hready hin hstep
  have hrest : ({ s with inputs := rest } : State).Inv := hinv.with_ports ..
  have hexec := exec_of_step_feed hready hin hstep
  exact exec_feedIn_state hrest x hexec

end Sys2Proof.Machine
end

section
/-!
SUPPORT. The phases that a finite number format may answer (93_implementation_defined.md entry I1): the list the model
enumerates holds every phase that the bound admits. The statement O52.
-/

namespace Sys2Proof.Machine

/-! ## Rounding and the angle over the reals -/

/-- The rounding is at most a half away (R10). -/
theorem abs_sub_roundReal_le (y : ℝ) : |y - roundReal y| ≤ 1 / 2 := by
  unfold roundReal
  split_ifs
  · have hle := Int.floor_le (y + 1 / 2)
    have hlt := Int.lt_floor_add_one (y + 1 / 2)
    exact abs_le.2 ⟨by linarith, by linarith⟩
  · have hle := Int.floor_le (-y + 1 / 2)
    have hlt := Int.lt_floor_add_one (-y + 1 / 2)
    rw [Int.cast_neg]
    exact abs_le.2 ⟨by linarith, by linarith⟩

/-- The scaled angle lies within half the window (R137). -/
theorem abs_scaled_le (b a : ℝ) (n : ℕ) : |atan2 b a / (2 * Real.pi) * n| ≤ (n : ℝ) / 2 := by
  obtain ⟨hlo, hhi⟩ := atan2_mem b a
  have hpi := Real.pi_pos
  have habs : |atan2 b a| ≤ Real.pi := abs_le.2 ⟨hlo.le, hhi⟩
  calc |atan2 b a / (2 * Real.pi) * n| = |atan2 b a| / (2 * Real.pi) * n := by
        rw [abs_mul, abs_div, abs_of_pos (by positivity : 0 < 2 * Real.pi), Nat.abs_cast]
    _ ≤ Real.pi / (2 * Real.pi) * n := by gcongr
    _ = (n : ℝ) / 2 := by field_simp

/-! ## The bound at a half-integer -/

/-- Within the bound and a half of y are its rounding and the neighbours of the half-integers within the bound of y
(93 entry I1 (b)). -/
theorem within_half_iff {y e : ℝ} (he : 0 ≤ e) (v : Int) :
    ((v : ℝ) - 1 / 2 - e ≤ y ∧ y ≤ v + 1 / 2 + e) ↔
      v = roundReal y ∨ ∃ m : Int, |y - (m + 1 / 2)| ≤ e ∧ (v = m ∨ v = m + 1) := by
  constructor
  · rintro ⟨hlo, hhi⟩
    rcases lt_or_ge y (v + 1 / 2) with hbelow | habove
    · rcases lt_or_ge ((v : ℝ) - 1 / 2) y with hnear | hfar
      · exact .inl (roundReal_eq_of_abs_lt (abs_lt.2 ⟨by linarith, by linarith⟩)).symm
      · refine .inr ⟨v - 1, abs_le.2 ?_, .inr (by ring)⟩
        push_cast
        constructor <;> linarith
    · exact .inr ⟨v, abs_le.2 ⟨by linarith, by linarith⟩, .inl rfl⟩
  · rintro (rfl | ⟨m, hm, rfl | rfl⟩)
    · obtain ⟨hlo, hhi⟩ := abs_le.1 (abs_sub_roundReal_le y)
      constructor <;> linarith
    · obtain ⟨hlo, hhi⟩ := abs_le.1 hm
      constructor <;> linarith
    · obtain ⟨hlo, hhi⟩ := abs_le.1 hm
      push_cast
      constructor <;> linarith

/-- The phases that a finite number format with the bound `e` may answer at the scaled angle y (93 entry I1 (b) and (c)). -/
def PhaseAllowed (e : ℝ) (n : ℕ) (y : ℝ) (v : Int) : Prop :=
  v = roundReal y
    ∨ (∃ m : Int, |y - (m + 1 / 2)| ≤ e ∧ (v = m ∨ v = m + 1))
    ∨ ((n : ℝ) / 2 - y ≤ e ∧ (v : ℝ) ≤ y - n + e + 1 / 2)
    ∨ (y + (n : ℝ) / 2 ≤ e ∧ y + n - e - 1 / 2 ≤ (v : ℝ))

/-- What `phaseWithin` decides, in the terms of I1. -/
theorem phaseWithin_iff_allowed {n : ℕ} (hn : 1 ≤ n) {sn cs : TrigSum} (h : sn.value ≠ 0 ∨ cs.value ≠ 0) {e : Rat}
    (he : 0 ≤ e) (v : Int) {y : ℝ} (hy : y = atan2 cs.value sn.value / (2 * Real.pi) * n) :
    phaseWithin e n sn cs v = true ↔ PhaseAllowed e n y v := by
  have hupper : ((n : ℝ) / 2 - e ≤ y ∧ (v : ℝ) + n - 1 / 2 - e ≤ y)
      ↔ ((n : ℝ) / 2 - y ≤ e ∧ (v : ℝ) ≤ y - n + e + 1 / 2) :=
    and_congr ⟨fun _ => by linarith, fun _ => by linarith⟩ ⟨fun _ => by linarith, fun _ => by linarith⟩
  have hlower : (y ≤ -((n : ℝ) / 2) + e ∧ y ≤ v - n + 1 / 2 + e)
      ↔ (y + (n : ℝ) / 2 ≤ e ∧ y + n - e - 1 / 2 ≤ (v : ℝ)) :=
    and_congr ⟨fun _ => by linarith, fun _ => by linarith⟩ ⟨fun _ => by linarith, fun _ => by linarith⟩
  rw [phaseWithin_iff hn h e v hy, within_half_iff (Rat.cast_nonneg.2 he), hupper, hlower, PhaseAllowed, or_assoc]

/-! ## The enumeration -/

/-- The half window, rounded up, which no phase exceeds (R137). -/
def halfWindow (n : ℕ) : ℕ := (n + 1) / 2

/-- How far from the exact phase, or from an end of the window, `phaseCandidates` looks. -/
def candidateReach (e : Rat) (n : ℕ) : ℕ := min (e.floor.toNat + 1) (n + 1)

/-- What the list of candidates holds: of the phases within the reach of the exact one or of an end of the window, those
within the half window that are exact or within the bound. -/
theorem mem_phaseCandidates_iff (b : Config.ErrorBound) (n : ℕ) (sn cs : TrigSum) (k v : Int) :
    v ∈ phaseCandidates b n sn cs k ↔
      (∃ d ≤ candidateReach |b.phase| n, v = k + d ∨ v = k - d ∨ v = halfWindow n - d ∨ v = d - halfWindow n)
        ∧ v.natAbs ≤ halfWindow n ∧ (v = k ∨ phaseWithin |b.phase| n sn cs v = true) := by
  simp only [phaseCandidates, List.mem_filter, List.mem_flatMap, List.mem_range, Nat.lt_succ_iff, List.mem_cons,
    List.not_mem_nil, or_false, Bool.and_eq_true, Bool.or_eq_true, decide_eq_true_eq, Int.abs_eq_natAbs, Nat.cast_le]
  rfl

/-- A distance of at most one more than the bound, and of at most the whole window, is within the reach. -/
theorem le_candidateReach {e : Rat} {n d : ℕ} (hd : (d : ℝ) ≤ 1 + e) (hn : d ≤ n + 1) :
    d ≤ candidateReach e n := by
  refine le_min ?_ hn
  have hd' : ((d - 1 : Int) : Rat) ≤ e := by
    have : ((d - 1 : Int) : ℝ) ≤ e := by push_cast; linarith
    exact_mod_cast this
  have hfloor : (d : Int) - 1 ≤ e.floor := Rat.le_floor_iff.2 hd'
  omega

theorem halfWindow_bounds (n : ℕ) : (n : ℝ) / 2 ≤ halfWindow n ∧ (halfWindow n : ℝ) ≤ (n + 1) / 2 := by
  have hlo : n ≤ 2 * halfWindow n := by unfold halfWindow; omega
  have hhi : 2 * halfWindow n ≤ n + 1 := by unfold halfWindow; omega
  have hlo' : (n : ℝ) ≤ 2 * halfWindow n := by exact_mod_cast hlo
  have hhi' : (2 : ℝ) * halfWindow n ≤ n + 1 := by exact_mod_cast hhi
  constructor <;> linarith

/-- Two integers at a distance of at most one more than the bound, both within the half window, are within the reach. -/
theorem natAbs_sub_le_candidateReach {e : Rat} {n : ℕ} {a c : Int} (ha : a.natAbs ≤ halfWindow n)
    (hc : c.natAbs ≤ halfWindow n) (hd : |(a : ℝ) - c| ≤ 1 + e) : (a - c).natAbs ≤ candidateReach e n := by
  refine le_candidateReach ?_ (by unfold halfWindow at *; omega)
  rw [Nat.cast_natAbs, Int.cast_abs, Int.cast_sub]
  exact hd

/-- A phase that the bound admits lies at most one more than the bound from the exact phase, or from an end of the
window. -/
theorem PhaseAllowed.close {e : ℝ} (he : 0 ≤ e) {n : ℕ} {y : ℝ} (hy : |y| ≤ (n : ℝ) / 2) {v : Int}
    (h : PhaseAllowed e n y v) (hv : v.natAbs ≤ halfWindow n) :
    |(v : ℝ) - roundReal y| ≤ 1 + e ∨ |(v : ℝ) - (halfWindow n : Int)| ≤ 1 + e
      ∨ |(v : ℝ) - (-(halfWindow n : Int) : Int)| ≤ 1 + e := by
  obtain ⟨hylo, hyhi⟩ := abs_le.1 hy
  obtain ⟨-, hhalf⟩ := halfWindow_bounds n
  have hvlo : (-(halfWindow n : Int) : ℝ) ≤ v := by exact_mod_cast (by omega : -(halfWindow n : Int) ≤ v)
  have hvhi : (v : ℝ) ≤ halfWindow n := by exact_mod_cast (by omega : v ≤ halfWindow n)
  unfold PhaseAllowed at h
  rw [← or_assoc, ← within_half_iff he] at h
  push_cast at hvlo ⊢
  rcases h with ⟨hlo, hhi⟩ | ⟨-, hbeyond⟩ | ⟨-, hbeyond⟩
  · obtain ⟨hround, hround'⟩ := abs_le.1 (abs_sub_roundReal_le y)
    exact .inl (abs_le.2 ⟨by linarith, by linarith⟩)
  · exact .inr (.inr (abs_le.2 ⟨by linarith, by linarith⟩))
  · exact .inr (.inl (abs_le.2 ⟨by linarith, by linarith⟩))

/-- The enumeration reaches every phase that the bound admits. -/
theorem exists_reach_of_allowed {e : Rat} (he : 0 ≤ e) {n : ℕ} {y : ℝ} (hy : |y| ≤ (n : ℝ) / 2) {v : Int}
    (hv : v.natAbs ≤ halfWindow n) (hk : (roundReal y).natAbs ≤ halfWindow n) (h : PhaseAllowed e n y v) :
    ∃ d ≤ candidateReach e n,
      v = roundReal y + d ∨ v = roundReal y - d ∨ v = halfWindow n - d ∨ v = d - halfWindow n := by
  rcases h.close (Rat.cast_nonneg.2 he) hy hv with hd | hd | hd
  · exact ⟨_, natAbs_sub_le_candidateReach hv hk hd, by omega⟩
  · exact ⟨_, natAbs_sub_le_candidateReach hv (by omega) hd, by omega⟩
  · exact ⟨_, natAbs_sub_le_candidateReach hv (by omega) hd, by omega⟩

/-- Away from the origin the list of candidates is what I1 allows within the half window. -/
theorem mem_phaseCandidates_iff_allowed (b : Config.ErrorBound) {n : ℕ} (hn : 1 ≤ n) {sn cs : TrigSum}
    (h : sn.value ≠ 0 ∨ cs.value ≠ 0) {y : ℝ} (hy : y = atan2 cs.value sn.value / (2 * Real.pi) * n) (v : Int) :
    v ∈ phaseCandidates b n sn cs (roundedPhase n sn cs) ↔
      v.natAbs ≤ halfWindow n ∧ PhaseAllowed |(b.phase : ℝ)| n y v := by
  have hk := roundedPhase_natAbs_le n sn cs
  have he : 0 ≤ |b.phase| := abs_nonneg _
  rw [roundedPhase_eq hn h, ← hy] at hk ⊢
  rw [mem_phaseCandidates_iff, phaseWithin_iff_allowed hn h he v hy, ← Rat.cast_abs]
  constructor
  · rintro ⟨-, hv, rfl | hallowed⟩
    · exact ⟨hv, .inl rfl⟩
    · exact ⟨hv, hallowed⟩
  · rintro ⟨hv, hallowed⟩
    exact ⟨exists_reach_of_allowed he (hy ▸ abs_scaled_le _ _ n) hv hk hallowed, hv, .inr hallowed⟩

/-- The exact phase is a candidate, so that the list is never empty. -/
theorem roundedPhase_mem_phaseCandidates (b : Config.ErrorBound) (n : ℕ) (sn cs : TrigSum) :
    roundedPhase n sn cs ∈ phaseCandidates b n sn cs (roundedPhase n sn cs) :=
  (mem_phaseCandidates_iff ..).2 ⟨⟨0, Nat.zero_le _, .inl (by simp)⟩, roundedPhase_natAbs_le n sn cs, .inl rfl⟩

/-- Away from the origin a finite number format measures one of the candidates, whatever is drawn. -/
theorem measuredPhase_mem_phaseCandidates (b : Config.ErrorBound) (d n : ℕ) {p : Pair}
    (h : p.sin.value ≠ 0 ∨ p.cos.value ≠ 0) :
    measuredPhase (.bounded b) d n p ∈ phaseCandidates b n p.sin p.cos (roundedPhase n p.sin p.cos) := by
  have hlen := List.length_pos_of_mem (roundedPhase_mem_phaseCandidates b n p.sin p.cos)
  simp only [measuredPhase, if_neg (not_origin h)]
  rw [List.getD_eq_getElem _ _ (Nat.mod_lt _ hlen)]
  exact List.getElem_mem _

/-- Settles O52: the list is what I1 allows, and the draw picks one of it. -/
theorem boundedPhaseIsAnyWithinBound : Obligations.BoundedPhaseIsAnyWithinBound :=
  fun b _ _ hn h _ hy =>
    ⟨mem_phaseCandidates_iff_allowed b hn h hy, fun d => measuredPhase_mem_phaseCandidates b d _ h⟩

end Sys2Proof.Machine
end

section
/-!
SUPPORT. The correlator over a window (42_correlator.md rules R170 to R181): one accumulated FEED, the word of a completed
symbol, and the partial sums of the nine-point transform. The statements O36, O37, O46 and O47.
-/

namespace Sys2Proof.Machine

/-! ## One FEED -/

/-- A FEED inside a window adds fsample to the pairs of the widened state, and answers NODATA. -/
theorem gatedFeed_of_inside (v : State → Result × State) {x : Sample} {s : State} (h : s.inside)
    (hrange : widenedMin x s < widenedMax x s) :
    gatedFeed v x s = (.noData, addSample (expectedFsample x s) (condWiden x s)) := by
  obtain ⟨hskip, hi⟩ := h
  rw [gatedFeed_inside v x s hskip (State.index_succ_ne (by omega) (by omega)), conditioned_eq x s hrange]

/-- Settles O36: the gate and the conditioner leave ADD_SAMPLE on the widened state. -/
theorem feedAccumulatesSample : Obligations.FeedAccumulatesSample := by
  intro x s i hi hin hrange
  obtain ⟨v, r, hv, hexec, hresponse⟩ := exec_calibrated hi s
  have hfeed := gatedFeed_of_inside v hin hrange
  obtain ⟨hmin, hmax⟩ := gatedFeed_extremes hv x s
  have hindex : s.acc.i.toNat < s.sampleCount.toNat := by have := hin.2; omega
  have hN : (condWiden x s).sampleCount ≠ 0#16 := State.sampleCount_ne_zero (Nat.zero_lt_of_lt hindex)
  rw [hresponse (by rw [hfeed])] at hexec
  rw [hfeed] at hexec hmin hmax
  refine ⟨_, hexec, ?_, fun f => ⟨addSample_sin _ _ f hN, addSample_cos _ _ f hN⟩, hmin, hmax, ?_⟩
  · rw [State.respond_acc, addSample_i, condWiden_acc, State.index_succ_toNat hindex]
  · rw [addSample_eq _ _ hN]
    rfl

/-- Settles O37: the completed word is WORD_FORM after ADD_SAMPLE of fsample on the widened state. -/
theorem completedWordIsExact : Obligations.CompletedWordIsExact := by
  intro x s i hi hb hN hrange hex
  obtain ⟨v, t, r, h, hexec⟩ := exec_boundary hi hb hN
  refine ⟨_, hexec, fun f => ?_⟩
  have hword : t.word = completedWord (expectedFsample x s) (condWiden x s) := by
    rw [h.word, conditioned_eq x s hrange]
  rw [State.respond_word, hword, show 9 - (f.val + 1) = 8 - f.val by omega]
  exact completedWord_bit f hex (State.sampleCount_ne_zero (by omega : 0 < s.sampleCount.toNat))

/-! ## A window of samples -/

theorem addSamples_concat (xs : List Rat) (x : Rat) (s : State) :
    addSamples (xs ++ [x]) s = addSample x (addSamples xs s) :=
  List.foldl_concat ..

theorem addSamples_sampleCount (xs : List Rat) (s : State) : (addSamples xs s).sampleCount = s.sampleCount := by
  induction xs using List.reverseRecOn with
  | nil => rfl
  | append_singleton xs x ih => rw [addSamples_concat, addSample_sampleCount, ih]

theorem addSamples_numerics (xs : List Rat) (s : State) : (addSamples xs s).numerics = s.numerics := by
  induction xs using List.reverseRecOn with
  | nil => rfl
  | append_singleton xs x ih => rw [addSamples_concat, addSample_numerics, ih]

/-- The angle of frequency f at index k of a window of n samples (R171). -/
noncomputable def turnAngle (n f k : ℕ) : ℝ := 2 * Real.pi * (f : ℝ) * (k : ℝ) / (n : ℝ)

theorem State.angle_eq_turnAngle (s : State) (f : Fin 9) :
    s.angle f = turnAngle s.sampleCount.toNat (f.val + 1) s.acc.i.toNat := rfl

/-- What the samples `xs` from index 0 on add up to in one accumulator of a window of n samples, where `w` is the sine or
the cosine that each index is weighted with (R171). -/
noncomputable def windowSum (w : ℕ → ℝ) (n : ℕ) (xs : List Rat) : ℝ :=
  ∑ k : Fin xs.length, w k.val * (xs[k] : ℝ) * 25 / (n : ℝ)

theorem windowSum_nil (w : ℕ → ℝ) (n : ℕ) : windowSum w n [] = 0 := rfl

theorem windowSum_concat (w : ℕ → ℝ) (n : ℕ) (xs : List Rat) (x : Rat) :
    windowSum w n (xs ++ [x]) = windowSum w n xs + w xs.length * (x : ℝ) * 25 / (n : ℝ) := by
  have hlen : xs.length + 1 = (xs ++ [x]).length := by rw [List.length_append, List.length_singleton]
  rw [windowSum, ← Fin.sum_congr' _ hlen, Fin.sum_univ_castSucc]
  simp [windowSum]

/-- The accumulator that R170 and R171 describe after the samples `xs` of a window of n. -/
structure Transformed (n : ℕ) (xs : List Rat) (a : Accumulator) : Prop where
  index : a.i.toNat = xs.length
  sin : ∀ f : Fin 9, (a.pairs.get f).sin.value = windowSum (fun k => Real.sin (turnAngle n (f.val + 1) k)) n xs
  cos : ∀ f : Fin 9, (a.pairs.get f).cos.value = windowSum (fun k => Real.cos (turnAngle n (f.val + 1) k)) n xs

theorem transformed_zero (n : ℕ) : Transformed n [] .zero :=
  ⟨rfl, fun f => (Accumulator.zero_values f).1.trans (windowSum_nil _ n).symm,
    fun f => (Accumulator.zero_values f).2.trans (windowSum_nil _ n).symm⟩

/-- One more sample adds its own term, at the index that counts the samples before it. -/
theorem Transformed.addSample {s : State} {xs : List Rat} (h : Transformed s.sampleCount.toNat xs s.acc)
    (hlen : xs.length < s.sampleCount.toNat) (x : Rat) :
    Transformed s.sampleCount.toNat (xs ++ [x]) (addSample x s).acc := by
  obtain ⟨hi, hsin, hcos⟩ := h
  have hne : s.sampleCount ≠ 0#16 := State.sampleCount_ne_zero (Nat.zero_lt_of_lt hlen)
  refine ⟨?_, fun f => ?_, fun f => ?_⟩
  · rw [addSample_i, State.index_succ_toNat (hi ▸ hlen), hi, List.length_append, List.length_singleton]
  · rw [addSample_sin x s f hne, State.sinAfter, State.angle_eq_turnAngle, hsin, hi, windowSum_concat]
  · rw [addSample_cos x s f hne, State.cosAfter, State.angle_eq_turnAngle, hcos, hi, windowSum_concat]

/-- Over any part of a window ADD_SAMPLE forms the partial sums of the transform. -/
theorem addSamples_transformed {s : State} (hacc : s.acc = .zero) (xs : List Rat)
    (hlen : xs.length ≤ s.sampleCount.toNat) :
    Transformed s.sampleCount.toNat xs (addSamples xs s).acc := by
  induction xs using List.reverseRecOn with
  | nil =>
    show Transformed _ [] s.acc
    rw [hacc]
    exact transformed_zero _
  | append_singleton xs x ih =>
    rw [List.length_append, List.length_singleton] at hlen
    rw [addSamples_concat]
    have hcount := addSamples_sampleCount xs s
    rw [← hcount] at ih hlen ⊢
    exact (ih (by omega)).addSample hlen x

/-- Settles O46: the sums of `Transformed` are those of the transform, and the length of the window holds them all. -/
theorem windowIsTransform : Obligations.WindowIsTransform := by
  intro s xs f hacc _ hlen
  obtain ⟨hi, hsin, hcos⟩ := addSamples_transformed hacc xs hlen
  exact ⟨hi, hsin f, hcos f⟩

/-! ## A constant window -/

/-- The points of a full window of a frequency below the window length sum to 0. -/
theorem sum_exp_turnAngle {n f : ℕ} (hf : f ≠ 0) (hfn : f < n) :
    ∑ k ∈ Finset.range n, Complex.exp (turnAngle n f k * Complex.I) = 0 := by
  have hroot := Complex.isPrimitiveRoot_exp n (Nat.ne_zero_of_lt hfn)
  have hpow (k : ℕ) : Complex.exp (turnAngle n f k * Complex.I)
      = (Complex.exp (2 * Real.pi * Complex.I / n) ^ f) ^ k := by
    rw [← pow_mul, ← Complex.exp_nat_mul, turnAngle]
    push_cast
    ring_nf
  simp only [hpow]
  rw [geom_sum_eq (hroot.pow_ne_one_of_pos_of_lt hf hfn), pow_right_comm, hroot.pow_eq_one, one_pow, sub_self, zero_div]

theorem sum_sin_turnAngle {n f : ℕ} (hf : f ≠ 0) (hfn : f < n) :
    ∑ k ∈ Finset.range n, Real.sin (turnAngle n f k) = 0 := by
  simpa only [Complex.im_sum, Complex.exp_ofReal_mul_I_im, Complex.zero_im]
    using congrArg Complex.im (sum_exp_turnAngle hf hfn)

theorem sum_cos_turnAngle {n f : ℕ} (hf : f ≠ 0) (hfn : f < n) :
    ∑ k ∈ Finset.range n, Real.cos (turnAngle n f k) = 0 := by
  simpa only [Complex.re_sum, Complex.exp_ofReal_mul_I_re, Complex.zero_re]
    using congrArg Complex.re (sum_exp_turnAngle hf hfn)

/-- A constant window whose weights sum to 0 leaves its accumulator at 0. -/
theorem windowSum_replicate {w : ℕ → ℝ} {m : ℕ} (hw : ∑ k ∈ Finset.range m, w k = 0) (n : ℕ) (y : Rat) :
    windowSum w n (List.replicate m y) = 0 := by
  have hconst : windowSum w n (List.replicate m y) = ∑ k : Fin m, w k.val * (y : ℝ) * 25 / (n : ℝ) := by
    rw [windowSum, ← Fin.sum_congr' _ (List.length_replicate (n := m) (a := y)).symm]
    simp
  rw [hconst, ← Finset.sum_range fun k => w k * (y : ℝ) * 25 / (n : ℝ), ← Finset.sum_div, ← Finset.sum_mul,
    ← Finset.sum_mul, hw, zero_mul, zero_mul, zero_div]

/-- With exact numerics and all pairs at 0 no bit is set (R174). -/
theorem wordOf_exact_of_values_zero (d : ℕ) {p : Pairs} (h : ∀ f, (p.get f).sin.value = 0 ∧ (p.get f).cos.value = 0) :
    wordOf .exact d p = 0#9 := by
  apply BitVec.eq_of_getLsbD_eq
  intro j hj
  have hbit := wordOf_bit .exact d p ⟨8 - j, by omega⟩
  obtain ⟨hsin, hcos⟩ := h ⟨8 - j, by omega⟩
  rw [show 8 - (8 - j) = j by omega] at hbit
  rw [hbit, BitVec.getLsbD_zero, Bool.eq_false_iff, Ne, bitPresent_exact, toFrequencies_value, hsin, hcos]
  norm_num

/-- Settles O47: the weights of each frequency sum to 0 over a full window, and a power of 0 sets no bit. -/
theorem constantWindowGivesZeroWord : Obligations.ConstantWindowGivesZeroWord := by
  intro s y hacc hN hex
  obtain ⟨-, hsin, hcos⟩ := addSamples_transformed hacc (List.replicate s.sampleCount.toNat y) (by simp)
  have hvalues (f : Fin 9) :
      ((addSamples (List.replicate s.sampleCount.toNat y) s).acc.pairs.get f).sin.value = 0
        ∧ ((addSamples (List.replicate s.sampleCount.toNat y) s).acc.pairs.get f).cos.value = 0 := by
    have hfn : f.val + 1 < s.sampleCount.toNat := by omega
    rw [hsin, hcos]
    exact ⟨windowSum_replicate (sum_sin_turnAngle (Nat.succ_ne_zero _) hfn) _ y,
      windowSum_replicate (sum_cos_turnAngle (Nat.succ_ne_zero _) hfn) _ y⟩
  refine ⟨hvalues, ?_⟩
  rw [wordForm_word, addSamples_numerics, hex]
  exact wordOf_exact_of_values_zero _ hvalues

end Sys2Proof.Machine
end

section
/-!
SUPPORT. The command at the port, the reset of the registers, and the FEED rows of the two half-waves (43_commands.md rules
R200, R203, R204 and R208): the statements O15, O17, O31 and O32.
-/

namespace Sys2Proof.Machine

/-! ## The command at the port and RESET -/

/-- Settles O15: the key in the statement is the dispatch key of R78. -/
theorem stepRunsDecodedCommand : Obligations.StepRunsDecodedCommand := by
  intro s w rest i hready hin hdecode
  have hcommand : commandAt s w = .instr i := hdecode
  rw [step_command hready hin, hcommand]

/-- Settles O17: RESET is the reset of the registers and the response NODATA. -/
theorem resetRestoresEveryRegister : Obligations.ResetRestoresEveryRegister := fun _ => rfl

/-! ## The two half-waves -/

theorem exec_feedDetectWaveFirstHalf (x : Sample) (s : State) :
    exec (.feedDetectWaveFirstHalf x) s = .next ((firstHalfFeed x s).respond .noData) := rfl

/-- Settles O31: the exit test reads the extremes before the sample moves them, and only the state register depends on it. -/
theorem feedInFirstHalf : Obligations.FeedInFirstHalf := by
  intro x s
  rw [exec_feedDetectWaveFirstHalf, firstHalfFeed_eq]
  refine ⟨_, rfl, minSample_toNat .., maxSample_toNat .., satU16_succ _, ?_, rfl⟩
  simp only [State.respond_state, firstHalfExit_iff]

theorem exec_feedDetectWaveSecondHalf (x : Sample) (s : State) :
    exec (.feedDetectWaveSecondHalf x) s = .next ((secondHalfFeed x s).respond .noData) := rfl

theorem secondHalfFeed_of_exit {x : Sample} {s : State} (h : secondHalfExit x s = true) :
    secondHalfFeed x s = enterCalibrate (seedCount (condTrackExtremes x s)) := if_pos h

theorem secondHalfFeed_of_not_exit {x : Sample} {s : State} (h : ¬ secondHalfExit x s = true) :
    secondHalfFeed x s = seedCount (condTrackExtremes x s) := if_neg h

/-- The period on entry to DetectCalibrate: the seed, counted once more and then raised to the floor (R131, R134). -/
theorem enterCalibrate_seedCount_toNat (s : State) :
    (enterCalibrate (seedCount s)).sampleCount.toNat = max (min (s.sampleCount.toNat + 1) 65535) 19 := by
  rw [enterCalibrate_sampleCount, satU16_clampLo, seedCount_sampleCount, satU16_succ]

/-- Settles O32: on either side of the midpoint test the extremes and the count move, and beyond it DetectCalibrate starts
with an empty window. -/
theorem feedInSecondHalf : Obligations.FeedInSecondHalf := by
  intro x s
  rw [exec_feedDetectWaveSecondHalf]
  by_cases hexit : secondHalfExit x s = true
  · rw [secondHalfFeed_of_exit hexit]
    refine ⟨_, rfl, minSample_toNat .., maxSample_toNat .., ?_, rfl⟩
    rw [if_pos ((secondHalfExit_iff x s).1 hexit)]
    refine ⟨rfl, ?_, rfl, Accumulator.zero_values, rfl⟩
    rw [State.respond_sampleCount, enterCalibrate_seedCount_toNat, condTrackExtremes_sampleCount]
  · rw [secondHalfFeed_of_not_exit hexit]
    refine ⟨_, rfl, minSample_toNat .., maxSample_toNat .., ?_, rfl⟩
    rw [if_neg (mt (secondHalfExit_iff x s).2 hexit)]
    exact ⟨rfl, satU16_succ _, rfl, rfl⟩

end Sys2Proof.Machine
end

section
/-!
SUPPORT. Where nothing is drawn, no operation reads what the host has taken or the counter of draws (10_state.md rules R21
and R42, 43_commands.md rule R208, 00_scope.md rule R8): the statement O25.
-/

namespace Sys2Proof.Machine

/-- `s` with an earlier past: responses taken before all that it has taken, and another counter of draws. -/
def State.withPast (past : List Word) (d : Nat) (s : State) : State := { s with taken := past ++ s.taken, draws := d }

/-- An operation does with an earlier past what it does without, and answers the same. -/
def BlindToPast (f : State → Result × State) (s : State) : Prop :=
  ∀ past d, f (s.withPast past d) = ((f s).1, (f s).2.withPast past d)

section

variable (past : List Word) (d : Nat)

/-! ## Before calibration -/

theorem firstHalfFeed_withPast (x : Sample) (s : State) :
    firstHalfFeed x (s.withPast past d) = (firstHalfFeed x s).withPast past d := by
  rw [firstHalfFeed_eq, firstHalfFeed_eq]
  rfl

theorem secondHalfFeed_withPast (x : Sample) (s : State) :
    secondHalfFeed x (s.withPast past d) = (secondHalfFeed x s).withPast past d := by
  by_cases hexit : secondHalfExit x s = true
  · rw [secondHalfFeed_of_exit hexit, secondHalfFeed_of_exit (s := s.withPast past d) hexit]
    rfl
  · rw [secondHalfFeed_of_not_exit hexit, secondHalfFeed_of_not_exit (s := s.withPast past d) hexit]
    rfl

theorem polarityFeed_withPast (x : Sample) (s : State) :
    polarityFeed x (s.withPast past d) = (polarityFeed x s).withPast past d := by
  by_cases hc : condCommits (condDiff x s) = true
  · rw [polarityFeed_of_commits hc, polarityFeed_of_commits (s := s.withPast past d) hc]
    exact firstHalfFeed_withPast past d x (condPolarityCommit (condDiff x s) s)
  · rw [polarityFeed_of_not_commits hc, polarityFeed_of_not_commits (s := s.withPast past d) hc]
    rfl

/-! ## One symbol's decoding -/

/-- Exact numerics decides a bit without the free value (R174). -/
theorem wordOf_exact_draws (d' : Nat) (p : Pairs) : wordOf .exact d p = wordOf .exact d' p :=
  wordOf_congr fun _ => rfl

theorem symbolDrawn_of_exact {s : State} (hexact : s.numerics = .exact) : symbolDrawn s = s := by
  simp only [symbolDrawn, hexact]

theorem addSample_withPast (y : Rat) {s : State} (hN : s.sampleCount ≠ 0#16) :
    addSample y (s.withPast past d) = (addSample y s).withPast past d := by
  rw [addSample_eq y s hN, addSample_eq y (s.withPast past d) hN]
  rfl

theorem completedWord_withPast (y : Rat) {s : State} (hexact : s.numerics = .exact) (hN : s.sampleCount ≠ 0#16) :
    completedWord y (s.withPast past d) = completedWord y s := by
  have hadd : (addSample y s).numerics = .exact := (addSample_numerics y s).trans hexact
  rw [completedWord, completedWord, addSample_withPast past d y hN]
  simp only [State.withPast, hadd]
  exact wordOf_exact_draws ..

/-- Exact numerics measures a phase without a free value (R137). -/
theorem completedPhase_withPast (y : Rat) {s : State} (hexact : s.numerics = .exact) (hN : s.sampleCount ≠ 0#16) :
    completedPhase y (s.withPast past d) = completedPhase y s := by
  have hadd : (addSample y s).numerics = .exact := (addSample_numerics y s).trans hexact
  rw [completedPhase, completedPhase, completedWord_withPast past d y hexact hN, addSample_withPast past d y hN]
  simp only [State.withPast, hadd]
  rfl

end

theorem decodeByte_blindToPast (y : Rat) {s : State} (hexact : s.numerics = .exact) (hN : s.sampleCount ≠ 0#16) :
    BlindToPast (decodeByte y) s := by
  intro past d
  by_cases hi : s.acc.i + 1#16 = s.sampleCount
  · have hadd : (addSample y s).numerics = .exact := (addSample_numerics y s).trans hexact
    rw [decodeByte_boundary y s hi, decodeByte_boundary y (s.withPast past d) hi,
      completedWord_withPast past d y hexact hN, completedPhase_withPast past d y hexact hN,
      addSample_withPast past d y hN, symbolDrawn_of_exact hadd,
      symbolDrawn_of_exact (s := (addSample y s).withPast past d) hadd]
    rfl
  · rw [decodeByte_inside y s hi, decodeByte_inside y (s.withPast past d) hi, addSample_withPast past d y hN]

theorem decodeByte_sampleCount (y : Rat) (s : State) : (decodeByte y s).2.sampleCount = s.sampleCount := by
  by_cases hi : s.acc.i + 1#16 = s.sampleCount
  · rw [decodeByte_boundary y s hi]
    exact addSample_sampleCount y s
  · rw [decodeByte_inside y s hi]
    exact addSample_sampleCount y s

/-! ## A FEED in a calibrated state -/

theorem Verdict.blindToPast {v : State → Result × State} (hv : Verdict v) (s : State) : BlindToPast v s := by
  intro past d
  refine Prod.ext (hv.word _ _ rfl) ?_
  rw [hv.frame (s.withPast past d), hv.state (s.withPast past d) s rfl rfl, hv.frame s]
  rfl

theorem driftRule_withPast (past : List Word) (d : Nat) (s : State) :
    driftRule (s.withPast past d) = (driftRule s).withPast past d := by
  rw [driftRule_eq, driftRule_eq]
  rfl

theorem realign_withPast (past : List Word) (d : Nat) (y : Rat) {s : State} (hexact : s.numerics = .exact)
    (hN : s.sampleCount ≠ 0#16) : realign y (s.withPast past d) = (realign y s).withPast past d := by
  have hdecode := congrArg Prod.snd (decodeByte_blindToPast y hexact hN past d)
  have hphase : (s.withPast past d).phase = s.phase := rfl
  unfold realign
  rw [hphase]
  split_ifs
  · rfl
  · exact hdecode
  · rfl

theorem symbolDone_blindToPast {v : State → Result × State} (hv : Verdict v) (y : Rat) {s : State}
    (hexact : s.numerics = .exact) (hN : 19 ≤ s.sampleCount.toNat) : BlindToPast (symbolDone v y) s := by
  intro past d
  have hkept : (v s).2.numerics = s.numerics ∧ (v s).2.sampleCount = s.sampleCount := by
    rw [hv.frame s]
    exact ⟨rfl, rfl⟩
  obtain ⟨hnumerics, hcount⟩ := hkept
  have hdrift : (driftRule (v s).2).numerics = .exact := by rw [driftRule_numerics, hnumerics, hexact]
  have hfloor : 19 ≤ (driftRule (v s).2).sampleCount.toNat := driftRule_floor _ (hcount ▸ hN)
  simp only [symbolDone, hv.blindToPast s past d, driftRule_withPast,
    realign_withPast past d y hdrift (State.sampleCount_ne_zero (by omega))]

theorem skipGate_blindToPast {v : State → Result × State} (hv : Verdict v) (y : Rat) {s : State}
    (hexact : s.numerics = .exact) (hN : 19 ≤ s.sampleCount.toNat) : BlindToPast (skipGate v y) s := by
  intro past d
  have hdecode := decodeByte_blindToPast y hexact (State.sampleCount_ne_zero (by omega)) past d
  have hdone : BlindToPast (symbolDone v y) (decodeByte y s).2 :=
    symbolDone_blindToPast hv y ((decodeByte_kept y s).numerics.trans hexact) (by rwa [decodeByte_sampleCount])
  have hskip : (s.withPast past d).skip = s.skip := rfl
  unfold skipGate
  rw [hskip]
  split_ifs
  · rfl
  · simp only [hdecode]
    split
    · rfl
    · exact hdone past d

theorem conditioned_withPast (past : List Word) (d : Nat) {x : Sample} {s : State} (hrange : widenedMin x s < widenedMax x s) :
    conditioned x (s.withPast past d) = ((conditioned x s).1, (conditioned x s).2.withPast past d) := by
  rw [conditioned_eq x s hrange, conditioned_eq x (s.withPast past d) hrange]
  rfl

/-- In a calibrated state that meets the invariant there is a range and a period, so exact numerics draws nothing. -/
theorem gatedFeed_blindToPast {v : State → Result × State} (hv : Verdict v) {s : State} (h : s.Inv) (hs : s.calibrated)
    (hexact : s.numerics = .exact) (x : Sample) : BlindToPast (gatedFeed v x) s := by
  intro past d
  have hframe := conditioned_state x s
  have hgate : BlindToPast (skipGate v (conditioned x s).1) (conditioned x s).2 :=
    skipGate_blindToPast hv _ (by rw [hframe]; exact hexact) (by rw [hframe]; exact h.floor hs)
  simp only [gatedFeed, conditioned_withPast past d (h.widened_lt (.inr (.inr hs)) x)]
  exact hgate past d

/-! ## A step -/

/-- What a FEED of `x` handled as in the state `d` answers, with the registers that it leaves (R201 to R207). -/
def feedAnswer (d : DecState) (x : Sample) (s : State) : Result × State :=
  match d with
  | .decodeData => gatedFeed dataDecide x s
  | .eof => (.eof, s)
  | d => (.noData, feedBody d x s)

theorem exec_feedIn_eq (d : DecState) (x : Sample) (s : State) :
    exec (feedIn d x) s = .next ((feedAnswer d x s).2.respond (feedAnswer d x s).1) := by
  cases d <;> rfl

theorem feedAnswer_blindToPast {s : State} (h : s.Inv) (hexact : s.numerics = .exact) (x : Sample) :
    BlindToPast (feedAnswer s.state x) s := by
  intro past d
  cases hs : s.state with
  | init => rfl
  | detectPolarity => exact congrArg (Prod.mk _) (polarityFeed_withPast past d x s)
  | detectWaveFirstHalf => exact congrArg (Prod.mk _) (firstHalfFeed_withPast past d x s)
  | detectWaveSecondHalf => exact congrArg (Prod.mk _) (secondHalfFeed_withPast past d x s)
  | detectCalibrate =>
    have hgate := gatedFeed_blindToPast calDecide_verdict h (.inl hs) hexact x past d
    exact congrArg (fun p => (Result.noData, p.2)) hgate
  | decodeData => exact gatedFeed_blindToPast dataDecide_verdict h (.inr hs) hexact x past d
  | eof => rfl

theorem takeResponse_withPast (past : List Word) (d : Nat) (s : State) :
    (s.withPast past d).takeResponse = s.takeResponse.withPast past d := by
  have hresponses : (s.withPast past d).responses = s.responses := rfl
  unfold State.takeResponse
  rw [hresponses]
  split
  · rfl
  · simp only [State.withPast, List.append_assoc]

/-- A command word that is an instruction runs the FEED row of the state it finds, or RESET, and neither sees the past. -/
theorem exec_withPast {s t : State} {w : Word} {i : Instr} {rest : List HostInput} (h : s.Inv)
    (hexact : s.numerics = .exact) (hi : commandAt s w = .instr i) (hexec : exec i { s with inputs := rest } = .next t)
    (past : List Word) (d : Nat) :
    exec i (State.withPast past d { s with inputs := rest }) = .next (t.withPast past d) := by
  have hrest : ({ s with inputs := rest } : State).Inv := h.with_ports ..
  rw [commandAt_eq] at hi
  rcases decodeCommand_instr hi with ⟨-, rfl⟩ | ⟨-, rfl⟩
  · have hblind := feedAnswer_blindToPast hrest hexact (w.setWidth 11) past d
    rw [exec_feedIn_eq] at hexec ⊢
    cases hexec
    exact congrArg (fun p => Host.Outcome.next (p.2.respond p.1)) hblind
  · cases hexec
    rfl

/-- With exact numerics a step from a state that meets the invariant does not see the past. -/
theorem step_withPast {s t : State} (h : s.Inv) (hexact : s.numerics = .exact) (hstep : step s = .next t)
    (past : List Word) (d : Nat) : step (s.withPast past d) = .next (t.withPast past d) := by
  have hports : nextInput (s.withPast past d).ready (s.withPast past d).inputs = nextInput s.ready s.inputs := rfl
  unfold step at hstep ⊢
  rw [hports]
  cases hnext : nextInput s.ready s.inputs with
  | none =>
    simp only [hnext] at hstep
    cases hstep
    rfl
  | some p =>
    obtain ⟨e, rest⟩ := p
    simp only [hnext] at hstep
    cases e with
    | idle =>
      cases hstep
      rfl
    | take =>
      cases hstep
      exact congrArg Host.Outcome.next (takeResponse_withPast past d { s with inputs := rest })
    | resetInput cut =>
      cases hstep
      rfl
    | command w =>
      have hcommand : commandAt (s.withPast past d) w = commandAt s w := rfl
      simp only [hcommand]
      cases hw : commandAt s w with
      | instr i =>
        simp only [hw] at hstep
        exact exec_withPast h hexact hw hstep past d
      | reserved why =>
        simp only [hw] at hstep
        cases hstep
        rfl

/-- Every step answers a next state (R230, R244). -/
theorem exists_step (s : State) : ∃ t, step s = .next t := by
  unfold step
  split
  · exact ⟨_, rfl⟩
  · exact ⟨_, rfl⟩
  · exact ⟨_, rfl⟩
  · exact ⟨_, rfl⟩
  case h_5 w rest hnext =>
    split
    case h_1 i hw =>
      obtain ⟨u, r, hexec, -⟩ := exec_eq_respond i { s with inputs := rest }
      exact ⟨_, hexec⟩
    case h_2 => exact ⟨_, rfl⟩

/-! ## A run -/

theorem steps_withPast {k : Nat} {s t : State} (h : s.Inv) (hexact : s.numerics = .exact) (hrun : steps k s = .next t)
    (past : List Word) (d : Nat) : steps k (s.withPast past d) = .next (t.withPast past d) := by
  induction k generalizing s with
  | zero =>
    cases hrun
    rfl
  | succ k ih =>
    obtain ⟨u, hstep, hrun⟩ := exists_step_of_steps_succ hrun
    obtain ⟨-, hnumerics⟩ := exactNumericsDrawsNothing s u h hexact hstep
    rw [steps_succ_of_step (step_withPast h hexact hstep past d)]
    exact ih (everyStepKeepsInvariant s u h hstep) hnumerics hrun

theorem exists_steps (k : Nat) (s : State) : ∃ t, steps k s = .next t := by
  induction k generalizing s with
  | zero => exact ⟨s, rfl⟩
  | succ k ih =>
    obtain ⟨u, hstep⟩ := exists_step s
    rw [steps_succ_of_step hstep]
    exact ih u

theorem sent_withPast (past : List Word) (d : Nat) (s : State) : (s.withPast past d).sent = past ++ s.sent :=
  List.append_assoc ..

/-- The state after reset and the response NODATA, with what the host does from there on. -/
def afterReset (host : List HostInput) : State := (State.start .exact host).respond .noData

/-- A RESET leaves nothing of the state it finds but its past. -/
theorem step_reset_eq_afterReset {s : State} {host : List HostInput} (hexact : s.numerics = .exact)
    (hempty : s.responses = []) (hin : s.inputs = .command 0x4000#16 :: host) :
    step s = .next ((afterReset host).withPast s.taken s.draws) := by
  have hdecode : decodeKey (dispatchKey s.state 0x4000#16) = .instr .reset :=
    (decodeKey_dispatchKey ..).trans (decodeCommand_reset _)
  rw [stepRunsDecodedCommand s _ host _ (State.ready_of_untaken_nil hempty) hin hdecode, resetRestoresEveryRegister]
  simp [afterReset, State.start, State.withPast, State.respond, hexact, hempty, State.reset, responseWord]

/-- Settles O25: after RESET both machines are one state with two pasts, which no later step sees. -/
theorem resetForgetsThePast : Obligations.ResetForgetsThePast := by
  intro s u host k hs hu hsempty huempty hsin huin
  obtain ⟨t, hrun⟩ := exists_steps k (afterReset host)
  have hinv : (afterReset host).Inv := (invariantHoldsAtReset .exact host).respond .noData
  have hrunPast := steps_withPast hinv rfl hrun
  refine ⟨t.withPast s.taken s.draws, t.withPast u.taken u.draws, t.sent, ?_, ?_, sent_withPast .., sent_withPast .., rfl⟩
  · rw [steps_succ_of_step (step_reset_eq_afterReset hs hsempty hsin), hrunPast]
  · rw [steps_succ_of_step (step_reset_eq_afterReset hu huempty huin), hrunPast]

end Sys2Proof.Machine
end

section
/-!
SUPPORT. The core between commands, and the completion of every command (43_commands.md rule R210, 60_exceptions.md rules
R230 and R244): the statements O19 and O20.
-/

namespace Sys2Proof.Machine

/-! ## Waiting -/

theorem step_of_inputs_nil {s : State} (hin : s.inputs = []) : step s = .next s := by
  simp only [step, hin, nextInput]

theorem step_idle {s : State} {rest : List HostInput} (hin : s.inputs = .idle :: rest) :
    step s = .next { s with inputs := rest } := by
  simp only [step, hin, nextInput_idle]

/-- Settles O19: a step finds no act of the host, or the one that stands for time alone. -/
theorem coreWaitsBetweenCommands : Obligations.CoreWaitsBetweenCommands :=
  ⟨fun _ => step_of_inputs_nil, fun _ _ => step_idle⟩

/-! ## Completion -/

/-- Settles O20: an instruction writes registers only and then sends its response, and an accepted word runs an
instruction or gets the response of a reserved word. -/
theorem everyCommandCompletes : Obligations.EveryCommandCompletes := by
  refine ⟨fun i s => ?_, fun s w rest hready hin => ?_⟩
  · obtain ⟨u, r, hexec, hinputs, hresponses, htaken⟩ := exec_eq_respond i s
    exact ⟨u.respond r, r, hexec, by simp [hresponses], by simp [htaken], by simp [hinputs]⟩
  · obtain ⟨t, r, hstep, hinputs, hresponses, htaken⟩ := step_accepts hready hin
    exact ⟨t, r, hstep, hresponses, htaken, hinputs⟩

end Sys2Proof.Machine
end

section
/-!
SUPPORT. The reset input and back-pressure: what a step does to the responses that wait, and what the host can do while the
core accepts no command (70_reset_and_hazards.md rules R260 and R265): the statements O18, O22, O23 and O24.
-/

namespace Sys2Proof.Machine

/-! ## The reset input -/

theorem step_resetInput {s : State} {cut : List Word} {rest : List HostInput} (hin : s.inputs = .resetInput cut :: rest) :
    step s = .next ({ s with inputs := rest } : State).resetRegisters := by
  simp only [step, hin, nextInput_resetInput, execResetInput]

/-- Settles O18: the next act is the reset input in every state, and its step is the reset of the registers. -/
theorem resetInputRestoresEveryRegister : Obligations.ResetInputRestoresEveryRegister :=
  fun _ _ _ => step_resetInput

/-! ## A core that accepts no command -/

theorem step_of_nextInput_none {s : State} (hnext : nextInput s.ready s.inputs = none) : step s = .next s := by
  simp only [step, hnext]

/-- Settles O22: only a core that accepts commands accepts a word or sends a response, and command words alone make no next
act for a core that does not. -/
theorem coreStopsWithoutRoom : Obligations.CoreStopsWithoutRoom := by
  refine ⟨State.ready_iff, fun s t hready hstep => ?_, fun s ws hready hin => ?_⟩
  · rcases step_sent hstep with hkept | ⟨haccepts, -⟩
    · exact hkept
    · exact absurd haccepts (by simp [hready])
  · exact step_of_nextInput_none (by rw [hready, hin, nextInput_stopped])

/-! ## Taking a response -/

/-- Where the core accepts no command, taking a response goes ahead of the command words that wait. -/
theorem nextInput_take_ahead (ws : List Word) (rest : List HostInput) :
    nextInput false (ws.map .command ++ .take :: rest) = some (.take, ws.map .command ++ rest) := by
  induction ws with
  | nil => rfl
  | cons w ws ih => simp [nextInput, ih]

theorem step_of_nextInput_take {s : State} {rest : List HostInput} (hnext : nextInput s.ready s.inputs = some (.take, rest)) :
    step s = .next (State.takeResponse { s with inputs := rest }) := by
  simp only [step, hnext]

theorem State.takeResponse_of_nil {s : State} (h : s.responses = []) : s.takeResponse = s := by
  simp only [State.takeResponse, h]

theorem State.takeResponse_of_cons {s : State} {w : Word} {more : List Word} (h : s.responses = w :: more) :
    s.takeResponse = { s with responses := more, taken := s.taken ++ [w] } := by
  simp only [State.takeResponse, h]

@[simp] theorem State.takeResponse_responses (s : State) : s.takeResponse.responses = s.responses.tail := by
  cases h : s.responses with
  | nil => rw [State.takeResponse_of_nil h, h, List.tail_nil]
  | cons w more => rw [State.takeResponse_of_cons h, List.tail_cons]

/-- Settles O23: the step is the host's taking, behind whatever command words wait. -/
theorem takingResponsesReopensPort : Obligations.TakingResponsesReopensPort := by
  refine ⟨fun s ws rest w more hready hin hresponses => ?_, fun s rest hin hempty => ?_, fun _ => State.ready_of_untaken_nil⟩
  · have hnext : nextInput s.ready s.inputs = some (.take, ws.map .command ++ rest) := by
      rw [hready, hin, nextInput_take_ahead]
    exact (step_of_nextInput_take hnext).trans (congrArg Host.Outcome.next (State.takeResponse_of_cons hresponses))
  · exact (step_take hin).trans (congrArg Host.Outcome.next (State.takeResponse_of_nil hempty))

/-! ## The responses that wait -/

/-- What a step can do to the responses that wait: nothing, drop the oldest, or add one where the core accepts commands. -/
theorem step_responses {s t : State} (h : step s = .next t) :
    t.responses = s.responses ∨ t.responses = s.responses.tail
    ∨ (s.ready = true ∧ ∃ r, t.responses = s.responses ++ [responseWord r]) := by
  have accepted {w rest} (hready : s.ready = true) (hin : s.inputs = .command w :: rest) :
      s.ready = true ∧ ∃ r, t.responses = s.responses ++ [responseWord r] := by
    obtain ⟨u, r, hstep, -, hresponses, -⟩ := step_accepts hready hin
    cases Host.Outcome.next.inj (h.symm.trans hstep)
    exact ⟨hready, r, hresponses⟩
  rcases step_cases h with ⟨-, rfl⟩ | ⟨rest, -, rfl⟩ | ⟨rest, -, rfl⟩ | ⟨cut, rest, -, rfl⟩ | ⟨w, rest, hready, hin, -⟩
    | ⟨x, rest, hready, hin, -⟩ | ⟨rest, hready, hin, -⟩
  · exact .inl rfl
  · exact .inl rfl
  · exact .inr (.inl (State.takeResponse_responses _))
  · exact .inl rfl
  · exact .inr (.inr (accepted hready hin))
  · exact .inr (.inr (accepted hready hin))
  · exact .inr (.inr (accepted hready hin))

/-- Settles O24: a response is added only where at most the buffer's count waits. -/
theorem untakenResponsesStayBounded : Obligations.UntakenResponsesStayBounded := by
  intro s t hbound hstep
  rcases step_responses hstep with hkept | htaken | ⟨hready, r, hadded⟩
  · rw [hkept]
    exact hbound
  · rw [htaken, List.length_tail]
    omega
  · have hroom := s.ready_iff.mp hready
    rw [hadded, List.length_append, List.length_singleton]
    omega

end Sys2Proof.Machine
end
